-- ==== Sys2Proof/Word.lean ====
section
/-! DEFINITION. The two word types of I2CM: the bus byte (R9) and the 32-bit interface register word (R10). -/

namespace Sys2Proof

/-- One byte: the data unit on the bus and in every buffer (R9). -/
abbrev Byte := BitVec 8

/-- One interface register word, `REG_W` = 32 bits (R10, R23). -/
abbrev Word := BitVec 32

end Sys2Proof
end

