-- ==== Sys2Proof/Config.lean ====
section
/-! DEFINITION. What the implementation fixes (the OPEN parameters of R10) and the free values of the model.
Every `opaque` constant here has no body: no proof can see its value, so a claim holds whatever it is. DESIGN CHOICE, safe
(log entries 4, 5 and 9). -/

namespace Sys2Proof.Config

/-- `ACK_BEFORE_RESTART` (R10, R159): what the last byte of a Read run that a Write follows is answered with. -/
inductive AckPolicy where
  /-- Not acknowledged: the spec's default. -/
  | suppress
  /-- Acknowledged. -/
  | assertAck
  deriving DecidableEq, Repr, Inhabited

/-- `ACK_BEFORE_RESTART`, OPEN (R10, decision D19). -/
opaque ackBeforeRestart : AckPolicy

/-- `N_INSTANCES` is at least 1 (section 2 of 93_implementation_defined.md): this constant is one less. -/
opaque nInstancesLess1 : Nat

/-- `N_INSTANCES`, the number of bus instances, OPEN and at least 1 (R10). -/
def nInstances : Nat := nInstancesLess1 + 1

/-- The bytes of one register window (R52). -/
def windowBytes : Nat := 4096

/-- No two of the first `n` windows placed by `f` share an address. -/
def windowsDisjoint (f : Nat → Nat) (n : Nat) : Bool :=
  (List.range n).all fun i => (List.range n).all fun j =>
    i == j || decide (f i + windowBytes ≤ f j) || decide (f j + windowBytes ≤ f i)

/-- A placing of the windows, with no bound on it. -/
opaque basePlacing : Nat → Nat

/-- `BASE(inst)`, the host address of an instance's register window, OPEN with disjoint windows (R52, section 2 of
93_implementation_defined.md). Any placing with disjoint windows is a value of it; windows side by side stand where the
free placing has them overlap. -/
def base (k : Nat) : Nat :=
  if windowsDisjoint basePlacing nInstances then basePlacing k else windowBytes * k

/-- `TIMEOUT_INIT` lies in 1..255 (R10): this constant is one less. -/
opaque timeoutInitLess1 : Fin 255

/-- `TIMEOUT_INIT`, the budget CONFIGURE writes, OPEN in 1..255 (R10, R173). -/
def timeoutInit : Byte := BitVec.ofNat 8 (timeoutInitLess1.val + 1)

/-- `TO_SCALE` is at least 1: this constant is one less. -/
opaque toScaleLess1 : Nat

/-- `TO_SCALE`, bus-clock ticks per timeout-count unit, OPEN and at least 1 (R10). -/
def toScale : Nat := toScaleLess1 + 1

/-- `BUSY_LAG_MAX` is at least 1: this constant is one less. -/
opaque busyLagMaxLess1 : Nat

/-- `BUSY_LAG_MAX`, the worst-case busy lag in system-clock cycles, OPEN and at least 1 (R10, R113). -/
def busyLagMax : Nat := busyLagMaxLess1 + 1

/-- By how many cycles the settle delay exceeds the worst-case busy lag. -/
opaque settleSlack : Nat

/-- `N_SETTLE`, OPEN with `N_SETTLE >= BUSY_LAG_MAX`, the premise of every configuration (R138, R202). -/
def nSettle : Nat := busyLagMax + settleSlack

/-- `BUF_AW`, the width of a buffer address, OPEN (R53). -/
opaque bufAw : Nat

/-- `LEN_W`, the width of a length field, OPEN (R90). -/
opaque lenW : Nat

/-- `MAX_OPS`, the most operations of one transaction, OPEN (R154). -/
opaque maxOps : Nat

/-- The `any` word of R14: the bits the spec leaves open at the draw with this number. -/
opaque freeWord : Nat → Word

/-- The `any` byte of R14: `DR.DATA` where a rule leaves it open (R101, R119, R145). -/
opaque freeByte : Nat → Byte

/-- The `BUSBSY` draw of the bus environment when the state lists no answer for it (R38). -/
opaque freeBusBusy : Nat → Bool

/-- The draw of `ENG` from three values at a timeout expiry (R145). -/
opaque freeEng : Nat → Fin 3

end Sys2Proof.Config
end

