-- ==== Sys2Proof/Syntax.lean ====
section
/-! DEFINITION. The instructions of I2CM: one constructor of `Instr` per row of spec/opcode_table.json (R3),
with the operand records they carry and the packet a port presents (R74, R87 to R92). -/

namespace Sys2Proof

/-- Direction of an operation: descriptor bit `dir`, 0 Write and 1 Read (R90). -/
inductive Dir where
  | write
  | read
  deriving DecidableEq, Repr

/-- An operation descriptor `DESC = {dir, len, base}` (R90). -/
structure Desc where
  dir  : Dir
  len  : Nat
  base : Nat
  deriving DecidableEq, Repr

/-- The secondary wait condition of the executor (R136): only "bus no longer busy" exists (R140). -/
inductive WaitCond where
  /-- `none`: no condition. -/
  | always
  | busbsyClear
  deriving DecidableEq, Repr

/-- One constructor per row of spec/opcode_table.json, in the table's order. -/
inductive Instr where
  -- register reads (R99 to R104)
  | rdSa
  | rdStat
  | rdDr
  | rdTpr
  | rdCr
  | rdToc
  -- register writes (R105 to R110), each with its data word
  | wrSa (w : Word)
  | wrDr (w : Word)
  | wrTpr (w : Word)
  | wrCr (w : Word)
  | wrToc (w : Word)
  | wrCmd (w : Word)
  -- command values 0x0 to 0xF (R120 to R135)
  | cmdNone
  | cmdRun
  | cmdStart
  | cmdStartRun
  | cmdStop
  | cmdRunStop
  | cmdStartStop
  | cmdStartRunStop
  | cmdAck
  | cmdAckRun
  | cmdAckStart
  | cmdAckStartRun
  | cmdAckStop
  | cmdAckRunStop
  | cmdAckStartStop
  | cmdAckStartRunStop
  -- host requests (R173, R154, R176)
  | configure (inst sysclk freq : Nat)
  | transaction (addr : BitVec 7) (ops : List Desc)
  | release
  -- one byte of an operation (R161, R162)
  | opWrite (len base : Nat)
  | opRead (len base : Nat)
  -- controller operations (R136, R141, R149, R145, R197)
  | execute (cmd : Word) (wc : WaitCond)
  | nackStop
  | classify (snapshot : Word)
  | timeoutExpire
  | reset
  deriving DecidableEq, Repr

/-- Where an encoded instruction is presented. The words of the formats of R74 overlap
(`0x1` is CONFIGURE on `req_op`, OP_READ in a descriptor and RESET on `rst`), so the port tells them apart.
DESIGN CHOICE, safe (log entry 1). -/
inductive Port where
  /-- `reg_*`, a whole 32-bit word: the words are `[ACC]` for a read and `[ACC, reg_wdata]` for a write (R87). -/
  | regWord
  /-- A halfword register access (R60). -/
  | regHalf
  /-- A byte register access (R60). -/
  | regByte
  /-- The command word written to offset 0x004, by itself: `[CMD]` (R78, R89). -/
  | cmdWord
  /-- `req_*` (R92): `[1, inst, sysclk, freq]`, `[2, addr, dir, len, base, …]` or `[3]`. -/
  | request
  /-- The descriptor the sequencer's position names: `[dir, len, base]` (R90). -/
  | descriptor
  /-- The cycle the sequencer requests of the executor: `[cmd, wc]` (R136). -/
  | executor
  /-- The executor's recovery STOP: `[0x4]` (R141). -/
  | recovery
  /-- The classifier's input: `[STAT snapshot]` (R149). -/
  | classifier
  /-- The timeout detector, which reads no word (R145). -/
  | detector
  /-- `rst`: `[1]` (R197). -/
  | rst
  deriving DecidableEq, Repr

/-- The width of a host access (R60). -/
inductive AccessSize where
  | word
  | half
  | byte
  deriving DecidableEq, Repr

/-- What a port presents in one step: the port and its words, each a natural number. -/
structure Packet where
  port  : Port
  words : List Nat
  deriving DecidableEq, Repr

end Sys2Proof
end

