-- ==== Sys2Proof/WellFormed.lean ====
section
/-! DEFINITION. What an instruction's operands must satisfy for its encoding to exist: the field widths of R90 and R136,
and the bounds a host keeps a TRANSACTION within (R177). -/

namespace Sys2Proof

/-- `n` lies below `2 ^ w`. The first disjunct says the same for 0 without looking at `w`. -/
def fitsWidth (n w : Nat) : Bool := n == 0 || decide (n < 2 ^ w)

/-- A descriptor's `len` fits `LEN_W` bits, its `base` fits `BUF_AW` bits, and its buffer lies inside the
buffer space (R90, R177). -/
def Desc.fits (d : Desc) : Bool :=
  fitsWidth d.len Config.lenW && fitsWidth d.base Config.bufAw &&
    (d.base + d.len == 0 || decide (d.base + d.len ≤ 2 ^ Config.bufAw))

/-- The byte ranges of two descriptors share no address. -/
def Desc.disjoint (a b : Desc) : Bool :=
  a.len == 0 || b.len == 0 || decide (a.base + a.len ≤ b.base) || decide (b.base + b.len ≤ a.base)

/-- Two buffers of one transaction may overlap only if both are Write buffers (R177). -/
def Desc.compatible (a b : Desc) : Bool :=
  (decide (a.dir = .write) && decide (b.dir = .write)) || a.disjoint b

/-- Read buffers overlap neither each other nor a Write buffer (R177). -/
def buffersCompatible : List Desc → Bool
  | []      => true
  | d :: ds => ds.all d.compatible && buffersCompatible ds

/-- The descriptor list of a TRANSACTION keeps within R177: `n <= MAX_OPS` (the first disjunct says it for the empty list
without looking at `MAX_OPS`), every buffer inside the buffer space, every length inside its field, no Read buffer overlapping another buffer. -/
def opsAdmitted (ops : List Desc) : Bool :=
  (ops.isEmpty || decide (ops.length ≤ Config.maxOps)) && ops.all Desc.fits && buffersCompatible ops

/-- An instruction whose operands its encoding can hold and its rule admits. -/
def Instr.wellFormed : Instr → Bool
  | .transaction _ ops => opsAdmitted ops
  | .opWrite len base  => Desc.fits ⟨.write, len, base⟩
  | .opRead len base   => Desc.fits ⟨.read, len, base⟩
  | .execute cmd _     => decide (cmd.toNat < 16)
  | .rdSa | .rdStat | .rdDr | .rdTpr | .rdCr | .rdToc => true
  | .wrSa _ | .wrDr _ | .wrTpr _ | .wrCr _ | .wrToc _ | .wrCmd _ => true
  | .cmdNone | .cmdRun | .cmdStart | .cmdStartRun | .cmdStop | .cmdRunStop | .cmdStartStop | .cmdStartRunStop => true
  | .cmdAck | .cmdAckRun | .cmdAckStart | .cmdAckStartRun | .cmdAckStop | .cmdAckRunStop | .cmdAckStartStop => true
  | .cmdAckStartRunStop => true
  | .configure _ _ _ | .release | .nackStop | .classify _ | .timeoutExpire | .reset => true

end Sys2Proof
end

