-- ==== Sys2Proof/Decode.lean ====
section
/-! DEFINITION. Decoding: from the words a port presents to an instruction, or a rejection by name (R87 to R95);
then the encoder, written from the same tables; then the host's reading of one opcode-table word. -/

namespace Sys2Proof

/-- Why a packet is no instruction. -/
inductive DecodeError where
  /-- A byte or halfword register access (R60). -/
  | subwordAccess
  /-- A register offset that is no multiple of 4 (R61). -/
  | misalignedAccess
  /-- A register offset outside the map of R59 (R62). -/
  | unmappedOffset
  /-- A command word with one of bits 31:4 set (R89). -/
  | reservedCommandBits
  /-- A cycle whose command word has one of bits 31:4 set (R136). -/
  | reservedCycleBits
  /-- `req_op` = 0 or `rst` = 0: no request (R92, R197). -/
  | atRest
  /-- A request or descriptor outside the bounds of R177. -/
  | outsideBounds
  /-- Words no port of R20 can present: a missing or surplus word, or a value wider than its field. -/
  | malformed
  deriving DecidableEq, Repr

/-- Direction bit of a descriptor (R90). -/
def dirOfBit : Nat → Option Dir
  | 0 => some .write
  | 1 => some .read
  | _ => none

/-- Direction bit of a descriptor (R90). -/
def Dir.bit : Dir → Nat
  | .write => 0
  | .read  => 1

/-- Wait-condition operand of EXECUTE. R136 gives no numbers for it: 0 is none and 1 busbsy_clear. DESIGN CHOICE, safe
(log entry 1). -/
def waitCondOfCode : Nat → Option WaitCond
  | 0 => some .always
  | 1 => some .busbsyClear
  | _ => none

/-- The number of a wait condition, the reverse of `waitCondOfCode`. DESIGN CHOICE, safe (log entry 1). -/
def WaitCond.code : WaitCond → Nat
  | .always      => 0
  | .busbsyClear => 1

/-- A read at a mapped offset (R59, R88). -/
def readAt : Nat → Option Instr
  | 0x000 => some .rdSa
  | 0x004 => some .rdStat
  | 0x008 => some .rdDr
  | 0x00C => some .rdTpr
  | 0x020 => some .rdCr
  | 0x024 => some .rdToc
  | _     => none

/-- A write of `w` at a mapped offset (R59, R88). -/
def writeAt (w : Word) : Nat → Option Instr
  | 0x000 => some (.wrSa w)
  | 0x004 => some (.wrCmd w)
  | 0x008 => some (.wrDr w)
  | 0x00C => some (.wrTpr w)
  | 0x020 => some (.wrCr w)
  | 0x024 => some (.wrToc w)
  | _     => none

/-- A command value by its four bits `{ACK, STOP, START, RUN}` (R89). -/
def commandOf : Nat → Option Instr
  | 0x0 => some .cmdNone
  | 0x1 => some .cmdRun
  | 0x2 => some .cmdStart
  | 0x3 => some .cmdStartRun
  | 0x4 => some .cmdStop
  | 0x5 => some .cmdRunStop
  | 0x6 => some .cmdStartStop
  | 0x7 => some .cmdStartRunStop
  | 0x8 => some .cmdAck
  | 0x9 => some .cmdAckRun
  | 0xA => some .cmdAckStart
  | 0xB => some .cmdAckStartRun
  | 0xC => some .cmdAckStop
  | 0xD => some .cmdAckRunStop
  | 0xE => some .cmdAckStartStop
  | 0xF => some .cmdAckStartRunStop
  | _   => none

/-- The result of looking an aligned offset up in the map: alignment is checked before the map (R185). -/
def accessAt (offset : Nat) (found : Option Instr) : Except DecodeError Instr :=
  if offset % 4 ≠ 0 then .error .misalignedAccess
  else match found with
    | some i => .ok i
    | none   => .error .unmappedOffset

/-- A whole-word register access `ACC = {W, offset}` (R87): bit 12 is `W`. -/
def decodeAccess : List Nat → Except DecodeError Instr
  | [acc]       => if acc < 0x1000 then accessAt acc (readAt acc) else .error .malformed
  | [acc, data] =>
    if 0x1000 ≤ acc ∧ acc < 0x2000 ∧ data < 2 ^ 32 then
      accessAt (acc - 0x1000) (writeAt (BitVec.ofNat 32 data) (acc - 0x1000))
    else .error .malformed
  | _           => .error .malformed

/-- A command word by itself (R89). A word with a reserved bit is no command value; R89 gives its fault without condition
and the preamble of 40_register_interface.md checks ownership first. DESIGN CHOICE, safe: the bare word is answered as WR_CMD is,
ownership first (`rejected`, log entry 10). -/
def decodeCommand : List Nat → Except DecodeError Instr
  | [w] =>
    if w < 2 ^ 32 then
      match commandOf w with
      | some i => .ok i
      | none   => .error .reservedCommandBits
    else .error .malformed
  | _   => .error .malformed

/-- Descriptors, three words each (R90). -/
def descsOf : List Nat → Option (List Desc)
  | [] => some []
  | d :: len :: base :: rest =>
    match dirOfBit d, descsOf rest with
    | some dir, some ds => some (⟨dir, len, base⟩ :: ds)
    | _, _              => none
  | _ => none

/-- A host request by its code `REQ` (R92). -/
def decodeRequest : List Nat → Except DecodeError Instr
  | [0] => .error .atRest
  | [1, inst, sysclk, freq] => .ok (.configure inst sysclk freq)
  | 2 :: addr :: rest =>
    if addr < 2 ^ 7 then
      match descsOf rest with
      | some ops =>
        if opsAdmitted ops then .ok (.transaction (BitVec.ofNat 7 addr) ops) else .error .outsideBounds
      | none => .error .malformed
    else .error .malformed
  | [3] => .ok .release
  | _   => .error .malformed

/-- One descriptor: its direction bit names the operation kind (R90, R161, R162). -/
def decodeDescriptor : List Nat → Except DecodeError Instr
  | [d, len, base] =>
    match dirOfBit d with
    | some .write => if Desc.fits ⟨.write, len, base⟩ then .ok (.opWrite len base) else .error .outsideBounds
    | some .read  => if Desc.fits ⟨.read, len, base⟩ then .ok (.opRead len base) else .error .outsideBounds
    | none        => .error .malformed
  | _ => .error .malformed

/-- A cycle requested of the executor: a command word with bits 31:4 = 0, and the wait condition (R136). -/
def decodeCycle : List Nat → Except DecodeError Instr
  | [cmd, c] =>
    if cmd < 2 ^ 32 then
      match waitCondOfCode c with
      | some wc => if cmd < 16 then .ok (.execute (BitVec.ofNat 32 cmd) wc) else .error .reservedCycleBits
      | none    => .error .malformed
    else .error .malformed
  | _ => .error .malformed

/-- The classifier's operand, a 32-bit `STAT` snapshot (R149). -/
def decodeSnapshot : List Nat → Except DecodeError Instr
  | [w] => if w < 2 ^ 32 then .ok (.classify (BitVec.ofNat 32 w)) else .error .malformed
  | _   => .error .malformed

/-- The recovery STOP issues command value 0x4 and nothing else (R141). -/
def decodeRecovery : List Nat → Except DecodeError Instr
  | [4] => .ok .nackStop
  | _   => .error .malformed

/-- The timeout detector reads no word (R145). -/
def decodeDetector : List Nat → Except DecodeError Instr
  | [] => .ok .timeoutExpire
  | _  => .error .malformed

/-- The `rst` input (R197). -/
def decodeRst : List Nat → Except DecodeError Instr
  | [0] => .error .atRest
  | [1] => .ok .reset
  | _   => .error .malformed

/-- Decode what a port presents. Total on every packet; a rejection has a name. -/
def decode (p : Packet) : Except DecodeError Instr :=
  match p.port with
  | .regWord    => decodeAccess p.words
  | .regHalf    => .error .subwordAccess
  | .regByte    => .error .subwordAccess
  | .cmdWord    => decodeCommand p.words
  | .request    => decodeRequest p.words
  | .descriptor => decodeDescriptor p.words
  | .executor   => decodeCycle p.words
  | .recovery   => decodeRecovery p.words
  | .classifier => decodeSnapshot p.words
  | .detector   => decodeDetector p.words
  | .rst        => decodeRst p.words

/-! ## The encoder -/

/-- A descriptor's three words (R90). -/
def Desc.words (d : Desc) : List Nat := [d.dir.bit, d.len, d.base]

/-- The words of a descriptor list (R90, R154). -/
def descWords : List Desc → List Nat
  | []      => []
  | d :: ds => d.dir.bit :: d.len :: d.base :: descWords ds

/-- The packet of a register access at `offset`, a read or, with `data`, a write (R87). -/
def accessPacket (size : AccessSize) (offset : Nat) (data : Option Nat) : Packet :=
  { port := match size with
      | .word => .regWord
      | .half => .regHalf
      | .byte => .regByte
    words := match data with
      | none   => [offset]
      | some w => [0x1000 + offset, w] }

/-- The packet that stands for an instruction. -/
def encode : Instr → Packet
  | .rdSa    => ⟨.regWord, [0x0000]⟩
  | .rdStat  => ⟨.regWord, [0x0004]⟩
  | .rdDr    => ⟨.regWord, [0x0008]⟩
  | .rdTpr   => ⟨.regWord, [0x000C]⟩
  | .rdCr    => ⟨.regWord, [0x0020]⟩
  | .rdToc   => ⟨.regWord, [0x0024]⟩
  | .wrSa w  => ⟨.regWord, [0x1000, w.toNat]⟩
  | .wrDr w  => ⟨.regWord, [0x1008, w.toNat]⟩
  | .wrTpr w => ⟨.regWord, [0x100C, w.toNat]⟩
  | .wrCr w  => ⟨.regWord, [0x1020, w.toNat]⟩
  | .wrToc w => ⟨.regWord, [0x1024, w.toNat]⟩
  | .wrCmd w => ⟨.regWord, [0x1004, w.toNat]⟩
  | .cmdNone            => ⟨.cmdWord, [0x0]⟩
  | .cmdRun             => ⟨.cmdWord, [0x1]⟩
  | .cmdStart           => ⟨.cmdWord, [0x2]⟩
  | .cmdStartRun        => ⟨.cmdWord, [0x3]⟩
  | .cmdStop            => ⟨.cmdWord, [0x4]⟩
  | .cmdRunStop         => ⟨.cmdWord, [0x5]⟩
  | .cmdStartStop       => ⟨.cmdWord, [0x6]⟩
  | .cmdStartRunStop    => ⟨.cmdWord, [0x7]⟩
  | .cmdAck             => ⟨.cmdWord, [0x8]⟩
  | .cmdAckRun          => ⟨.cmdWord, [0x9]⟩
  | .cmdAckStart        => ⟨.cmdWord, [0xA]⟩
  | .cmdAckStartRun     => ⟨.cmdWord, [0xB]⟩
  | .cmdAckStop         => ⟨.cmdWord, [0xC]⟩
  | .cmdAckRunStop      => ⟨.cmdWord, [0xD]⟩
  | .cmdAckStartStop    => ⟨.cmdWord, [0xE]⟩
  | .cmdAckStartRunStop => ⟨.cmdWord, [0xF]⟩
  | .configure inst sysclk freq => ⟨.request, [1, inst, sysclk, freq]⟩
  | .transaction addr ops       => ⟨.request, 2 :: addr.toNat :: descWords ops⟩
  | .release                    => ⟨.request, [3]⟩
  | .opWrite len base => ⟨.descriptor, Desc.words ⟨.write, len, base⟩⟩
  | .opRead len base  => ⟨.descriptor, Desc.words ⟨.read, len, base⟩⟩
  | .execute cmd wc => ⟨.executor, [cmd.toNat, wc.code]⟩
  | .nackStop       => ⟨.recovery, [4]⟩
  | .classify w     => ⟨.classifier, [w.toNat]⟩
  | .timeoutExpire  => ⟨.detector, []⟩
  | .reset          => ⟨.rst, [1]⟩

/-! ## One word of spec/opcode_table.json -/

/-- The packet one opcode-table word stands for, by the number of bits the table gives its row: 16 for the
`ACC` rows, 32 for the `CMD` rows, 8 for the `REQ` rows and, where the word is 0, a descriptor, 0 for the detector.
Operand words are zero. The table's words of other ports coincide with these and cannot be told from them. DESIGN CHOICE,
safe (log entry 1). -/
def tablePacket (nbits w : Nat) : Option Packet :=
  match nbits with
  | 16 => some ⟨.regWord, if w < 0x1000 then [w] else [w, 0]⟩
  | 32 => some ⟨.cmdWord, [w]⟩
  | 8  =>
    match w with
    | 0 => some ⟨.descriptor, [0, 0, 0]⟩
    | 1 => some ⟨.request, [1, 0, 0, 0]⟩
    | 2 => some ⟨.request, [2, 0]⟩
    | 3 => some ⟨.request, [3]⟩
    | _ => none
  | 0  => some ⟨.detector, []⟩
  | _  => none

/-- The instruction the decoder reads from one opcode-table word. -/
def decodeTableWord (nbits w : Nat) : Option Instr :=
  match tablePacket nbits w with
  | some p =>
    match decode p with
    | .ok i    => some i
    | .error _ => none
  | none => none

end Sys2Proof
end

