-- ==== Sys2Proof/Machine/State.lean ====
section
/-! DEFINITION. The state of I2CM as plain data (10_state.md), the reasons a step stops, and the state after reset (R50). -/

namespace Sys2Proof.Machine

/-- `ENG`, the bus-engine state (R41). -/
inductive Eng where
  /-- `IDLE`: the engine does not own the bus. -/
  | idle
  /-- `MT`: owns the bus, last addressed for writing. -/
  | mt
  /-- `MR`: owns the bus, last addressed for reading. -/
  | mr
  deriving DecidableEq, Repr

/-- The framing condition an action sends first (R86). -/
inductive Framing where
  /-- none -/
  | no
  /-- `S`, a START -/
  | s
  /-- `Sr`, a repeated START -/
  | sr
  deriving DecidableEq, Repr

/-- The data phase of an action (R86). -/
inductive DataPhase where
  /-- none -/
  | no
  | tx
  | rxAck
  | rxNack
  deriving DecidableEq, Repr

/-- A bus action `{start, rs, data, stop, next}` (R86). `rs` has a meaning only when `start` is not none. -/
structure Action where
  start : Framing
  rs    : Bool
  data  : DataPhase
  stop  : Bool
  next  : Eng
  deriving DecidableEq, Repr

/-- One bus instance: its interface registers (R23 to R30), status flags (R33 to R39), bus engine
(R41 to R43) and timeout detector (R44). `CMD` holds no value (R27) and `BUSBSY` is computed (R38). -/
structure Bus where
  /-- `CR.MFE`, master function enable (R24). -/
  mfe     : Bool
  /-- `SA.ADDR` (R25). -/
  saAddr  : BitVec 7
  /-- `SA.RS`: 1 receive, 0 transmit (R25). -/
  saRs    : Bool
  /-- `DR.DATA` (R26). -/
  drData  : Byte
  /-- `RXVALID` (R43). -/
  rxValid : Bool
  /-- `STAT.BUSY` (R33). -/
  busy    : Bool
  /-- `STAT.ERROR` (R34). -/
  error   : Bool
  /-- `STAT.ADRACK` (R35). -/
  adrack  : Bool
  /-- `STAT.DATACK` (R36). -/
  datack  : Bool
  /-- `STAT.ARBLST` (R37). -/
  arblst  : Bool
  /-- `STAT.CLKTO` (R39). -/
  clkto   : Bool
  /-- `TPR.TPR` (R30). -/
  tpr     : BitVec 7
  /-- `ENG` (R41). -/
  eng     : Eng
  /-- `ACT` (R42). -/
  act     : Option Action
  /-- `LAG` (R42). -/
  lag     : Bool
  /-- `TO_ARMED` (R44). -/
  toArmed : Bool
  /-- `TOC.CNT` (R29). -/
  tocCnt  : BitVec 8
  /-- `TO_CNT`, informational (R44, R148). -/
  toCnt   : Nat
  deriving DecidableEq, Repr

/-- A bus instance after reset (R50): everything 0, `TPR` 1, `ENG` IDLE. -/
def Bus.reset : Bus where
  mfe := false
  saAddr := 0
  saRs := false
  drData := 0
  rxValid := false
  busy := false
  error := false
  adrack := false
  datack := false
  arblst := false
  clkto := false
  tpr := 1
  eng := .idle
  act := none
  lag := false
  toArmed := false
  tocCnt := 0
  toCnt := 0

/-- The outcome codes of R91. Codes 0b110 and 0b111 are reserved and never produced. -/
inductive Code where
  /-- 0b000: Ok, or the classifier's none. -/
  | ok
  /-- 0b001 -/
  | timeout
  /-- 0b010 -/
  | arbitrationLoss
  /-- 0b011: NoAcknowledge(Address) -/
  | nackAddress
  /-- 0b100: NoAcknowledge(Data) -/
  | nackData
  /-- 0b101: sequencer only -/
  | invalidArgument
  deriving DecidableEq, Repr

/-- `EX_ERR`: the NoAcknowledge outcome held while the recovery STOP runs (R45). -/
inductive NackKind where
  | address
  | data
  deriving DecidableEq, Repr

/-- `EXS`, the executor's state (R45). -/
inductive Exs where
  | idle
  | settle
  | poll
  | waitc
  | nstopSettle
  | nstopPoll
  deriving DecidableEq, Repr

/-- The executor EX (R45), with the two hand-over latches between it and the sequencer that R137 ("SEQ requests a
cycle") and R163 ("the executor has returned a result") imply: DEDUCED, safe but for counting steps (log entry 12). -/
structure Ex where
  /-- `EXS`. -/
  st     : Exs
  /-- `EX_WC`. -/
  wc     : WaitCond
  /-- `EX_ERR`. -/
  err    : NackKind
  /-- The cycle SEQ requests, `(cmd, wc)`, from the issue step until EX returns (R137, R160). -/
  req    : Option (Word × WaitCond)
  /-- The result EX has returned and SEQ has not taken yet, `ok` for Ok (R163). -/
  result : Option Code
  deriving DecidableEq, Repr

/-- The executor after reset (R50). `EX_WC`, `EX_ERR` and the latches: DESIGN CHOICE, unsafe (log entry 6). -/
def Ex.reset : Ex where
  st := .idle
  wc := .always
  err := .address
  req := none
  result := none

/-- `SQS`, the sequencer's state (R46). -/
inductive Sqs where
  | idle
  | issue
  | wait
  deriving DecidableEq, Repr

/-- The transaction sequencer SEQ (R46). Its position `(i, j)` plays the part of a program counter (R49). -/
structure Seq where
  /-- `SQS`. -/
  st   : Sqs
  /-- `SQ_ADDR`. -/
  addr : BitVec 7
  /-- `SQ_OPS`. -/
  ops  : List Desc
  /-- `SQ_I`. -/
  i    : Nat
  /-- `SQ_J`. -/
  j    : Nat
  /-- `SQ_PEND`, pending START. -/
  pend : Bool
  deriving DecidableEq, Repr

/-- The sequencer after reset (R50). All but `SQS`: DESIGN CHOICE, unsafe (log entry 6). -/
def Seq.reset : Seq where
  st := .idle
  addr := 0
  ops := []
  i := 0
  j := 0
  pend := false

/-- The answer of the bus environment to an action (R115). `held` says whether the engine still owns the bus,
the draw of `ENG` in R117 and R118. -/
inductive EnvOutcome where
  /-- `OK`, with the received byte of a receive phase. -/
  | ok (b : Byte)
  | addrNack (held : Bool)
  | dataNack (held : Bool)
  | arbLost
  deriving DecidableEq, Repr

/-- One step of one agent (R19, R22), as the schedule of a run names it. -/
inductive Move where
  /-- HOST: a packet at a port; a register access reaches the window of instance `k`. -/
  | port (k : Nat) (p : Packet)
  /-- HOST: a register access at a byte address of its own address space, a read or, with `data`, a write (R52). -/
  | access (addr : Nat) (size : AccessSize) (data : Option Nat)
  /-- HOST: its own store of a byte into buffer memory (R53, R71). -/
  | hostStore (a : Nat) (b : Byte)
  /-- ENG: the visibility step of instance `k` (R113). -/
  | visible (k : Nat)
  /-- ENV: the completion of instance `k`'s action (R115). -/
  | complete (k : Nat) (o : EnvOutcome)
  /-- ENG: expiry of instance `k`'s timeout detector (R145). -/
  | expire (k : Nat)
  /-- EX: its next step (R137 to R141). -/
  | ex
  /-- SEQ: its next step (R160, R163). -/
  | seq
  deriving DecidableEq, Repr

/-- The whole machine. The last four fields are the model's own: they hold the inputs and the free values. DESIGN CHOICE,
safe (log entries 3, 4 and 5). -/
structure State where
  /-- The bus instances, by number; an instance not listed is as after reset. DESIGN CHOICE, safe (log entry 8). -/
  buses    : List (Nat × Bus)
  /-- Buffer memory (R53), by address, in canonical form. -/
  buf      : List Host.Cell
  /-- The executor EX. -/
  ex       : Ex
  /-- The sequencer SEQ. -/
  seq      : Seq
  /-- `OWNED`: a handle is bound (R47). -/
  owned    : Bool
  /-- `INST`: the instance bound (R47). -/
  inst     : Nat
  /-- `rsp_valid` (R48). -/
  rspValid : Bool
  /-- `rsp_code` (R48). -/
  rspCode  : Code
  /-- The output port `reg_rdata`: the word of the last host register read (R20). -/
  regRdata : Word
  /-- The classifier's output port: the code of the last CLASSIFY (R149). -/
  clsCode  : Code
  /-- The instance this step is about: the window a register access reaches, or whose engine steps. -/
  sel      : Nat
  /-- The moves of the agents to come, next first (R22). -/
  sched    : List Move
  /-- The environment's answers to the next reads of `BUSBSY` on an idle bus, next first (R38). -/
  busDraws : List Bool
  /-- How many free values have been drawn. -/
  freeCtr  : Nat
  deriving DecidableEq, Repr

/-- Why the machine stops with a fault: the ten faults of R182, each a programming error. All are the spec's own,
and safe: the access or request has no effect. -/
inductive Fault where
  /-- F1: a byte or halfword register access. Raised by the step when decoding rejects the access (R60). Safe. -/
  | subwordAccess
  /-- F2: a register offset that is no multiple of 4. Raised by the step (R61). Safe. -/
  | misalignedAccess
  /-- F3: a register offset outside the map. Raised by the step (R62). Safe. -/
  | unmappedOffset
  /-- F4: a register write with a 1 in a reserved bit. Raised by the register writes and the command strobe (R32). Safe. -/
  | reservedBitSet
  /-- F5: a command while `CR.MFE` = 0. Raised by the command strobe (R110). Safe. -/
  | masterDisabled
  /-- F6: a command while `BUSY` = 1 or `LAG` = 1. Raised by the command strobe (R110). Safe. -/
  | commandWhileBusy
  /-- F7: a command value the engine table calls ILLEGAL. Raised by the command strobe (R111). Safe. -/
  | illegalCommand
  /-- F8: a write of `SA`, `DR`, `TPR`, `CR` or `TOC` while `BUSY` = 1 or `LAG` = 1. Raised by those writes (R105 to R109). Safe. -/
  | writeWhileBusy
  /-- F9: `CR.MFE` cleared while the engine owns the bus. Raised by the write of `CR` (R108). Safe. -/
  | disableWhileOwningBus
  /-- F10: CONFIGURE with an unknown instance, frequency 0 or a divisor outside 0..127. Raised by CONFIGURE (R173, R175). Safe. -/
  | configOutOfRange
  deriving DecidableEq, Repr

/-- Why the model gives an input no meaning (`refuse` of R14). All are safe: the run ends. -/
inductive Refusal where
  /-- An instruction without a meaning yet: raised by a refused arm of exec only. Safe. -/
  | notModelled (mnemonic : String)
  /-- A host request outside its precondition on `OWNED` and `SQS`: no step (R177, U22). Raised by CONFIGURE, TRANSACTION, RELEASE. Safe. -/
  | requestNotAdmitted
  /-- A host register access to the instance bound to a handle: no step (R63, U23). Raised by the register accesses and commands. Safe. -/
  | ownedByHandle
  /-- A register access to an instance that does not exist: there is no such window (R52). Raised by the register
  accesses and commands, and by the step for an address outside every window. Safe. -/
  | noSuchInstance
  /-- An internal step taken while its rule does not enable it: there is no such step (R18). Raised by OP_WRITE, OP_READ, EXECUTE, NACK_STOP, TIMEOUT_EXPIRE. Safe. -/
  | stepNotEnabled
  /-- A host store into a buffer of an accepted transaction: no such move (R71). Raised by the step. Safe. -/
  | bufferBorrowed
  /-- A host store outside the buffer space, or a request or descriptor outside the bounds of R177. Raised by the step. Safe. -/
  | outsideBounds
  /-- Words no port can present. Raised by the step. Safe. -/
  | malformedPacket
  /-- A packet at a port the host does not drive (41_bus_cycle_executor.md: the host cannot start the executor). Raised by the step. Safe. -/
  | internalPort
  deriving DecidableEq, Repr

/-- The machine right after reset (R50, R197). `INST`, `rsp_code` and the model's own fields: DESIGN CHOICE, unsafe
(log entries 5, 6 and 17). -/
def State.reset : State where
  buses := []
  buf := []
  ex := Ex.reset
  seq := Seq.reset
  owned := false
  inst := 0
  rspValid := false
  rspCode := .ok
  regRdata := 0
  clsCode := .ok
  sel := 0
  sched := []
  busDraws := []
  freeCtr := 0

end Sys2Proof.Machine
end

