-- ==== Sys2Proof/Machine/Ops.lean ====
section
/-! DEFINITION. The named operations over the state: outcomes, sparse lists in canonical form, bus instances,
buffer memory, free values, and ending a request. -/

namespace Sys2Proof.Machine

/-- What a step or a meaning answers. -/
abbrev Out := Host.Outcome State Fault Refusal

/-- Go on from a next state; a fault or a refusal ends the access (R182). -/
def andThen (o : Out) (f : State → Out) : Out :=
  match o with
  | .next s    => f s
  | .fault r   => .fault r
  | .refused r => .refused r

/-- The next state, if there is one. -/
def nextState? (o : Out) : Option State :=
  match o with
  | .next s    => some s
  | .fault _   => none
  | .refused _ => none

/-- The fault, if there is one. -/
def faultOf? (o : Out) : Option Fault :=
  match o with
  | .next _    => none
  | .fault r   => some r
  | .refused _ => none

/-- The refusal, if there is one. -/
def refusalOf? (o : Out) : Option Refusal :=
  match o with
  | .next _    => none
  | .fault _   => none
  | .refused r => some r

/-! ## Sparse lists: pairs of a key and a value, keys rising, no entry equal to the value `d` of an unlisted key -/

/-- The value at key `a`. -/
def sparseGet {α : Type} (d : α) : List (Nat × α) → Nat → α
  | [], _          => d
  | (k, v) :: m, a => if k = a then v else sparseGet d m a

/-- The list without key `a`. -/
def sparseErase {α : Type} : List (Nat × α) → Nat → List (Nat × α)
  | [], _          => []
  | (k, v) :: m, a => if k = a then sparseErase m a else (k, v) :: sparseErase m a

/-- The list with `(a, v)` put before the first key that is not below `a`. -/
def sparseInsert {α : Type} : List (Nat × α) → Nat → α → List (Nat × α)
  | [], a, v          => [(a, v)]
  | (k, w) :: m, a, v => if a ≤ k then (a, v) :: (k, w) :: m else (k, w) :: sparseInsert m a v

/-- The list after key `a` takes the value `v`. Writing the value of an unlisted key removes the entry. -/
def sparseSet {α : Type} [DecidableEq α] (d : α) (m : List (Nat × α)) (a : Nat) (v : α) : List (Nat × α) :=
  if v = d then sparseErase m a else sparseInsert (sparseErase m a) a v

/-- The canonical form: keys strictly rising, no entry equal to `d`. -/
def sparseWf {α : Type} [DecidableEq α] (d : α) : List (Nat × α) → Bool
  | []          => true
  | (k, v) :: m => decide (v ≠ d) && m.all (fun c => decide (k < c.1)) && sparseWf d m

/-! ## Bus instances (R23, R52): an instance not listed is as after reset -/

/-- The bus instance with number `k`. -/
def State.bus (s : State) (k : Nat) : Bus := sparseGet Bus.reset s.buses k

/-- The state after instance `k` becomes `b`; no other instance changes (R52). -/
def State.setBus (s : State) (k : Nat) (b : Bus) : State :=
  { s with buses := sparseSet Bus.reset s.buses k b }

/-- The host address of a register: its instance's window and its offset (R52). -/
def regAddress (k offset : Nat) : Nat := Config.base k + offset

/-- The address lies in the window of instance `k` (R52). -/
def inWindow (addr k : Nat) : Bool :=
  decide (Config.base k ≤ addr) && decide (addr < Config.base k + Config.windowBytes)

/-- The instance whose window holds a host address, and the 12-bit offset in it (R52). -/
def windowAt (addr : Nat) : Option (Nat × Nat) :=
  match (List.range Config.nInstances).find? (inWindow addr) with
  | some k => some (k, addr - Config.base k)
  | none   => none

/-- An action is in progress: no register may be written (R203). -/
def Bus.occupied (b : Bus) : Bool := b.busy || b.lag

/-! ## Buffer memory (R53) -/

/-- What a buffer byte that nothing has written reads as. DESIGN CHOICE, unsafe (log entry 7). -/
def Memory.unlisted : Byte := 0

/-- Buffer memory is in canonical form. -/
def Memory.wf (m : List Host.Cell) : Bool := sparseWf Memory.unlisted m

/-- `MemRead(a, 1)` (R13). -/
def State.memRead (s : State) (a : Nat) : Byte := sparseGet Memory.unlisted s.buf a

/-- `MemWrite(a, 1, v)` (R13). -/
def State.memWrite (s : State) (a : Nat) (v : Byte) : State :=
  { s with buf := sparseSet Memory.unlisted s.buf a v }

/-! ## Free values (`any` and `draw` of R14) -/

/-- The next free word. -/
def State.anyWord (s : State) : Word := Config.freeWord s.freeCtr

/-- The next free byte. -/
def State.anyByte (s : State) : Byte := Config.freeByte s.freeCtr

/-- The next draw of `ENG` from {IDLE, MT, MR} (R145). -/
def State.anyEng (s : State) : Eng :=
  match (Config.freeEng s.freeCtr).val with
  | 0 => .idle
  | 1 => .mt
  | _ => .mr

/-- A free value has been drawn: the next one is another. -/
def State.drawn (s : State) : State := { s with freeCtr := s.freeCtr + 1 }

/-- The environment's next answer about an idle bus (R38): listed in the state, else free. -/
def State.busAnswer (s : State) : Bool :=
  match s.busDraws with
  | b :: _ => b
  | []     => Config.freeBusBusy s.freeCtr

/-- That answer has been used: each read of an idle bus is a fresh draw (R100). -/
def State.busAnswered (s : State) : State :=
  match s.busDraws with
  | _ :: bs => { s with busDraws := bs }
  | []      => s.drawn

/-! ## Host access to a register window, and ending a request -/

/-- A host register access reaches the window of instance `sel`. There is no such window beyond `N_INSTANCES` (R52),
and no such move on the instance bound to a handle (R47, R63): refused. DESIGN CHOICE, safe (log entry 10). -/
def hostAccess (s : State) (access : Nat → Out) : Out :=
  if s.sel < Config.nInstances then
    if s.owned && s.sel == s.inst then .refused .ownedByHandle else access s.sel
  else .refused .noSuchInstance

/-- `respond(c)` of R154. It is also all that an error does after the recovery STOP: no state is saved, no mode
changes, nothing jumps (R186), so this one operation stands where a processor takes an exception; the return from one
does not exist (R187). -/
def State.respond (s : State) (c : Code) : State :=
  { s with rspCode := c, rspValid := true, seq := { s.seq with st := .idle } }

end Sys2Proof.Machine
end

