-- ==== Sys2Proof/Machine/Flags.lean ====
section
/-! DEFINITION. Every computation over the status flags: the `STAT` snapshot a read gives (R100), the error classifier
(R149), and what acceptance, completion and expiry do to the flags (R112, R117 to R119, R145). -/

namespace Sys2Proof.Machine

/-- The seven defined fields of a `STAT` snapshot (R28, R79). -/
structure Snap where
  busy   : Bool
  error  : Bool
  adrack : Bool
  datack : Bool
  arblst : Bool
  busbsy : Bool
  clkto  : Bool
  deriving DecidableEq, Repr

/-- A snapshot as bits 7, 6, 4:0 of the `STAT` word; the reserved bits are 0 here (R79). -/
def Snap.word (n : Snap) : Word :=
  BitVec.ofNat 32 (n.busy.toNat + 2 * n.error.toNat + 4 * n.adrack.toNat + 8 * n.datack.toNat
    + 16 * n.arblst.toNat + 64 * n.busbsy.toNat + 128 * n.clkto.toNat)

/-- The defined bits of `STAT` (R79): all of 7:0 but bit 5. -/
def statMask : Word := 0xDF

/-! ## The classifier -/

/-- `CLASSIFY` on its five input bits, at the fixed priority of R149. -/
def classifyBits (clkto arblst error adrack datack : Bool) : Code :=
  if clkto then .timeout
  else if arblst then .arbitrationLoss
  else if error && adrack then .nackAddress
  else if error && datack then .nackData
  else .ok

/-- `CLASSIFY(s)` on a 32-bit snapshot: bits 7, 4, 1, 2, 3 (R149). -/
def classifyWord (w : Word) : Code :=
  classifyBits (w.getLsbD 7) (w.getLsbD 4) (w.getLsbD 1) (w.getLsbD 2) (w.getLsbD 3)

/-- `CLASSIFY` on a snapshot's fields. -/
def Snap.classify (n : Snap) : Code := classifyBits n.clkto n.arblst n.error n.adrack n.datack

/-- The 3 bits of an outcome code on a port (R91). -/
def Code.bits : Code → BitVec 3
  | .ok              => 0
  | .timeout         => 1
  | .arbitrationLoss => 2
  | .nackAddress     => 3
  | .nackData        => 4
  | .invalidArgument => 5

/-- The outcome a held NoAcknowledge stands for. -/
def NackKind.code : NackKind → Code
  | .address => .nackAddress
  | .data    => .nackData

/-! ## Reading STAT -/

/-- The engine makes `BUSBSY` read 1 (R38). -/
def Bus.holdsBus (b : Bus) : Bool := decide (b.eng ≠ .idle) || b.busy

/-- `busbsy()` of R100 on instance `k`. -/
def State.busBusy (s : State) (k : Nat) : Bool := (s.bus k).holdsBus || s.busAnswer

/-- The draw that a read of `BUSBSY` uses up, if it needs one. -/
def State.busBusyRead (s : State) (k : Nat) : State := if (s.bus k).holdsBus then s else s.busAnswered

/-- The flags outside the busy lag. -/
def Bus.snap (b : Bus) (busbsy : Bool) : Snap :=
  ⟨b.busy, b.error, b.adrack, b.datack, b.arblst, busbsy, b.clkto⟩

/-- The flags during the busy lag: any value in each but `BUSBSY` (R68). -/
def anySnap (w : Word) (busbsy : Bool) : Snap :=
  ⟨w.getLsbD 0, w.getLsbD 1, w.getLsbD 2, w.getLsbD 3, w.getLsbD 4, busbsy, w.getLsbD 7⟩

/-- The snapshot one read of `STAT` on instance `k` gives (R100). -/
def State.statSnap (s : State) (k : Nat) : Snap :=
  if (s.bus k).lag then anySnap (s.busBusyRead k).anyWord (s.busBusy k)
  else (s.bus k).snap (s.busBusy k)

/-- The state after that read: only draws are used up, no register changes (R64). -/
def State.statRead (s : State) (k : Nat) : State :=
  if (s.bus k).lag then (s.busBusyRead k).drawn else s.busBusyRead k

/-! ## Flag effects of the bus engine -/

/-- Acceptance clears the five error flags (R112). -/
def Bus.clearFlags (b : Bus) : Bus :=
  { b with error := false, adrack := false, datack := false, arblst := false, clkto := false }

/-- An address NACK (R117). -/
def Bus.flagAddrNack (b : Bus) : Bus := { b with error := true, adrack := true }

/-- A data NACK (R118). -/
def Bus.flagDataNack (b : Bus) : Bus := { b with error := true, datack := true }

/-- Arbitration loss: `ERROR`, `ADRACK`, `DATACK` take any value (R119). -/
def Bus.flagArbLost (b : Bus) (any : Word) : Bus :=
  { b with arblst := true, error := any.getLsbD 1, adrack := any.getLsbD 2, datack := any.getLsbD 3 }

/-- Timeout expiry: `ERROR`, `ADRACK`, `DATACK`, `ARBLST` take any value (R145). -/
def Bus.flagTimeout (b : Bus) (any : Word) : Bus :=
  { b with clkto := true, error := any.getLsbD 1, adrack := any.getLsbD 2, datack := any.getLsbD 3,
           arblst := any.getLsbD 4 }

end Sys2Proof.Machine
end

