-- ==== Sys2Proof/Machine/Classifier.lean ====
section
/-! DEFINITION. The error classifier mux as an instruction (R149): its output port shows the code; no register changes. -/

namespace Sys2Proof.Machine

/-- CLASSIFY(s) (R149). -/
def execClassify (snapshot : Word) (s : State) : Out := .next { s with clsCode := classifyWord snapshot }

end Sys2Proof.Machine
end

