-- ==== Sys2Proof/Machine/Engine.lean ====
section
/-! DEFINITION. The bus engine and the timeout detector of one bus instance: the command table (R111), acceptance (R112),
the phases of an action (R114), visibility (R113), completion (R115 to R119) and expiry (R145). -/

namespace Sys2Proof.Machine

/-- The verdict of the command table on one command value (R111). -/
inductive Verdict where
  | illegal
  | nop
  | action (a : Action)
  deriving DecidableEq, Repr

/-- The action of a command with `START` = 1 and `RUN` = 1: `S*` is `S` in IDLE and `Sr` in MT or MR (R111). -/
def startVerdict (eng : Eng) (rs ack stop : Bool) : Verdict :=
  let framing : Framing := if eng = .idle then .s else .sr
  match rs, stop, ack with
  | false, false, _     => .action ⟨framing, false, .tx, false, .mt⟩
  | false, true,  _     => .action ⟨framing, false, .tx, true, .idle⟩
  | true,  false, false => .action ⟨framing, true, .rxNack, false, .mr⟩
  | true,  false, true  => .action ⟨framing, true, .rxAck, false, .mr⟩
  | true,  true,  false => .action ⟨framing, true, .rxNack, true, .idle⟩
  | true,  true,  true  => .illegal

/-- The action of a command with `START` = 0 (R111): the engine's state is its direction. Its `rs` is false, DESIGN CHOICE,
safe (log entry 14). -/
def continueVerdict (eng : Eng) (ack stop run : Bool) : Verdict :=
  match eng, run, stop, ack with
  | .idle, _,     _,     _     => .nop
  | .mt,   true,  false, _     => .action ⟨.no, false, .tx, false, .mt⟩
  | .mt,   true,  true,  _     => .action ⟨.no, false, .tx, true, .idle⟩
  | .mt,   false, true,  _     => .action ⟨.no, false, .no, true, .idle⟩
  | .mt,   false, false, _     => .nop
  | .mr,   true,  false, false => .action ⟨.no, false, .rxNack, false, .mr⟩
  | .mr,   true,  false, true  => .action ⟨.no, false, .rxAck, false, .mr⟩
  | .mr,   true,  true,  false => .action ⟨.no, false, .rxNack, true, .idle⟩
  | .mr,   true,  true,  true  => .illegal
  | .mr,   false, true,  _     => .action ⟨.no, false, .no, true, .idle⟩
  | .mr,   false, false, _     => .nop

/-- `DECODE(state, rs, v)`, the command table (R111), for `v = {ACK, STOP, START, RUN}`. -/
def engDecode (eng : Eng) (rs : Bool) (v : BitVec 4) : Verdict :=
  match v.getLsbD 1, v.getLsbD 0 with
  | true,  true  => startVerdict eng rs (v.getLsbD 3) (v.getLsbD 2)
  | true,  false => .nop
  | false, run   => continueVerdict eng (v.getLsbD 3) (v.getLsbD 2) run

/-- `ACCEPT(a)` (R112). `BUSY` is not yet 1. -/
def Bus.accept (b : Bus) (a : Action) : Bus :=
  { b.clearFlags with
    act := some a
    lag := true
    toArmed := decide (b.tocCnt ≠ 0)
    toCnt := if b.tocCnt ≠ 0 then b.tocCnt.toNat * Config.toScale else b.toCnt }

/-- The visibility step (R113). -/
def Bus.becomeVisible (b : Bus) : Bus := { b with lag := false, busy := true }

/-! ## The phases of an action (R114) -/

/-- One phase on the wires; which acknowledge bit the engine drives is part of a receive phase. -/
inductive Phase where
  | start
  | repeatedStart
  | addressByte (b : Byte)
  | transmit (b : Byte)
  | receive (acknowledged : Bool)
  | stop
  deriving DecidableEq, Repr

/-- The framing phases with the address byte `{SA.ADDR, rs}`. -/
def Action.framingPhases (a : Action) (addr : BitVec 7) : List Phase :=
  let byte := Phase.addressByte (BitVec.append addr (BitVec.ofBool a.rs))
  match a.start with
  | .no => []
  | .s  => [.start, byte]
  | .sr => [.repeatedStart, byte]

/-- The data phase: a transmit phase sends `DR.DATA` as of acceptance. -/
def Action.dataPhases (a : Action) (dr : Byte) : List Phase :=
  match a.data with
  | .no     => []
  | .tx     => [.transmit dr]
  | .rxAck  => [.receive true]
  | .rxNack => [.receive false]

/-- The phases of an action accepted on instance `b`, in their order (R114). -/
def Bus.phases (b : Bus) (a : Action) : List Phase :=
  a.framingPhases b.saAddr ++ a.dataPhases b.drData ++ (if a.stop then [.stop] else [])

/-! ## Completion (R115 to R119) -/

/-- The data phase receives a byte. -/
def Action.receives (a : Action) : Bool := decide (a.data = .rxAck) || decide (a.data = .rxNack)

/-- The outcomes an action admits (R115). -/
def Action.admits (a : Action) (o : EnvOutcome) : Bool :=
  match o with
  | .ok _       => true
  | .addrNack _ => decide (a.start ≠ .no)
  | .dataNack _ => decide (a.data = .tx)
  | .arbLost    => true

/-- The action is over (the last part of R116 to R119 and R145). -/
def Bus.finish (b : Bus) (eng : Eng) : Bus :=
  { b with eng := eng, busy := false, toArmed := false, act := none }

/-- The receive buffer takes `d`, if the action has a receive phase. -/
def Bus.receive (b : Bus) (a : Action) (d : Byte) (valid : Bool) : Bus :=
  if a.receives then { b with drData := d, rxValid := valid } else b

/-- The state of the engine after an address NACK (R117). -/
def Action.heldEng (a : Action) (held : Bool) : Eng :=
  if held then (if a.rs then .mr else .mt) else .idle

/-- The instance after outcome `o` of its action `a`; `anyW` and `anyB` are the free values of R119. -/
def Bus.completed (b : Bus) (a : Action) (o : EnvOutcome) (anyW : Word) (anyB : Byte) : Bus :=
  match o with
  | .ok d          => (b.receive a d true).finish a.next
  | .addrNack held => b.flagAddrNack.finish (a.heldEng held)
  | .dataNack held => b.flagDataNack.finish (if held then .mt else .idle)
  | .arbLost       => ((b.flagArbLost anyW).receive a anyB false).finish .idle

/-- A completion step is enabled: an action is in progress and visible, and admits the outcome (R115). -/
def Bus.canComplete (b : Bus) (o : EnvOutcome) : Bool :=
  b.busy && !b.lag &&
    match b.act with
    | some a => a.admits o
    | none   => false

/-- The completion step of instance `k`; only arbitration loss draws free values. -/
def State.complete (s : State) (k : Nat) (o : EnvOutcome) : State :=
  match (s.bus k).act with
  | none   => s
  | some a =>
    let t := s.setBus k ((s.bus k).completed a o s.anyWord s.anyByte)
    if o = .arbLost then t.drawn else t

/-! ## Expiry (R145) -/

/-- The expiry step of the detector is enabled. -/
def Bus.canExpire (b : Bus) : Bool := b.toArmed && b.busy && !b.lag

/-- The instance after expiry; `anyW`, `anyB`, `eng` are the free values of R145. -/
def Bus.expired (b : Bus) (anyW : Word) (anyB : Byte) (eng : Eng) : Bus :=
  let received :=
    match b.act with
    | some a => (b.flagTimeout anyW).receive a anyB false
    | none   => b.flagTimeout anyW
  received.finish eng

/-- The expiry step of instance `k`. -/
def State.expire (s : State) (k : Nat) : State :=
  (s.setBus k ((s.bus k).expired s.anyWord s.anyByte s.anyEng)).drawn

end Sys2Proof.Machine
end

