-- ==== Sys2Proof/Machine/RegWrites.lean ====
section
/-! DEFINITION. The register writes (R105 to R110) on a given instance, as the host, the sequencer, the executor and
CONFIGURE all make them, and the six write instructions of the host. -/

namespace Sys2Proof.Machine

/-- The checks every write but `CMD` makes first, in this order: reserved bits, then an action in progress (R105 to R109). -/
def guardedWrite (k : Nat) (w defined : Word) (s : State) (f : Bus → Out) : Out :=
  if w &&& ~~~defined ≠ 0 then .fault .reservedBitSet
  else if (s.bus k).occupied then .fault .writeWhileBusy
  else f (s.bus k)

/-- Write `SA` of instance `k` (R105). -/
def writeSa (k : Nat) (w : Word) (s : State) : Out :=
  guardedWrite k w 0xFF s fun b =>
    .next (s.setBus k { b with saAddr := w.extractLsb' 1 7, saRs := w.getLsbD 0 })

/-- Write `DR` of instance `k`; it clears `RXVALID` (R106). -/
def writeDr (k : Nat) (w : Word) (s : State) : Out :=
  guardedWrite k w 0xFF s fun b =>
    .next (s.setBus k { b with drData := w.extractLsb' 0 8, rxValid := false })

/-- Write `TPR` of instance `k` (R107). -/
def writeTpr (k : Nat) (w : Word) (s : State) : Out :=
  guardedWrite k w 0x7F s fun b => .next (s.setBus k { b with tpr := w.extractLsb' 0 7 })

/-- Write `CR` of instance `k`: `MFE` is not cleared while the engine owns the bus (R108). -/
def writeCr (k : Nat) (w : Word) (s : State) : Out :=
  guardedWrite k w 0x10 s fun b =>
    if w.getLsbD 4 = false ∧ b.eng ≠ .idle then .fault .disableWhileOwningBus
    else .next (s.setBus k { b with mfe := w.getLsbD 4 })

/-- Write `TOC` of instance `k` (R109). -/
def writeToc (k : Nat) (w : Word) (s : State) : Out :=
  guardedWrite k w 0xFF s fun b => .next (s.setBus k { b with tocCnt := w.extractLsb' 0 8 })

/-- The command strobe on instance `k` (R110), its checks in the order written. -/
def writeCmd (k : Nat) (w : Word) (s : State) : Out :=
  if w &&& ~~~(0xF : Word) ≠ 0 then .fault .reservedBitSet
  else if (s.bus k).mfe = false then .fault .masterDisabled
  else if (s.bus k).occupied then .fault .commandWhileBusy
  else match engDecode (s.bus k).eng (s.bus k).saRs (w.extractLsb' 0 4) with
    | .illegal  => .fault .illegalCommand
    | .nop      => .next s
    | .action a => .next (s.setBus k ((s.bus k).accept a))

/-- WR_SA (R105). -/
def execWrSa (w : Word) (s : State) : Out := hostAccess s fun k => writeSa k w s

/-- WR_DR (R106). -/
def execWrDr (w : Word) (s : State) : Out := hostAccess s fun k => writeDr k w s

/-- WR_TPR (R107). -/
def execWrTpr (w : Word) (s : State) : Out := hostAccess s fun k => writeTpr k w s

/-- WR_CR (R108). -/
def execWrCr (w : Word) (s : State) : Out := hostAccess s fun k => writeCr k w s

/-- WR_TOC (R109). -/
def execWrToc (w : Word) (s : State) : Out := hostAccess s fun k => writeToc k w s

/-- WR_CMD (R110). -/
def execWrCmd (w : Word) (s : State) : Out := hostAccess s fun k => writeCmd k w s

end Sys2Proof.Machine
end

