-- ==== Sys2Proof/Machine/Commands.lean ====
section
/-! DEFINITION. The sixteen command values (R120 to R135): each is the command strobe with its data word fixed. -/

namespace Sys2Proof.Machine

/-- A host write of one command value (R110). -/
def hostCommand (v : Word) (s : State) : Out := hostAccess s fun k => writeCmd k v s

/-- CMD value 0x0: NOP in every state (R120). -/
def execCmdNone (s : State) : Out := hostCommand 0x0 s

/-- CMD value 0x1: transmit in MT, receive and not acknowledge in MR (R121). -/
def execCmdRun (s : State) : Out := hostCommand 0x1 s

/-- CMD value 0x2: START without RUN: NOP (R122). -/
def execCmdStart (s : State) : Out := hostCommand 0x2 s

/-- CMD value 0x3: START, then one byte; a receive is not acknowledged (R123). -/
def execCmdStartRun (s : State) : Out := hostCommand 0x3 s

/-- CMD value 0x4: STOP in MT and MR, NOP in IDLE (R124). -/
def execCmdStop (s : State) : Out := hostCommand 0x4 s

/-- CMD value 0x5: one byte, then STOP (R125). -/
def execCmdRunStop (s : State) : Out := hostCommand 0x5 s

/-- CMD value 0x6: NOP in every state (R126). -/
def execCmdStartStop (s : State) : Out := hostCommand 0x6 s

/-- CMD value 0x7: START, one byte, STOP (R127). -/
def execCmdStartRunStop (s : State) : Out := hostCommand 0x7 s

/-- CMD value 0x8: NOP in every state (R128). -/
def execCmdAck (s : State) : Out := hostCommand 0x8 s

/-- CMD value 0x9: transmit in MT, receive and acknowledge in MR (R129). -/
def execCmdAckRun (s : State) : Out := hostCommand 0x9 s

/-- CMD value 0xA: NOP in every state (R130). -/
def execCmdAckStart (s : State) : Out := hostCommand 0xA s

/-- CMD value 0xB: START, then one byte; a receive is acknowledged (R131). -/
def execCmdAckStartRun (s : State) : Out := hostCommand 0xB s

/-- CMD value 0xC: as CMD_STOP (R132). -/
def execCmdAckStop (s : State) : Out := hostCommand 0xC s

/-- CMD value 0xD: transmit and STOP in MT, ILLEGAL in MR (R133). -/
def execCmdAckRunStop (s : State) : Out := hostCommand 0xD s

/-- CMD value 0xE: NOP in every state (R134). -/
def execCmdAckStartStop (s : State) : Out := hostCommand 0xE s

/-- CMD value 0xF: START, transmit, STOP; ILLEGAL with `SA.RS` = 1 (R135). -/
def execCmdAckStartRunStop (s : State) : Out := hostCommand 0xF s

end Sys2Proof.Machine
end

