-- ==== Sys2Proof/Machine/Executor.lean ====
section
/-! DEFINITION. The bus-cycle executor EX (R136 to R142), one step of its FSM at a time on the bound instance, and the
timeout detector's expiry as an instruction (R145). -/

namespace Sys2Proof.Machine

/-- EX ends its cycle with the result `c`, `ok` for Ok (R139 to R141). -/
def State.exReturn (s : State) (c : Code) : State :=
  { s with ex := { s.ex with st := .idle, req := none, result := some c } }

/-- EX goes to the state `st`. -/
def State.exGoto (s : State) (st : Exs) : State := { s with ex := { s.ex with st := st } }

/-- The recovery STOP starts: the outcome is held, `CMD <- 0x4`, `EXS <- EX_NSTOP_SETTLE` (R141), in the step that saw the
NoAcknowledge. DEDUCED, unsafe for a claim that counts steps (log entry 12). -/
def startNackStop (e : NackKind) (s : State) : Out :=
  andThen (writeCmd s.inst 0x4 { s with ex := { s.ex with err := e } }) fun t => .next (t.exGoto .nstopSettle)

/-- Start step (R137). -/
def exStart (cmd : Word) (wc : WaitCond) (s : State) : Out :=
  andThen (writeCmd s.inst cmd { s with ex := { s.ex with wc := wc } }) fun t => .next (t.exGoto .settle)

/-- Settle step: the unit is held in place until `LAG` = 0 (R138). DEDUCED, unsafe where the lag exceeds the delay (log entry 15). -/
def exSettle (s : State) : Out := if (s.bus s.inst).lag then .next s else .next (s.exGoto .poll)

/-- What EX does with a classified snapshot (R139, R140): a NoAcknowledge starts the recovery STOP, another error is
returned, and without an error `good` decides. -/
def exClassified (c : Code) (good : State) (s : State) : Out :=
  match c with
  | .nackAddress => startNackStop .address s
  | .nackData    => startNackStop .data s
  | .ok          => .next good
  | e            => .next (s.exReturn e)

/-- Busy-poll step (R139). -/
def exPoll (s : State) : Out :=
  if (s.statSnap s.inst).busy then .next (s.statRead s.inst)
  else exClassified (s.statSnap s.inst).classify
    (match s.ex.wc with
      | .busbsyClear => (s.statRead s.inst).exGoto .waitc
      | .always      => (s.statRead s.inst).exReturn .ok)
    (s.statRead s.inst)

/-- Wait-condition step: classified first, then the predicate (R140). -/
def exWait (s : State) : Out :=
  exClassified (s.statSnap s.inst).classify
    (if (s.statSnap s.inst).busbsy then s.statRead s.inst else (s.statRead s.inst).exReturn .ok)
    (s.statRead s.inst)

/-- Settle step of the recovery STOP (R141). -/
def nackStopSettle (s : State) : Out := if (s.bus s.inst).lag then .next s else .next (s.exGoto .nstopPoll)

/-- Poll step of the recovery STOP: its outcome is not classified (R141). -/
def nackStopPoll (s : State) : Out :=
  if (s.statSnap s.inst).busy then .next (s.statRead s.inst)
  else .next ((s.statRead s.inst).exReturn s.ex.err.code)

/-- EXECUTE(cmd, wc): its next step. It starts when SEQ requests this cycle (R137) and goes on until it returns
(R138 to R140). -/
def execExecute (cmd : Word) (wc : WaitCond) (s : State) : Out :=
  if s.ex.req = some (cmd, wc) then
    match s.ex.st with
    | .idle        => exStart cmd wc s
    | .settle      => exSettle s
    | .poll        => exPoll s
    | .waitc       => exWait s
    | .nstopSettle => .refused .stepNotEnabled
    | .nstopPoll   => .refused .stepNotEnabled
  else .refused .stepNotEnabled

/-- NACK_STOP: its next step (R141). From the poll and the wait loop it starts; then it settles and polls. -/
def execNackStop (s : State) : Out :=
  match s.ex.st with
  | .poll        => startNackStop s.ex.err s
  | .waitc       => startNackStop s.ex.err s
  | .nstopSettle => nackStopSettle s
  | .nstopPoll   => nackStopPoll s
  | .idle        => .refused .stepNotEnabled
  | .settle      => .refused .stepNotEnabled

/-- TIMEOUT_EXPIRE on the instance the step is about (R145). No such step exists while the detector is unarmed (R146). -/
def execTimeoutExpire (s : State) : Out :=
  if (s.bus s.sel).canExpire then .next (s.expire s.sel) else .refused .stepNotEnabled

end Sys2Proof.Machine
end

