-- ==== Sys2Proof/Machine/Operands.lean ====
section
/-! DEFINITION. Operand assembly (R82 to R85), the divisor (R174), the attributes of a byte of a transaction (R157)
and the command it is issued with (R159); the pseudo-instructions of R98. -/

namespace Sys2Proof.Machine

/-! ## Register operands -/

/-- Direction bit of the address byte: 1 is read (R25). -/
def dirBit : Dir → Bool
  | .write => false
  | .read  => true

/-- The address byte `{a, d}` (R57, R82). -/
def addrByte (a : BitVec 7) (rs : Bool) : Byte := BitVec.append a (BitVec.ofBool rs)

/-- `SA <- zext_32({a, d})` (R82). -/
def addrWord (a : BitVec 7) (rs : Bool) : Word := (addrByte a rs).setWidth 32

/-- The command word `zext_32({ack, stop, start, run})` (R83). -/
def cmdWord (ack stop start run : Bool) : Word :=
  BitVec.ofNat 32 (8 * ack.toNat + 4 * stop.toNat + 2 * start.toNat + run.toNat)

/-- `DR <- zext_32(b)` (R84). -/
def dataWord (b : Byte) : Word := b.setWidth 32

/-- `TPR <- zext_32(t[6:0])` (R85). -/
def tprWord (t : Nat) : Word := BitVec.ofNat 32 (t % 128)

/-- `TOC <- zext_32(TIMEOUT_INIT[7:0])` (R85). -/
def tocWord : Word := Config.timeoutInit.setWidth 32

/-- `TPR_OF(S, F)`: the divisor, rounded half up, on unbounded integers (R174). -/
def tprOf (sysclk freq : Nat) : Int := ((2 * sysclk + 20 * freq) / (40 * freq) : Nat) - 1

/-! ## The byte at position (i, j) of a transaction (R157) -/

/-- The operation after operation `i` has another direction, or there is none. -/
def runEndsAfter (ops : List Desc) (i : Nat) (d : Dir) : Bool :=
  match ops[i + 1]? with
  | some nxt => decide (nxt.dir ≠ d)
  | none     => true

/-- The operation before operation `i` has another direction, or there is none. -/
def runStartsAt (ops : List Desc) (i : Nat) (d : Dir) : Bool :=
  match i with
  | 0     => true
  | k + 1 =>
    match ops[k]? with
    | some prv => decide (prv.dir ≠ d)
    | none     => true

/-- `first_of_run` (R157). -/
def firstOfRun (ops : List Desc) (i j : Nat) (d : Dir) : Bool := decide (j = 0) && runStartsAt ops i d

/-- `last_of_run` (R157). -/
def lastOfRun (ops : List Desc) (i j len : Nat) (d : Dir) : Bool := decide (j + 1 = len) && runEndsAfter ops i d

/-- `last_global` (R157). -/
def lastGlobal (ops : List Desc) (i j len : Nat) : Bool := decide (j + 1 = len) && decide (i + 1 = ops.length)

/-! ## The command of a byte (R159) -/

/-- `ackbit` of R159: both policies agree where `lr = g`. -/
def ackBit (p : Config.AckPolicy) (lr g : Bool) : Bool :=
  if lr = g then !lr
  else match p with
    | .suppress  => !lr
    | .assertAck => !g

/-- `CMDSEL(d, f, lr, g)` (R159). -/
def cmdSel (p : Config.AckPolicy) (d : Dir) (f lr g : Bool) : Word :=
  match d with
  | .write => cmdWord false g f true
  | .read  => cmdWord (ackBit p lr g) g f true

/-- The command of the byte at `(i, j)`, with `SQ_PEND` as its `first_of_run` (R160). -/
def cmdAt (p : Config.AckPolicy) (ops : List Desc) (i j len : Nat) (d : Dir) (pend : Bool) : Word :=
  cmdSel p d pend (lastOfRun ops i j len d) (lastGlobal ops i j len)

/-- The wait condition of the byte at `(i, j)` (R165). -/
def waitAt (ops : List Desc) (i j len : Nat) : WaitCond :=
  if lastGlobal ops i j len then .busbsyClear else .always

/-! ## Pseudo-instructions (R98); the bytes of a Write stand in buffer memory -/

/-- `SETADDR a, W` or `SETADDR a, R`. -/
def pseudoSetAddr (a : BitVec 7) (d : Dir) : Instr := .wrSa (addrWord a (dirBit d))

/-- `WRITE a, …`: the bytes at `base`. -/
def pseudoWrite (a : BitVec 7) (len base : Nat) : Instr := .transaction a [⟨.write, len, base⟩]

/-- `READ a, n`: into `base`. -/
def pseudoRead (a : BitVec 7) (n base : Nat) : Instr := .transaction a [⟨.read, n, base⟩]

/-- `WRITE_READ a, (…), n`. -/
def pseudoWriteRead (a : BitVec 7) (len wbase n rbase : Nat) : Instr :=
  .transaction a [⟨.write, len, wbase⟩, ⟨.read, n, rbase⟩]

end Sys2Proof.Machine
end

