-- ==== Sys2Proof/Machine/Handle.lean ====
section
/-! DEFINITION. CONFIGURE and RELEASE (R173 to R176), and RESET (R197). -/

namespace Sys2Proof.Machine

/-- A divisor fits the 7-bit field (R175). -/
def divisorInRange (t : Int) : Bool := decide (0 ≤ t) && decide (t ≤ 127)

/-- The end of CONFIGURE: the handle is bound and the response given (R173). -/
def State.bindHandle (s : State) : State :=
  { s with owned := true, rspCode := .ok, rspValid := true }

/-- CONFIGURE(inst, sysclk, freq) (R173): instance and frequency, then the divisor, then the register writes in the
order master enable, divisor, budget. -/
def execConfigure (inst sysclk freq : Nat) (s : State) : Out :=
  if s.owned = false ∧ s.seq.st = .idle then
    if inst ≥ Config.nInstances ∨ freq = 0 then .fault .configOutOfRange
    else if divisorInRange (tprOf sysclk freq) = false then .fault .configOutOfRange
    else
      andThen (writeCr inst 0x10 { s with rspValid := false, inst := inst }) fun t =>
        andThen (writeTpr inst (tprWord (tprOf sysclk freq).toNat) t) fun u =>
          andThen (writeToc inst tocWord u) fun v => .next v.bindHandle
  else .refused .requestNotAdmitted

/-- RELEASE (R176): no register access; `INST` is returned as the bus instance. -/
def execRelease (s : State) : Out :=
  if s.owned = true ∧ s.seq.st = .idle then
    .next { s with owned := false, rspCode := .ok, rspValid := true }
  else .refused .requestNotAdmitted

/-- RESET (R197): every instance, EX, SEQ, the handle and the response as after reset. Buffer memory is not part of
I2CM, the output ports keep their last word, and the inputs to come stay. DESIGN CHOICE, unsafe (log entries 6, 7, 17). -/
def execReset (s : State) : Out :=
  .next { State.reset with
    buf := s.buf, regRdata := s.regRdata, clsCode := s.clsCode, sel := s.sel,
    sched := s.sched, busDraws := s.busDraws, freeCtr := s.freeCtr }

end Sys2Proof.Machine
end

