-- ==== Sys2Proof/Machine/RegReads.lean ====
section
/-! DEFINITION. The register reads (R99 to R104). A read has no side effect on any register (R64). -/

namespace Sys2Proof.Machine

/-- A read whose defined bits are those of `mask`: the reserved bits are any value (R32). -/
def State.readDefined (s : State) (mask value : Word) : State :=
  { s.drawn with regRdata := (value &&& mask) ||| (s.anyWord &&& ~~~mask) }

/-- RD_SA: `{any_24, SA.ADDR, SA.RS}` (R99). -/
def execRdSa (s : State) : Out :=
  hostAccess s fun k =>
    .next (s.readDefined 0xFF ((BitVec.append (s.bus k).saAddr (BitVec.ofBool (s.bus k).saRs)).setWidth 32))

/-- RD_STAT (R100). -/
def execRdStat (s : State) : Out :=
  hostAccess s fun k => .next ((s.statRead k).readDefined statMask (s.statSnap k).word)

/-- RD_DR: the received byte only after a completed receive and outside an action, else any value (R101). -/
def execRdDr (s : State) : Out :=
  hostAccess s fun k =>
    .next (s.readDefined (if !(s.bus k).occupied && (s.bus k).rxValid then 0xFF else 0) ((s.bus k).drData.setWidth 32))

/-- RD_TPR: `{any_25, TPR.TPR}` (R102). -/
def execRdTpr (s : State) : Out :=
  hostAccess s fun k => .next (s.readDefined 0x7F ((s.bus k).tpr.setWidth 32))

/-- RD_CR: `{any_27, CR.MFE, any_4}` (R103). -/
def execRdCr (s : State) : Out :=
  hostAccess s fun k => .next (s.readDefined 0x10 (if (s.bus k).mfe then 0x10 else 0))

/-- RD_TOC: `{any_24, TOC.CNT}` (R104). -/
def execRdToc (s : State) : Out :=
  hostAccess s fun k => .next (s.readDefined 0xFF ((s.bus k).tocCnt.setWidth 32))

end Sys2Proof.Machine
end

