-- ==== Sys2Proof/Machine/Sequencer.lean ====
section
/-! DEFINITION. The transaction sequencer SEQ: acceptance (R154 to R156), the issue of one byte (R160 to R162) and its
completion (R163). -/

namespace Sys2Proof.Machine

/-- TRANSACTION(addr, ops), the acceptance step (R154). -/
def execTransaction (addr : BitVec 7) (ops : List Desc) (s : State) : Out :=
  if s.owned = true ∧ s.seq.st = .idle then
    let latched := { s with rspValid := false, seq := { s.seq with addr := addr, ops := ops } }
    if ops.isEmpty then .next (latched.respond .ok)
    else if ops.any (fun d => d.len == 0) then .next (latched.respond .invalidArgument)
    else .next { latched with seq := { latched.seq with st := .issue, i := 0, j := 0, pend := true } }
  else .refused .requestNotAdmitted

/-- The issue step is enabled, and the position names a byte of the descriptor `d` (R49, R160). -/
def State.canIssue (s : State) (d : Desc) : Bool :=
  decide (s.seq.st = .issue) && decide (s.ex.st = .idle) && decide (s.seq.ops[s.seq.i]? = some d) && decide (s.seq.j < d.len)

/-- The end of the issue step: the cycle is requested of EX, and SEQ waits (R160). -/
def State.requestCycle (s : State) (d : Desc) : State :=
  { s with
    ex := { s.ex with
      req := some (cmdAt Config.ackBeforeRestart s.seq.ops s.seq.i s.seq.j d.len d.dir s.seq.pend,
        waitAt s.seq.ops s.seq.i s.seq.j d.len)
      result := none }
    seq := { s.seq with st := .wait } }

/-- `if SQ_PEND = 1 then SA <- zext_32({SQ_ADDR, d})` (R161, R162). -/
def issueAddress (d : Dir) (s : State) : Out :=
  if s.seq.pend then writeSa s.inst (addrWord s.seq.addr (dirBit d)) s else .next s

/-- OP_WRITE: the byte goes to `DR`, then the address to `SA` if a START is pending, then the cycle is requested (R161). -/
def execOpWrite (len base : Nat) (s : State) : Out :=
  if s.canIssue ⟨.write, len, base⟩ then
    andThen (writeDr s.inst (dataWord (s.memRead (base + s.seq.j))) s) fun t =>
      andThen (issueAddress .write t) fun u => .next (u.requestCycle ⟨.write, len, base⟩)
  else .refused .stepNotEnabled

/-- OP_READ: the address goes to `SA` if a START is pending, then the cycle is requested (R162). -/
def execOpRead (len base : Nat) (s : State) : Out :=
  if s.canIssue ⟨.read, len, base⟩ then
    andThen (issueAddress .read s) fun u => .next (u.requestCycle ⟨.read, len, base⟩)
  else .refused .stepNotEnabled

/-- The byte SEQ reads from `DR` of instance `k`, by the rule of RD_DR (R101). -/
def State.receivedByte (s : State) (k : Nat) : Byte :=
  if !(s.bus k).occupied && (s.bus k).rxValid then (s.bus k).drData else s.anyByte

/-- The state after that read: a draw is used up where the byte is any value. -/
def State.receivedRead (s : State) (k : Nat) : State :=
  if !(s.bus k).occupied && (s.bus k).rxValid then s else s.drawn

/-- A Read byte is stored where its descriptor says (R162, R163). -/
def State.storeReceived (s : State) (d : Desc) : State :=
  match d.dir with
  | .write => s
  | .read  => (s.receivedRead s.inst).memWrite (d.base + s.seq.j) (s.receivedByte s.inst)

/-- The position after `(i, j)` in an operation of length `len` (R49). -/
def nextPosition (i j len : Nat) : Nat × Nat := if j + 1 < len then (i, j + 1) else (i + 1, 0)

/-- The sequencer goes on to the next byte, or ends with Ok after the last (R163). -/
def State.advance (s : State) (d : Desc) : State :=
  let p := nextPosition s.seq.i s.seq.j d.len
  match s.seq.ops[p.1]? with
  | none   => { s with seq := { s.seq with i := p.1, j := p.2 } }.respond .ok
  | some n =>
    { s with seq := { s.seq with
        i := p.1, j := p.2, pend := decide (p.2 = 0) && decide (n.dir ≠ d.dir), st := .issue } }

/-- SEQ takes the result EX has returned. -/
def State.takeResult (s : State) : State := { s with ex := { s.ex with result := none } }

/-- Completion step of SEQ on the result `r` (R163): an error ends the transaction (R167). A position outside the
list, which no run reaches (R49), is held. DESIGN CHOICE, safe (log entry 16). -/
def seqComplete (r : Code) (s : State) : State :=
  match r with
  | .ok =>
    match s.seq.ops[s.seq.i]? with
    | some d => (s.takeResult.storeReceived d).advance d
    | none   => s
  | e => s.takeResult.respond e

end Sys2Proof.Machine
end

