-- ==== Sys2Proof/Machine/Dispatch.lean ====
section
/-! DEFINITION. The meaning of every instruction: one arm per constructor. -/

namespace Sys2Proof.Machine

def exec (i : Instr) (s : State) : Host.Outcome State Fault Refusal :=
  match i with
  | .rdSa => Sys2Proof.Machine.execRdSa s
  | .rdStat => Sys2Proof.Machine.execRdStat s
  | .rdDr => Sys2Proof.Machine.execRdDr s
  | .rdTpr => Sys2Proof.Machine.execRdTpr s
  | .rdCr => Sys2Proof.Machine.execRdCr s
  | .rdToc => Sys2Proof.Machine.execRdToc s
  | .wrSa w => Sys2Proof.Machine.execWrSa w s
  | .wrDr w => Sys2Proof.Machine.execWrDr w s
  | .wrTpr w => Sys2Proof.Machine.execWrTpr w s
  | .wrCr w => Sys2Proof.Machine.execWrCr w s
  | .wrToc w => Sys2Proof.Machine.execWrToc w s
  | .wrCmd w => Sys2Proof.Machine.execWrCmd w s
  | .cmdNone => Sys2Proof.Machine.execCmdNone s
  | .cmdRun => Sys2Proof.Machine.execCmdRun s
  | .cmdStart => Sys2Proof.Machine.execCmdStart s
  | .cmdStartRun => Sys2Proof.Machine.execCmdStartRun s
  | .cmdStop => Sys2Proof.Machine.execCmdStop s
  | .cmdRunStop => Sys2Proof.Machine.execCmdRunStop s
  | .cmdStartStop => Sys2Proof.Machine.execCmdStartStop s
  | .cmdStartRunStop => Sys2Proof.Machine.execCmdStartRunStop s
  | .cmdAck => Sys2Proof.Machine.execCmdAck s
  | .cmdAckRun => Sys2Proof.Machine.execCmdAckRun s
  | .cmdAckStart => Sys2Proof.Machine.execCmdAckStart s
  | .cmdAckStartRun => Sys2Proof.Machine.execCmdAckStartRun s
  | .cmdAckStop => Sys2Proof.Machine.execCmdAckStop s
  | .cmdAckRunStop => Sys2Proof.Machine.execCmdAckRunStop s
  | .cmdAckStartStop => Sys2Proof.Machine.execCmdAckStartStop s
  | .cmdAckStartRunStop => Sys2Proof.Machine.execCmdAckStartRunStop s
  | .configure inst sysclk freq => Sys2Proof.Machine.execConfigure inst sysclk freq s
  | .transaction addr ops => Sys2Proof.Machine.execTransaction addr ops s
  | .release => Sys2Proof.Machine.execRelease s
  | .opWrite len base => Sys2Proof.Machine.execOpWrite len base s
  | .opRead len base => Sys2Proof.Machine.execOpRead len base s
  | .execute cmd wc => Sys2Proof.Machine.execExecute cmd wc s
  | .nackStop => Sys2Proof.Machine.execNackStop s
  | .classify snapshot => Sys2Proof.Machine.execClassify snapshot s
  | .timeoutExpire => Sys2Proof.Machine.execTimeoutExpire s
  | .reset => Sys2Proof.Machine.execReset s

end Sys2Proof.Machine
end

