-- ==== Sys2Proof/Machine/Agents.lean ====
section
/-! DEFINITION. The agents and their scheduling (R19, R22, R211): what each agent fetches, what each move does, what goes
on when the schedule names no move, and where the machine's next instruction is placed. -/

namespace Sys2Proof.Machine

/-- What the step answers to a packet that is no instruction (R60 to R62, R89, R177). A port at rest, `req_op` = 0 or
`rst` = 0, asks for nothing, and nothing changes (R92, R197). A command word presented by itself is an access to `CMD`, so
one with a reserved bit faults only where the access reaches its instance, exactly as WR_CMD does: ownership is checked before
the rule of the access (preamble of 40_register_interface.md). That the bare word is such an access is a DESIGN CHOICE,
safe (log entries 1 and 10). -/
def rejected (e : DecodeError) (s : State) : Out :=
  match e with
  | .subwordAccess       => .fault .subwordAccess
  | .misalignedAccess    => .fault .misalignedAccess
  | .unmappedOffset      => .fault .unmappedOffset
  | .reservedCommandBits => hostAccess s fun _ => .fault .reservedBitSet
  | .reservedCycleBits   => .fault .reservedBitSet
  | .atRest              => .next s
  | .outsideBounds       => .refused .outsideBounds
  | .malformed           => .refused .malformedPacket

/-- Decode a packet and run its instruction. -/
def runPacket (p : Packet) (s : State) : Out :=
  match decode p with
  | .ok i    => exec i s
  | .error e => rejected e s

/-- The ports driven from outside the sequencer, executor and detector. -/
def Port.external : Port → Bool
  | .regWord | .regHalf | .regByte | .cmdWord | .request | .classifier | .rst => true
  | .descriptor | .executor | .recovery | .detector => false

/-! ## What the internal agents fetch -/

/-- The packet of EX's next step: the recovery STOP while it runs, else the cycle SEQ requests, if any. -/
def State.fetchEx (s : State) : Option Packet :=
  match s.ex.st with
  | .nstopSettle => some ⟨.recovery, [4]⟩
  | .nstopPoll   => some ⟨.recovery, [4]⟩
  | _ =>
    match s.ex.req with
    | some (cmd, wc) => some ⟨.executor, [cmd.toNat, wc.code]⟩
    | none           => none

/-- The instruction a descriptor is issued with: `dir` names it (R90, R160). -/
def issueInstr (d : Desc) : Instr :=
  match d.dir with
  | .write => .opWrite d.len d.base
  | .read  => .opRead d.len d.base

/-- The instruction of SEQ's issue step: that of the latched descriptor its position names (R49, R160). -/
def State.fetchSeq (s : State) : Option Instr :=
  if s.seq.st = .issue ∧ s.ex.st = .idle then (s.seq.ops[s.seq.i]?).map issueInstr else none

/-! ## The moves: an agent whose step is not enabled is held in place (R14) -/

/-- EX's next step (R137 to R141). -/
def exMove (s : State) : Out :=
  match s.fetchEx with
  | some p => runPacket p s
  | none   => .next s

/-- SEQ's next step: issue (R160) or completion (R163). -/
def seqMove (s : State) : Out :=
  match s.fetchSeq with
  | some i => exec i s
  | none   =>
    match s.seq.st, s.ex.result with
    | .wait, some r => .next (seqComplete r s)
    | _,     _      => .next s

/-- ENG's visibility step on instance `k` (R113). -/
def visibleMove (k : Nat) (s : State) : Out :=
  if (s.bus k).lag then .next (s.setBus k (s.bus k).becomeVisible) else .next s

/-- ENV's completion step on instance `k` (R115). -/
def completeMove (k : Nat) (o : EnvOutcome) (s : State) : Out :=
  if (s.bus k).canComplete o then .next (s.complete k o) else .next s

/-- The detector's expiry step on instance `k` (R145). -/
def expireMove (k : Nat) (s : State) : Out :=
  if (s.bus k).canExpire then runPacket ⟨.detector, []⟩ { s with sel := k } else .next s

/-- The address lies in a buffer of the transaction in progress (R71). -/
def State.borrowed (s : State) (a : Nat) : Bool :=
  decide (s.seq.st ≠ .idle) && s.seq.ops.any (fun d => decide (d.base ≤ a) && decide (a < d.base + d.len))

/-- The host's own store into buffer memory (R53, R71). -/
def hostStoreMove (a : Nat) (b : Byte) (s : State) : Out :=
  if fitsWidth a Config.bufAw = false then .refused .outsideBounds
  else if s.borrowed a then .refused .bufferBorrowed
  else .next (s.memWrite a b)

/-- A packet at a port, with a register access reaching instance `k`. -/
def portMove (k : Nat) (p : Packet) (s : State) : Out :=
  if Port.external p.port then runPacket p { s with sel := k } else .refused .internalPort

/-- A register access at a host address reaches the window that holds it (R52). -/
def accessMove (addr : Nat) (size : AccessSize) (data : Option Nat) (s : State) : Out :=
  match windowAt addr with
  | some (k, offset) => portMove k (accessPacket size offset data) s
  | none             => .refused .noSuchInstance

/-- One scheduled move (R22). -/
def runMove (m : Move) (s : State) : Out :=
  match m with
  | .port k p      => portMove k p s
  | .access a z d  => accessMove a z d s
  | .hostStore a b => hostStoreMove a b s
  | .visible k     => visibleMove k s
  | .complete k o  => completeMove k o s
  | .expire k      => expireMove k s
  | .ex            => exMove s
  | .seq           => seqMove s

/-! ## When the schedule names no move: the fair steps go on (R211) -/

/-- The first listed instance with property `f`. -/
def firstBus (f : Bus → Bool) : List (Nat × Bus) → Option Nat
  | []          => none
  | (k, b) :: m => if f b then some k else firstBus f m

/-- An enabled fair step: visibility, then expiry, then EX, then SEQ. Neither the host nor the environment is assumed
to move, so with none enabled the machine stays as it is. The order is a DESIGN CHOICE, unsafe for a claim about a run with
an empty schedule (log entry 3). -/
def fairStep (s : State) : Out :=
  match firstBus Bus.lag s.buses with
  | some k => visibleMove k s
  | none =>
    match firstBus Bus.canExpire s.buses with
    | some k => expireMove k s
    | none =>
      match s.fetchEx with
      | some p => runPacket p s
      | none   => seqMove s

/-- One step of the machine. -/
def agentStep (s : State) : Out :=
  match s.sched with
  | m :: rest => runMove m { s with sched := rest }
  | []        => fairStep s

/-! ## Placing the next instruction -/

/-- A descriptor of a table word: its direction bit, with operand words zero. -/
def descOfWords : List Nat → Desc
  | [d, len, base] => ⟨if d = 1 then .read else .write, len, base⟩
  | _              => ⟨.write, 0, 0⟩

/-- The state whose next step runs the packet. A descriptor is what the sequencer's position names, so it becomes the
operation list of a transaction about to issue its first byte with EX idle; the detector steps by itself, so it is armed on
an action that is visible; every other packet is presented at its port. DESIGN CHOICE, safe (log entries 2 and 16). -/
def State.withPacket (s : State) (p : Packet) : State :=
  match p.port with
  | .descriptor =>
    { s with ex := { s.ex with st := .idle },
             seq := { s.seq with st := .issue, ops := [descOfWords p.words], i := 0, j := 0, pend := true },
             sched := .seq :: s.sched }
  | .detector =>
    { s.setBus s.sel { s.bus s.sel with toArmed := true, busy := true, lag := false } with
      sched := .expire s.sel :: s.sched }
  | _         => { s with sched := .port s.sel p :: s.sched }

end Sys2Proof.Machine
end

