-- ==== Sys2Proof/Machine/Step.lean ====
section
/-! DEFINITION. One step of the machine, and placing an opcode-table word where the next step fetches. -/

namespace Sys2Proof.Machine

/-- One step: the next scheduled move of an agent (R22), or a fair step where none is scheduled (R211). -/
def step : State → Host.Outcome State Fault Refusal := fun s => agentStep s

/-- The state whose very next step runs the instruction of an opcode-table word. -/
def State.withFetchWord (s : State) (nbits w : Nat) : State :=
  match tablePacket nbits w with
  | some p => s.withPacket p
  | none   => s

end Sys2Proof.Machine
end

