-- ==== Sys2Proof/Safety.lean ====
section
/-! DEFINITION. The terms claims are stated in: when the host reaches a register, what holds of every bus instance, how
the sequencer and the executor stand to each other (R168), and the commands of a whole transaction (R172). -/

namespace Sys2Proof.Machine

/-- The host's register access reaches instance `k`: the window exists and no handle binds it (R52, R63). -/
def State.HostReaches (s : State) (k : Nat) : Prop :=
  s.sel = k ∧ k < Config.nInstances ∧ ¬(s.owned = true ∧ s.inst = k)

/-- The outcome the classifier reads from an instance's flags. -/
def Bus.outcome (b : Bus) : Code := classifyBits b.clkto b.arblst b.error b.adrack b.datack

/-- What holds of a bus instance in every run: an action is in progress exactly while `LAG` or `BUSY` is 1 and never
while both are, the detector is armed only then, the flags are 0 meanwhile, and a disabled master owns no bus. -/
structure Bus.Sound (b : Bus) : Prop where
  lag_excludes_busy : b.lag = true → b.busy = false
  act_while_occupied : b.act.isSome = b.occupied
  armed_while_acting : b.toArmed = true → b.act.isSome = true
  clear_while_acting : b.act.isSome = true →
    b.error = false ∧ b.adrack = false ∧ b.datack = false ∧ b.arblst = false ∧ b.clkto = false
  acting_enabled : b.act.isSome = true → b.mfe = true
  owning_enabled : b.eng ≠ .idle → b.mfe = true

/-- Both sparse lists are in canonical form and every bus instance is sound. -/
structure State.Sound (s : State) : Prop where
  buses_wf : sparseWf Bus.reset s.buses = true
  buf_wf : Memory.wf s.buf = true
  bus_sound : ∀ k, (s.bus k).Sound

/-- The engine state in which bytes of direction `d` go on without a START. -/
def engOf : Dir → Eng
  | .write => .mt
  | .read  => .mr

/-- The engine state after the byte at `(i, j)` completes with `OK`. -/
def engAfter (ops : List Desc) (i j : Nat) (d : Desc) : Eng :=
  if lastGlobal ops i j d.len then .idle else engOf d.dir

/-- The cycle of the byte at the sequencer's position, as R160 requests it. -/
def State.cycleOf (s : State) (d : Desc) : Word × WaitCond :=
  (cmdAt Config.ackBeforeRestart s.seq.ops s.seq.i s.seq.j d.len d.dir s.seq.pend,
    waitAt s.seq.ops s.seq.i s.seq.j d.len)

/-- The byte's cycle went well: the engine is where the next byte needs it, and a received byte is valid. -/
def State.byteDone (s : State) (d : Desc) : Prop :=
  (s.bus s.inst).eng = engAfter s.seq.ops s.seq.i s.seq.j d ∧ (d.dir = .read → (s.bus s.inst).rxValid = true)

/-- While EX runs the byte's cycle: its action is in progress, or it is over and went well unless the flags say otherwise. -/
def State.cycleGoesOn (s : State) (d : Desc) : Prop :=
  match (s.bus s.inst).act with
  | some a => a.next = engAfter s.seq.ops s.seq.i s.seq.j d ∧ (d.dir = .read → a.receives = true)
  | none   => (s.bus s.inst).outcome = .ok → s.byteDone d

/-- The relation of EX to a waiting sequencer, by EX's state. -/
def State.exFollows (s : State) (d : Desc) : Prop :=
  match s.ex.st with
  | .idle =>
    (s.bus s.inst).act = none ∧
    ((s.ex.req = some (s.cycleOf d) ∧ s.ex.result = none ∧
        (s.seq.pend = false → (s.bus s.inst).eng = engOf d.dir) ∧
        (s.seq.pend = true → (s.bus s.inst).saRs = dirBit d.dir)) ∨
      (s.ex.req = none ∧ ∃ r, s.ex.result = some r ∧ (r = .ok → s.byteDone d)))
  | .settle      => s.ex.req = some (s.cycleOf d) ∧ s.ex.wc = (s.cycleOf d).2 ∧ s.ex.result = none ∧ s.cycleGoesOn d
  | .poll        =>
    s.ex.req = some (s.cycleOf d) ∧ s.ex.wc = (s.cycleOf d).2 ∧ s.ex.result = none ∧ s.cycleGoesOn d ∧
      (s.bus s.inst).lag = false
  | .waitc       =>
    s.ex.req = some (s.cycleOf d) ∧ s.ex.result = none ∧ (s.bus s.inst).act = none ∧
      (s.bus s.inst).outcome = .ok ∧ s.byteDone d
  | .nstopSettle => s.ex.req = some (s.cycleOf d) ∧ s.ex.result = none
  | .nstopPoll   => s.ex.req = some (s.cycleOf d) ∧ s.ex.result = none ∧ (s.bus s.inst).lag = false

/-- EX rests: no cycle is requested and no result waits. -/
def State.exRests (s : State) : Prop := s.ex.st = .idle ∧ s.ex.req = none ∧ s.ex.result = none

/-- The position names a byte of an operation, and `SQ_PEND` is its `first_of_run` (R49, R158). -/
def State.atByte (s : State) (d : Desc) : Prop :=
  s.seq.ops[s.seq.i]? = some d ∧ s.seq.j < d.len ∧ s.seq.pend = firstOfRun s.seq.ops s.seq.i s.seq.j d.dir

/-- How SEQ, EX and the bound instance stand to each other in every run (R63, R168). -/
structure State.Ordered (s : State) : Prop where
  bound : s.owned = true → s.inst < Config.nInstances ∧ (s.bus s.inst).mfe = true
  idle_rests : s.seq.st = .idle → s.exRests ∧ (s.owned = true → (s.bus s.inst).act = none)
  active_owned : s.seq.st ≠ .idle → s.owned = true
  active_ops : s.seq.st ≠ .idle → ∀ d ∈ s.seq.ops, 0 < d.len
  active_byte : s.seq.st ≠ .idle → ∃ d, s.atByte d
  issue_ready : ∀ d, s.seq.st = .issue → s.atByte d →
    s.exRests ∧ (s.bus s.inst).act = none ∧ (s.seq.pend = false → (s.bus s.inst).eng = engOf d.dir)
  wait_follows : ∀ d, s.seq.st = .wait → s.atByte d → s.exFollows d

/-- The move is one of the controller or its environment, not the host's. -/
def Move.isHost : Move → Bool
  | .port _ _      => true
  | .access _ _ _  => true
  | .hostStore _ _ => true
  | .visible _ | .complete _ _ | .expire _ | .ex | .seq => false

/-! ## The commands of a whole transaction (R157, R172) -/

/-- The commands of the operations `ds`, which stand from index `i` on in `ops`. -/
def planFrom (p : Config.AckPolicy) (ops : List Desc) : Nat → List Desc → List Word
  | _, []      => []
  | i, d :: ds =>
    (List.range d.len).map (fun j => cmdAt p ops i j d.len d.dir (firstOfRun ops i j d.dir)) ++ planFrom p ops (i + 1) ds

/-- The commands of a transaction, in order. -/
def plan (p : Config.AckPolicy) (ops : List Desc) : List Word := planFrom p ops 0 ops

/-- The number of runs: maximal stretches of operations of one direction (R157). -/
def runCount : List Desc → Nat
  | []           => 0
  | [_]          => 1
  | a :: b :: ds => (if a.dir = b.dir then 0 else 1) + runCount (b :: ds)

end Sys2Proof.Machine
end

