-- ==== Sys2Proof/Certificates/Slice0/Obligations.lean ====
section
/-! DEFINITION. The statements about I2CM, one `def Obligations.<Name> : Prop` each. -/

open Sys2Proof Sys2Proof.Machine

/-! ## Encoding -/

/-- Decoding the packet of a well-formed instruction gives it back, with every operand (30_encoding.md). -/
def Obligations.DecodeUndoesEncode : Prop :=
  ∀ i : Instr, i.wellFormed = true → decode (encode i) = .ok i

/-- A packet that decodes is the packet of the instruction it decodes to, and that instruction is well formed:
every packet has one meaning, and no bit of it is dropped (30_encoding.md). -/
def Obligations.EncodeUndoesDecode : Prop :=
  ∀ (p : Packet) (i : Instr), decode p = .ok i → encode i = p ∧ i.wellFormed = true

/-- Thirteen packets, with the words the spec gives their formats, decode to the instructions they stand for, and a command
word with a reserved bit is rejected (R87 to R92, R141, R149, R197). Ports and word lists are the model's choice, and so is
the code 1 of `busbsy_clear` in the executor's packet, since R136 calls EXECUTE's encoding internal (log entry 1). -/
def Obligations.SpecWordsDecode : Prop :=
  decode ⟨.regWord, [0x0004]⟩ = .ok .rdStat ∧
  decode ⟨.regWord, [0x0024]⟩ = .ok .rdToc ∧
  decode ⟨.regWord, [0x1020, 0x10]⟩ = .ok (.wrCr 0x10) ∧
  decode ⟨.regWord, [0x1008, 0xAB]⟩ = .ok (.wrDr 0xAB) ∧
  decode ⟨.regWord, [0x1004, 0x07]⟩ = .ok (.wrCmd 0x07) ∧
  decode ⟨.cmdWord, [0xB]⟩ = .ok .cmdAckStartRun ∧
  decode ⟨.cmdWord, [0x10]⟩ = .error .reservedCommandBits ∧
  decode ⟨.request, [1, 0, 16000000, 100000]⟩ = .ok (.configure 0 16000000 100000) ∧
  decode ⟨.request, [2, 0x50]⟩ = .ok (.transaction 0x50 []) ∧
  decode ⟨.request, [3]⟩ = .ok .release ∧
  decode ⟨.executor, [0x07, 1]⟩ = .ok (.execute 0x07 .busbsyClear) ∧
  decode ⟨.recovery, [0x04]⟩ = .ok .nackStop ∧
  decode ⟨.classifier, [0x16]⟩ = .ok (.classify 0x16) ∧
  decode ⟨.rst, [1]⟩ = .ok .reset

/-- A byte or halfword access, a misaligned offset and an unmapped offset fault by name, in that order, for a read and
for a write, at every instance and in every state (R60, R61, R62). -/
def Obligations.RejectedAccessesFault : Prop :=
  ∀ (s : State) (k : Nat) (rest : List Move),
    (∀ ws, s.sched = .port k ⟨.regByte, ws⟩ :: rest ∨ s.sched = .port k ⟨.regHalf, ws⟩ :: rest →
      step s = .fault .subwordAccess) ∧
    (∀ offset data, offset < 0x1000 → data < 2 ^ 32 →
      s.sched = .port k ⟨.regWord, [offset]⟩ :: rest ∨ s.sched = .port k ⟨.regWord, [0x1000 + offset, data]⟩ :: rest →
      (offset % 4 ≠ 0 → step s = .fault .misalignedAccess) ∧
      (offset % 4 = 0 → offset ∉ [0x000, 0x004, 0x008, 0x00C, 0x020, 0x024] → step s = .fault .unmappedOffset))

/-! ## One step -/

/-- When the host presents a packet that decodes, the step is exec of its instruction, with the move taken from the
schedule and the addressed instance selected; and a word of the opcode table that the host presents at a port, placed
where the step fetches, is what the next step runs, in the state as it was. An access at offset
`offset` of an instance's window, by its host address, is that access at the register port, and an address outside every
window reaches nothing (R52). A port at rest (`req_op` = 0 or `rst` = 0) changes nothing but the instance the step is about
(R92, R197). Ports, schedule, placing and the refusal are the model's choice (log entries 1, 2, 3 and 10). -/
def Obligations.StepRunsPresentedInstruction : Prop :=
  (∀ (s : State) (k : Nat) (p : Packet) (rest : List Move) (i : Instr),
    s.sched = .port k p :: rest → Port.external p.port = true → decode p = .ok i →
    step s = exec i { s with sched := rest, sel := k }) ∧
  (∀ (s : State) (nbits w : Nat) (p : Packet) (i : Instr),
    tablePacket nbits w = some p → Port.external p.port = true → decode p = .ok i →
    step (s.withFetchWord nbits w) = exec i s) ∧
  (∀ (s : State) (addr : Nat) (size : AccessSize) (data : Option Nat) (rest : List Move),
    s.sched = .access addr size data :: rest →
    (∀ k offset, k < Config.nInstances → offset < Config.windowBytes → addr = Config.base k + offset →
      step s = step { s with sched := .port k (accessPacket size offset data) :: rest }) ∧
    ((∀ k, k < Config.nInstances → addr < Config.base k ∨ Config.base k + Config.windowBytes ≤ addr) →
      step s = .refused .noSuchInstance)) ∧
  ∀ (s : State) (k : Nat) (rest : List Move),
    s.sched = .port k ⟨.request, [0]⟩ :: rest ∨ s.sched = .port k ⟨.rst, [0]⟩ :: rest →
    step s = .next { s with sched := rest, sel := k }

/-- The internal agents run decoded instructions too: SEQ the descriptor at its position, EX the cycle SEQ requests or
the recovery STOP, an armed detector its expiry (log entries 2, 3 and 12). -/
def Obligations.StepRunsInternalInstruction : Prop :=
  ∀ (s : State) (rest : List Move),
    (∀ d i, s.sched = .seq :: rest → s.seq.st = .issue → s.ex.st = .idle → s.seq.ops[s.seq.i]? = some d →
      decode ⟨.descriptor, d.words⟩ = .ok i → step s = exec i { s with sched := rest }) ∧
    (∀ cmd wc, s.sched = .ex :: rest → s.ex.req = some (cmd, wc) → cmd.toNat < 16 →
      s.ex.st ≠ .nstopSettle → s.ex.st ≠ .nstopPoll → step s = exec (.execute cmd wc) { s with sched := rest }) ∧
    (s.sched = .ex :: rest → s.ex.st = .nstopSettle ∨ s.ex.st = .nstopPoll →
      step s = exec .nackStop { s with sched := rest }) ∧
    (∀ k, s.sched = .expire k :: rest → (s.bus k).canExpire = true →
      step s = exec .timeoutExpire { s with sched := rest, sel := k })

/-- A scheduled step that its rule does not enable is not taken: the unit is held in place (R14). For the environment:
an outcome its action does not admit (R115) is no step. The schedule is the model's choice (log entry 3). -/
def Obligations.DisabledStepsAreHeld : Prop :=
  ∀ (s : State) (rest : List Move) (k : Nat),
    (s.sched = .visible k :: rest → (s.bus k).lag = false → step s = .next { s with sched := rest }) ∧
    (∀ o, s.sched = .complete k o :: rest →
      ((s.bus k).busy = false ∨ (s.bus k).lag = true ∨ (∀ a, (s.bus k).act = some a → a.admits o = false)) →
      step s = .next { s with sched := rest }) ∧
    (s.sched = .expire k :: rest →
      ((s.bus k).toArmed = false ∨ (s.bus k).busy = false ∨ (s.bus k).lag = true) →
      step s = .next { s with sched := rest }) ∧
    (s.sched = .ex :: rest → s.ex.st = .idle → s.ex.req = none → step s = .next { s with sched := rest }) ∧
    (s.sched = .seq :: rest → s.seq.st = .idle → step s = .next { s with sched := rest }) ∧
    (s.sched = .seq :: rest → s.seq.st = .wait → s.ex.result = none → step s = .next { s with sched := rest })

/-- With no move scheduled, an enabled fair step is taken: a visibility step if one is enabled, else an expiry, else a
step of EX, else one of SEQ; the order is the model's choice (log entry 3), that such a step is taken is R211. -/
def Obligations.FairStepsGoOn : Prop :=
  ∀ s : State, s.sched = [] → s.Sound →
    (∀ k, (s.bus k).lag = true →
      ∃ m, (s.bus m).lag = true ∧ step s = .next (s.setBus m (s.bus m).becomeVisible)) ∧
    ((∀ k, (s.bus k).lag = false) → ∀ k, (s.bus k).canExpire = true →
      ∃ m, (s.bus m).canExpire = true ∧ step s = .next ({ s with sel := m }.expire m)) ∧
    ((∀ k, (s.bus k).lag = false ∧ (s.bus k).canExpire = false) → ∀ p, s.fetchEx = some p → step s = runPacket p s) ∧
    ((∀ k, (s.bus k).lag = false ∧ (s.bus k).canExpire = false) → s.fetchEx = none → step s = seqMove s)

/-! ## Register reads -/

/-- RD_SA, RD_TPR, RD_CR and RD_TOC show the register in its defined bits; nothing else of the machine changes but the
read port and the count of free values, the model's own field of log entry 5 (R99, R102, R103, R104). -/
def Obligations.RegisterReadsShowTheRegister : Prop :=
  ∀ (s : State) (k : Nat), s.HostReaches k →
    (∃ v, exec .rdSa s = .next { s with regRdata := v, freeCtr := s.freeCtr + 1 } ∧
      v.extractLsb' 1 7 = (s.bus k).saAddr ∧ v.getLsbD 0 = (s.bus k).saRs) ∧
    (∃ v, exec .rdTpr s = .next { s with regRdata := v, freeCtr := s.freeCtr + 1 } ∧
      v.extractLsb' 0 7 = (s.bus k).tpr) ∧
    (∃ v, exec .rdCr s = .next { s with regRdata := v, freeCtr := s.freeCtr + 1 } ∧ v.getLsbD 4 = (s.bus k).mfe) ∧
    (∃ v, exec .rdToc s = .next { s with regRdata := v, freeCtr := s.freeCtr + 1 } ∧
      v.extractLsb' 0 8 = (s.bus k).tocCnt)

/-- RD_STAT: outside the busy lag every flag is the stored one; `BUSBSY` is 1 while the engine owns the bus or is busy,
and the environment's answer otherwise, also during the lag (R100). That the answers stand in `busDraws` is the model's choice
(log entry 4). -/
def Obligations.StatusReadShowsFlags : Prop :=
  ∀ (s : State) (k : Nat), s.HostReaches k →
    ∃ t, exec .rdStat s = .next t ∧
      ((s.bus k).lag = false →
        t.regRdata.getLsbD 0 = (s.bus k).busy ∧ t.regRdata.getLsbD 1 = (s.bus k).error ∧
        t.regRdata.getLsbD 2 = (s.bus k).adrack ∧ t.regRdata.getLsbD 3 = (s.bus k).datack ∧
        t.regRdata.getLsbD 4 = (s.bus k).arblst ∧ t.regRdata.getLsbD 7 = (s.bus k).clkto) ∧
      ((s.bus k).eng ≠ .idle ∨ (s.bus k).busy = true → t.regRdata.getLsbD 6 = true) ∧
      ((s.bus k).eng = .idle → (s.bus k).busy = false → ∀ a l, s.busDraws = a :: l →
        t.regRdata.getLsbD 6 = a ∧ t.busDraws = l)

/-- RD_DR shows the received byte when the last change of `DATA` was a completed receive and no action runs; nothing is
consumed (R101). The count of free values is the model's own field (log entry 5). -/
def Obligations.DataReadShowsReceivedByte : Prop :=
  ∀ (s : State) (k : Nat), s.HostReaches k →
    ∃ v, exec .rdDr s = .next { s with regRdata := v, freeCtr := s.freeCtr + 1 } ∧
      ((s.bus k).busy = false → (s.bus k).lag = false → (s.bus k).rxValid = true →
        v.extractLsb' 0 8 = (s.bus k).drData)

/-- Frame of the six register reads: no register, flag, engine, detector, sequencer, executor, handle or response state
changes, and every byte of buffer memory reads as before (R64). -/
def Obligations.ReadsChangeNoState : Prop :=
  ∀ i ∈ [Instr.rdSa, .rdStat, .rdDr, .rdTpr, .rdCr, .rdToc], ∀ s t : State, exec i s = .next t →
    t.buses = s.buses ∧ t.ex = s.ex ∧ t.seq = s.seq ∧ t.owned = s.owned ∧ t.inst = s.inst ∧
    t.rspValid = s.rspValid ∧ t.rspCode = s.rspCode ∧ t.clsCode = s.clsCode ∧ t.sel = s.sel ∧ t.sched = s.sched ∧
    ∀ a, t.memRead a = s.memRead a

/-! ## Register writes -/

/-- WR_SA and WR_DR (R105, R106): the reserved bits are checked first, then an action in progress; else the fields are
stored, and a write of `DR` clears `RXVALID`. -/
def Obligations.OperandWrites : Prop :=
  ∀ (s : State) (k : Nat) (w : Word), s.HostReaches k →
    (256 ≤ w.toNat → exec (.wrSa w) s = .fault .reservedBitSet ∧ exec (.wrDr w) s = .fault .reservedBitSet) ∧
    (w.toNat < 256 → (s.bus k).busy = true ∨ (s.bus k).lag = true →
      exec (.wrSa w) s = .fault .writeWhileBusy ∧ exec (.wrDr w) s = .fault .writeWhileBusy) ∧
    (w.toNat < 256 → (s.bus k).busy = false → (s.bus k).lag = false →
      exec (.wrSa w) s =
        .next (s.setBus k { s.bus k with saAddr := w.extractLsb' 1 7, saRs := w.getLsbD 0 }) ∧
      exec (.wrDr w) s = .next (s.setBus k { s.bus k with drData := w.extractLsb' 0 8, rxValid := false }))

/-- WR_TPR and WR_TOC (R107, R109): reserved bits from bit 7 and from bit 8 on, then an action in progress, else the
field is stored. -/
def Obligations.TimingWrites : Prop :=
  ∀ (s : State) (k : Nat) (w : Word), s.HostReaches k →
    (128 ≤ w.toNat → exec (.wrTpr w) s = .fault .reservedBitSet) ∧
    (256 ≤ w.toNat → exec (.wrToc w) s = .fault .reservedBitSet) ∧
    ((s.bus k).busy = true ∨ (s.bus k).lag = true →
      (w.toNat < 128 → exec (.wrTpr w) s = .fault .writeWhileBusy) ∧
      (w.toNat < 256 → exec (.wrToc w) s = .fault .writeWhileBusy)) ∧
    ((s.bus k).busy = false → (s.bus k).lag = false →
      (w.toNat < 128 → exec (.wrTpr w) s = .next (s.setBus k { s.bus k with tpr := w.extractLsb' 0 7 })) ∧
      (w.toNat < 256 → exec (.wrToc w) s = .next (s.setBus k { s.bus k with tocCnt := w.extractLsb' 0 8 })))

/-- WR_CR (R108): master mode is not cleared while the engine owns the bus. -/
def Obligations.ControlWrite : Prop :=
  ∀ (s : State) (k : Nat) (w : Word), s.HostReaches k →
    (w ≠ 0 → w ≠ 0x10 → exec (.wrCr w) s = .fault .reservedBitSet) ∧
    (w = 0 ∨ w = 0x10 → (s.bus k).busy = true ∨ (s.bus k).lag = true → exec (.wrCr w) s = .fault .writeWhileBusy) ∧
    ((s.bus k).busy = false → (s.bus k).lag = false →
      exec (.wrCr 0x10) s = .next (s.setBus k { s.bus k with mfe := true }) ∧
      ((s.bus k).eng ≠ .idle → exec (.wrCr 0) s = .fault .disableWhileOwningBus) ∧
      ((s.bus k).eng = .idle → exec (.wrCr 0) s = .next (s.setBus k { s.bus k with mfe := false })))

/-! ## The command strobe and the bus engine -/

/-- WR_CMD (R110): reserved bits, then master mode, then an action in progress, then the command table; a NOP changes
nothing and an action is accepted. -/
def Obligations.CommandStrobe : Prop :=
  ∀ (s : State) (k : Nat) (w : Word), s.HostReaches k →
    (16 ≤ w.toNat → exec (.wrCmd w) s = .fault .reservedBitSet) ∧
    (w.toNat < 16 → (s.bus k).mfe = false → exec (.wrCmd w) s = .fault .masterDisabled) ∧
    (w.toNat < 16 → (s.bus k).mfe = true → (s.bus k).busy = true ∨ (s.bus k).lag = true →
      exec (.wrCmd w) s = .fault .commandWhileBusy) ∧
    (w.toNat < 16 → (s.bus k).mfe = true → (s.bus k).busy = false → (s.bus k).lag = false →
      match engDecode (s.bus k).eng (s.bus k).saRs (w.extractLsb' 0 4) with
      | .illegal  => exec (.wrCmd w) s = .fault .illegalCommand
      | .nop      => exec (.wrCmd w) s = .next s
      | .action a => exec (.wrCmd w) s = .next (s.setBus k ((s.bus k).accept a)))

/-- `DECODE`, row by row of the command table (R111), with `S*` a START in IDLE and a repeated START in MT and MR; the
table gives no `rs` to an action without START, so any `r` will do there. -/
def Obligations.CommandTable : Prop :=
  ∀ (eng : Eng) (rs ack stop start run : Bool) (v : BitVec 4) (framing : Framing),
    v.getLsbD 3 = ack → v.getLsbD 2 = stop → v.getLsbD 1 = start → v.getLsbD 0 = run →
    framing = (if eng = .idle then .s else .sr) →
    (start ∧ run ∧ ¬stop ∧ ¬rs → engDecode eng rs v = .action ⟨framing, false, .tx, false, .mt⟩) ∧
    (start ∧ run ∧ stop ∧ ¬rs → engDecode eng rs v = .action ⟨framing, false, .tx, true, .idle⟩) ∧
    (start ∧ run ∧ ¬stop ∧ ¬ack ∧ rs → engDecode eng rs v = .action ⟨framing, true, .rxNack, false, .mr⟩) ∧
    (start ∧ run ∧ ¬stop ∧ ack ∧ rs → engDecode eng rs v = .action ⟨framing, true, .rxAck, false, .mr⟩) ∧
    (start ∧ run ∧ stop ∧ ¬ack ∧ rs → engDecode eng rs v = .action ⟨framing, true, .rxNack, true, .idle⟩) ∧
    (start ∧ run ∧ stop ∧ ack ∧ rs → engDecode eng rs v = .illegal) ∧
    (start ∧ ¬run → engDecode eng rs v = .nop) ∧
    (eng = .idle ∧ ¬start → engDecode eng rs v = .nop) ∧
    (eng = .mt ∧ ¬start ∧ run ∧ ¬stop → ∃ r, engDecode eng rs v = .action ⟨.no, r, .tx, false, .mt⟩) ∧
    (eng = .mt ∧ ¬start ∧ run ∧ stop → ∃ r, engDecode eng rs v = .action ⟨.no, r, .tx, true, .idle⟩) ∧
    (eng = .mt ∧ ¬start ∧ ¬run ∧ stop → ∃ r, engDecode eng rs v = .action ⟨.no, r, .no, true, .idle⟩) ∧
    (eng = .mt ∧ ¬start ∧ ¬run ∧ ¬stop → engDecode eng rs v = .nop) ∧
    (eng = .mr ∧ ¬start ∧ run ∧ ¬stop ∧ ¬ack → ∃ r, engDecode eng rs v = .action ⟨.no, r, .rxNack, false, .mr⟩) ∧
    (eng = .mr ∧ ¬start ∧ run ∧ ¬stop ∧ ack → ∃ r, engDecode eng rs v = .action ⟨.no, r, .rxAck, false, .mr⟩) ∧
    (eng = .mr ∧ ¬start ∧ run ∧ stop ∧ ¬ack → ∃ r, engDecode eng rs v = .action ⟨.no, r, .rxNack, true, .idle⟩) ∧
    (eng = .mr ∧ ¬start ∧ run ∧ stop ∧ ack → engDecode eng rs v = .illegal) ∧
    (eng = .mr ∧ ¬start ∧ ¬run ∧ stop → ∃ r, engDecode eng rs v = .action ⟨.no, r, .no, true, .idle⟩) ∧
    (eng = .mr ∧ ¬start ∧ ¬run ∧ ¬stop → engDecode eng rs v = .nop)

/-- Exactly two command cases fault as illegal, and every other combination is a NOP, which changes nothing, or an action,
which is accepted (R94). -/
def Obligations.IllegalCommandsExactly : Prop :=
  ∀ (s : State) (k : Nat) (v : BitVec 4), s.HostReaches k →
    (s.bus k).mfe = true → (s.bus k).busy = false → (s.bus k).lag = false →
    (exec (.wrCmd (v.setWidth 32)) s = .fault .illegalCommand ↔
      (v = 0xF ∧ (s.bus k).saRs = true) ∨ (v = 0xD ∧ (s.bus k).eng = .mr)) ∧
    (¬((v = 0xF ∧ (s.bus k).saRs = true) ∨ (v = 0xD ∧ (s.bus k).eng = .mr)) →
      (engDecode (s.bus k).eng (s.bus k).saRs v = .nop ∧ exec (.wrCmd (v.setWidth 32)) s = .next s) ∨
      ∃ a, engDecode (s.bus k).eng (s.bus k).saRs v = .action a ∧
        exec (.wrCmd (v.setWidth 32)) s = .next (s.setBus k ((s.bus k).accept a)))

/-- `ACCEPT(a)` (R112): the action and the lag are set, the five flags cleared, the detector armed exactly when the
budget is not 0; nothing else of the instance changes, `BUSY` included. The visibility step then ends the lag and sets
`BUSY` (R113). -/
def Obligations.AcceptanceThenVisibility : Prop :=
  (∀ (b : Bus) (a : Action),
    (b.tocCnt ≠ 0 → b.accept a =
      { b with act := some a, lag := true, error := false, adrack := false, datack := false, arblst := false,
               clkto := false, toArmed := true, toCnt := b.tocCnt.toNat * Config.toScale }) ∧
    (b.tocCnt = 0 → b.accept a =
      { b with act := some a, lag := true, error := false, adrack := false, datack := false, arblst := false,
               clkto := false, toArmed := false })) ∧
  ∀ (s : State) (k : Nat) (rest : List Move), s.sched = .visible k :: rest → (s.bus k).lag = true →
    step s = .next ({ s with sched := rest }.setBus k { s.bus k with lag := false, busy := true })

/-- The six command values that are a NOP in every engine state change nothing (R120, R122, R126, R128, R130, R134). -/
def Obligations.NopCommandsChangeNothing : Prop :=
  ∀ (s : State) (k : Nat), s.HostReaches k →
    (s.bus k).mfe = true → (s.bus k).busy = false → (s.bus k).lag = false →
    exec .cmdNone s = .next s ∧ exec .cmdStart s = .next s ∧ exec .cmdStartStop s = .next s ∧
    exec .cmdAck s = .next s ∧ exec .cmdAckStart s = .next s ∧ exec .cmdAckStartStop s = .next s

/-- CMD_RUN, CMD_STOP, CMD_RUN_STOP, CMD_ACK_RUN and CMD_ACK_STOP, the commands without START, by engine state
(R121, R124, R125, R129, R132). -/
def Obligations.ContinueCommands : Prop :=
  ∀ (s : State) (k : Nat), s.HostReaches k →
    (s.bus k).mfe = true → (s.bus k).busy = false → (s.bus k).lag = false →
    ((s.bus k).eng = .idle →
      exec .cmdRun s = .next s ∧ exec .cmdStop s = .next s ∧ exec .cmdRunStop s = .next s ∧
      exec .cmdAckRun s = .next s ∧ exec .cmdAckStop s = .next s) ∧
    ((s.bus k).eng = .mt →
      (∃ r, exec .cmdRun s = .next (s.setBus k ((s.bus k).accept ⟨.no, r, .tx, false, .mt⟩))) ∧
      (∃ r, exec .cmdRunStop s = .next (s.setBus k ((s.bus k).accept ⟨.no, r, .tx, true, .idle⟩))) ∧
      (∃ r, exec .cmdAckRun s = .next (s.setBus k ((s.bus k).accept ⟨.no, r, .tx, false, .mt⟩)))) ∧
    ((s.bus k).eng = .mr →
      (∃ r, exec .cmdRun s = .next (s.setBus k ((s.bus k).accept ⟨.no, r, .rxNack, false, .mr⟩))) ∧
      (∃ r, exec .cmdRunStop s = .next (s.setBus k ((s.bus k).accept ⟨.no, r, .rxNack, true, .idle⟩))) ∧
      (∃ r, exec .cmdAckRun s = .next (s.setBus k ((s.bus k).accept ⟨.no, r, .rxAck, false, .mr⟩)))) ∧
    ((s.bus k).eng ≠ .idle →
      (∃ r, exec .cmdStop s = .next (s.setBus k ((s.bus k).accept ⟨.no, r, .no, true, .idle⟩))) ∧
      (∃ r, exec .cmdAckStop s = .next (s.setBus k ((s.bus k).accept ⟨.no, r, .no, true, .idle⟩))))

/-- CMD_START_RUN, CMD_START_RUN_STOP and CMD_ACK_START_RUN: the direction is `SA.RS`, and the START is a repeated one
while the engine owns the bus (R123, R127, R131). -/
def Obligations.StartCommands : Prop :=
  ∀ (s : State) (k : Nat), s.HostReaches k →
    (s.bus k).mfe = true → (s.bus k).busy = false → (s.bus k).lag = false →
    ∀ framing : Framing, framing = (if (s.bus k).eng = .idle then .s else .sr) →
    ((s.bus k).saRs = false →
      exec .cmdStartRun s = .next (s.setBus k ((s.bus k).accept ⟨framing, false, .tx, false, .mt⟩)) ∧
      exec .cmdStartRunStop s = .next (s.setBus k ((s.bus k).accept ⟨framing, false, .tx, true, .idle⟩)) ∧
      exec .cmdAckStartRun s = .next (s.setBus k ((s.bus k).accept ⟨framing, false, .tx, false, .mt⟩))) ∧
    ((s.bus k).saRs = true →
      exec .cmdStartRun s = .next (s.setBus k ((s.bus k).accept ⟨framing, true, .rxNack, false, .mr⟩)) ∧
      exec .cmdStartRunStop s = .next (s.setBus k ((s.bus k).accept ⟨framing, true, .rxNack, true, .idle⟩)) ∧
      exec .cmdAckStartRun s = .next (s.setBus k ((s.bus k).accept ⟨framing, true, .rxAck, false, .mr⟩)))

/-- CMD_ACK_RUN_STOP and CMD_ACK_START_RUN_STOP: illegal where they would acknowledge a received byte and stop
(R133, R135). -/
def Obligations.AckStopByteCommands : Prop :=
  ∀ (s : State) (k : Nat), s.HostReaches k →
    (s.bus k).mfe = true → (s.bus k).busy = false → (s.bus k).lag = false →
    ((s.bus k).eng = .idle → exec .cmdAckRunStop s = .next s) ∧
    ((s.bus k).eng = .mt →
      ∃ r, exec .cmdAckRunStop s = .next (s.setBus k ((s.bus k).accept ⟨.no, r, .tx, true, .idle⟩))) ∧
    ((s.bus k).eng = .mr → exec .cmdAckRunStop s = .fault .illegalCommand) ∧
    ((s.bus k).saRs = false →
      exec .cmdAckStartRunStop s = .next (s.setBus k ((s.bus k).accept
        ⟨if (s.bus k).eng = .idle then .s else .sr, false, .tx, true, .idle⟩))) ∧
    ((s.bus k).saRs = true → exec .cmdAckStartRunStop s = .fault .illegalCommand)

/-- Frame of the commands: one instance changes, and of it only `ACT`, `LAG`, the five flags and the detector; every
register, the engine state and `BUSY` are as before. -/
def Obligations.CommandsTouchOneEngine : Prop :=
  ∀ (w : Word) (s t : State), exec (.wrCmd w) s = .next t →
    t = { s with buses := t.buses } ∧ (∀ k, k ≠ s.sel → t.bus k = s.bus k) ∧
    (t.bus s.sel).mfe = (s.bus s.sel).mfe ∧ (t.bus s.sel).saAddr = (s.bus s.sel).saAddr ∧
    (t.bus s.sel).saRs = (s.bus s.sel).saRs ∧ (t.bus s.sel).drData = (s.bus s.sel).drData ∧
    (t.bus s.sel).rxValid = (s.bus s.sel).rxValid ∧ (t.bus s.sel).tpr = (s.bus s.sel).tpr ∧
    (t.bus s.sel).tocCnt = (s.bus s.sel).tocCnt ∧ (t.bus s.sel).eng = (s.bus s.sel).eng ∧
    (t.bus s.sel).busy = (s.bus s.sel).busy

/-- Completion `OK` (R116): a receive phase delivers its byte, the engine goes where the action says, the flags stay 0. -/
def Obligations.CompletionOk : Prop :=
  ∀ (s : State) (k : Nat) (d : Byte) (rest : List Move) (a : Action),
    s.sched = .complete k (.ok d) :: rest →
    (s.bus k).busy = true → (s.bus k).lag = false → (s.bus k).act = some a → (s.bus k).Sound →
    ∃ t, step s = .next t ∧
      (a.data = .rxAck ∨ a.data = .rxNack →
        t = { s with sched := rest }.setBus k { s.bus k with
          drData := d, rxValid := true, eng := a.next, busy := false, toArmed := false, act := none }) ∧
      (a.data = .tx ∨ a.data = .no →
        t = { s with sched := rest }.setBus k { s.bus k with
          eng := a.next, busy := false, toArmed := false, act := none }) ∧
      (t.bus k).error = false ∧ (t.bus k).adrack = false ∧ (t.bus k).datack = false ∧
      (t.bus k).arblst = false ∧ (t.bus k).clkto = false

/-- Completions `ADDR_NACK` (R117) and `DATA_NACK` (R118): the flags, and the engine idle or still owning the bus, as the
environment draws; `DR` and `RXVALID` are as before. -/
def Obligations.CompletionNack : Prop :=
  ∀ (s : State) (k : Nat) (held : Bool) (rest : List Move) (a : Action),
    (s.bus k).busy = true → (s.bus k).lag = false → (s.bus k).act = some a →
    (s.sched = .complete k (.addrNack held) :: rest → a.start ≠ .no →
      step s = .next ({ s with sched := rest }.setBus k { s.bus k with
        error := true, adrack := true, eng := if held then (if a.rs then .mr else .mt) else .idle,
        busy := false, toArmed := false, act := none })) ∧
    (s.sched = .complete k (.dataNack held) :: rest → a.data = .tx →
      step s = .next ({ s with sched := rest }.setBus k { s.bus k with
        error := true, datack := true, eng := if held then .mt else .idle,
        busy := false, toArmed := false, act := none }))

/-- Completion `ARB_LOST` (R119): the engine has lost the bus; three flags and a receive byte are any value. The count of free
values is the model's own field (log entry 5). -/
def Obligations.CompletionArbitrationLost : Prop :=
  ∀ (s : State) (k : Nat) (rest : List Move) (a : Action),
    s.sched = .complete k .arbLost :: rest →
    (s.bus k).busy = true → (s.bus k).lag = false → (s.bus k).act = some a →
    ∃ (e1 e2 e3 : Bool) (d : Byte),
      step s = .next ({ s with sched := rest, freeCtr := s.freeCtr + 1 }.setBus k { s.bus k with
        arblst := true, error := e1, adrack := e2, datack := e3, eng := .idle,
        drData := if a.receives then d else (s.bus k).drData,
        rxValid := if a.receives then false else (s.bus k).rxValid,
        busy := false, toArmed := false, act := none })

/-- TIMEOUT_EXPIRE while enabled (R145): `CLKTO` is set, the action is over, the other error flags, the engine state and
a receive byte are any value. The count of free values is the model's own field (log entry 5). -/
def Obligations.TimeoutExpiry : Prop :=
  ∀ (s : State) (a : Action),
    (s.bus s.sel).toArmed = true → (s.bus s.sel).busy = true → (s.bus s.sel).lag = false →
    (s.bus s.sel).act = some a →
    ∃ (e1 e2 e3 e4 : Bool) (d : Byte) (eng : Eng),
      exec .timeoutExpire s = .next ({ s with freeCtr := s.freeCtr + 1 }.setBus s.sel { s.bus s.sel with
        clkto := true, error := e1, adrack := e2, datack := e3, arblst := e4, eng := eng,
        drData := if a.receives then d else (s.bus s.sel).drData,
        rxValid := if a.receives then false else (s.bus s.sel).rxValid,
        busy := false, toArmed := false, act := none })

/-- An action accepted with a budget of 0 has no expiry step: the detector stays unarmed through its visibility, and
TIMEOUT_EXPIRE on it is no step, which the model answers with a refusal of its own (log entry 13); every other budget arms
the detector, so that the visible action can expire, and the budget CONFIGURE writes is never 0 (R146). -/
def Obligations.OnlyZeroBudgetIsUnbounded : Prop :=
  (∀ (b : Bus) (a : Action), b.tocCnt = 0 →
    (b.accept a).canExpire = false ∧ (b.accept a).becomeVisible.canExpire = false ∧
    ∀ s : State, s.bus s.sel = (b.accept a).becomeVisible → exec .timeoutExpire s = .refused .stepNotEnabled) ∧
  Config.timeoutInit ≠ 0 ∧
  ∀ (b : Bus) (a : Action), b.tocCnt ≠ 0 → (b.accept a).becomeVisible.canExpire = true

/-! ## The executor and the classifier -/

/-- EXECUTE starts (R137): the wait condition is latched, the command is written once, EX settles. Then it is held in place
during the busy lag, and polls after it (R138). The requested cycle stands in the model's hand-over latch (log entry 12). -/
def Obligations.ExecuteStartsAndSettles : Prop :=
  ∀ (s : State) (cmd : Word) (wc : WaitCond), s.ex.req = some (cmd, wc) →
    (s.ex.st = .idle → cmd.toNat < 16 →
      (s.bus s.inst).mfe = true → (s.bus s.inst).busy = false → (s.bus s.inst).lag = false →
      (engDecode (s.bus s.inst).eng (s.bus s.inst).saRs (cmd.extractLsb' 0 4) = .nop →
        exec (.execute cmd wc) s = .next { s with ex := { s.ex with wc := wc, st := .settle } }) ∧
      (∀ a, engDecode (s.bus s.inst).eng (s.bus s.inst).saRs (cmd.extractLsb' 0 4) = .action a →
        exec (.execute cmd wc) s =
          .next ({ s with ex := { s.ex with wc := wc, st := .settle } }.setBus s.inst ((s.bus s.inst).accept a)))) ∧
    (s.ex.st = .settle →
      ((s.bus s.inst).lag = true → exec (.execute cmd wc) s = .next s) ∧
      ((s.bus s.inst).lag = false → exec (.execute cmd wc) s = .next { s with ex := { s.ex with st := .poll } }))

/-- EXECUTE polls (R139): it stays while `BUSY` = 1; then a NoAcknowledge starts the recovery STOP and is held, another
error is returned, and without an error EX waits on its condition or returns Ok. That the STOP is written in this same step,
and the `rs` of its action, are the model's choice (log entries 12 and 14). -/
def Obligations.ExecutePolls : Prop :=
  ∀ (s : State) (cmd : Word) (wc : WaitCond),
    s.ex.st = .poll → s.ex.req = some (cmd, wc) → (s.bus s.inst).lag = false → (s.bus s.inst).mfe = true →
    ((s.bus s.inst).busy = true → exec (.execute cmd wc) s = .next s) ∧
    ((s.bus s.inst).busy = false →
      ∃ t, exec (.execute cmd wc) s = .next t ∧
        ((s.bus s.inst).outcome = .nackAddress → t.ex = { s.ex with st := .nstopSettle, err := .address }) ∧
        ((s.bus s.inst).outcome = .nackData → t.ex = { s.ex with st := .nstopSettle, err := .data }) ∧
        ((s.bus s.inst).outcome = .nackAddress ∨ (s.bus s.inst).outcome = .nackData →
          t.bus s.inst = if (s.bus s.inst).eng = .idle then s.bus s.inst
            else (s.bus s.inst).accept ⟨.no, false, .no, true, .idle⟩) ∧
        (∀ e, e = .timeout ∨ e = .arbitrationLoss → (s.bus s.inst).outcome = e →
          t.ex = { s.ex with st := .idle, req := none, result := some e } ∧ t.buses = s.buses) ∧
        ((s.bus s.inst).outcome = .ok → s.ex.wc = .always →
          t.ex = { s.ex with st := .idle, req := none, result := some .ok } ∧ t.buses = s.buses) ∧
        ((s.bus s.inst).outcome = .ok → s.ex.wc = .busbsyClear →
          t.ex = { s.ex with st := .waitc } ∧ t.buses = s.buses))

/-- EXECUTE waits for its condition (R140): each read is classified first; then `BUSBSY` = 0 ends the cycle with Ok. The
read of an idle bus is the environment's next answer (log entry 4); the STOP is written in the step that sees a
NoAcknowledge, and the `rs` of its action is false (log entries 12 and 14). -/
def Obligations.ExecuteWaits : Prop :=
  ∀ (s : State) (cmd : Word) (wc : WaitCond),
    s.ex.st = .waitc → s.ex.req = some (cmd, wc) → (s.bus s.inst).lag = false → (s.bus s.inst).busy = false →
    (s.bus s.inst).mfe = true →
    ∃ t, exec (.execute cmd wc) s = .next t ∧
      ((s.bus s.inst).outcome = .nackAddress → t.ex = { s.ex with st := .nstopSettle, err := .address }) ∧
      ((s.bus s.inst).outcome = .nackData → t.ex = { s.ex with st := .nstopSettle, err := .data }) ∧
      ((s.bus s.inst).outcome = .nackAddress ∨ (s.bus s.inst).outcome = .nackData →
        t.bus s.inst = if (s.bus s.inst).eng = .idle then s.bus s.inst
          else (s.bus s.inst).accept ⟨.no, false, .no, true, .idle⟩) ∧
      (∀ e, e = .timeout ∨ e = .arbitrationLoss → (s.bus s.inst).outcome = e →
        t.ex = { s.ex with st := .idle, req := none, result := some e } ∧ t.buses = s.buses) ∧
      ((s.bus s.inst).outcome = .ok → (s.bus s.inst).eng ≠ .idle → t = s) ∧
      ((s.bus s.inst).outcome = .ok → (s.bus s.inst).eng = .idle → ∀ l,
        (s.busDraws = true :: l → t = { s with busDraws := l }) ∧
        (s.busDraws = false :: l →
          t = { s with busDraws := l, ex := { s.ex with st := .idle, req := none, result := some .ok } }))

/-- Frame of EXECUTE and NACK_STOP: buffer memory, the sequencer, the handle, the response and the output ports are as
before; of the bound instance only `ACT`, `LAG`, the five flags and the detector may change, of the others nothing. -/
def Obligations.ExecutorTouchesOneEngine : Prop :=
  ∀ (cmd : Word) (wc : WaitCond) (s t : State), exec (.execute cmd wc) s = .next t ∨ exec .nackStop s = .next t →
    (∀ a, t.memRead a = s.memRead a) ∧ t.seq = s.seq ∧ t.owned = s.owned ∧ t.inst = s.inst ∧
    t.rspValid = s.rspValid ∧ t.rspCode = s.rspCode ∧ t.regRdata = s.regRdata ∧ t.clsCode = s.clsCode ∧
    t.sel = s.sel ∧ t.sched = s.sched ∧ (∀ k, k ≠ s.inst → t.bus k = s.bus k) ∧
    (t.bus s.inst).mfe = (s.bus s.inst).mfe ∧ (t.bus s.inst).saAddr = (s.bus s.inst).saAddr ∧
    (t.bus s.inst).saRs = (s.bus s.inst).saRs ∧ (t.bus s.inst).drData = (s.bus s.inst).drData ∧
    (t.bus s.inst).rxValid = (s.bus s.inst).rxValid ∧ (t.bus s.inst).tpr = (s.bus s.inst).tpr ∧
    (t.bus s.inst).tocCnt = (s.bus s.inst).tocCnt ∧ (t.bus s.inst).eng = (s.bus s.inst).eng ∧
    (t.bus s.inst).busy = (s.bus s.inst).busy

/-- NACK_STOP (R141): command 0x4 is written, the lag is waited out, `BUSY` = 0 is polled, and the held NoAcknowledge is
returned whatever the STOP's own outcome. That NACK_STOP as an instruction starts from EX_POLL and EX_WAITC, with the outcome
`EX_ERR` holds, and the `rs` of the STOP's action are the model's choice (log entries 12 and 14). -/
def Obligations.RecoveryStop : Prop :=
  ∀ s : State,
    (s.ex.st = .poll ∨ s.ex.st = .waitc → (s.bus s.inst).mfe = true →
      (s.bus s.inst).busy = false → (s.bus s.inst).lag = false →
      ((s.bus s.inst).eng = .idle → exec .nackStop s = .next { s with ex := { s.ex with st := .nstopSettle } }) ∧
      ((s.bus s.inst).eng ≠ .idle → exec .nackStop s =
        .next ({ s with ex := { s.ex with st := .nstopSettle } }.setBus s.inst
          ((s.bus s.inst).accept ⟨.no, false, .no, true, .idle⟩)))) ∧
    (s.ex.st = .nstopSettle →
      ((s.bus s.inst).lag = true → exec .nackStop s = .next s) ∧
      ((s.bus s.inst).lag = false → exec .nackStop s = .next { s with ex := { s.ex with st := .nstopPoll } })) ∧
    (s.ex.st = .nstopPoll → (s.bus s.inst).lag = false →
      ((s.bus s.inst).busy = true → exec .nackStop s = .next s) ∧
      ((s.bus s.inst).busy = false → ∃ t, exec .nackStop s = .next t ∧ t.buses = s.buses ∧
        (s.ex.err = .address → t.ex = { s.ex with st := .idle, req := none, result := some .nackAddress }) ∧
        (s.ex.err = .data → t.ex = { s.ex with st := .idle, req := none, result := some .nackData })))

/-- CLASSIFY (R149): the fixed priority, as a sequence of checks and as the gates of its three code bits; no state but
the output port changes. -/
def Obligations.ClassifierPriority : Prop :=
  ∀ (w : Word) (s : State), ∃ c, exec (.classify w) s = .next { s with clsCode := c } ∧
    (w.getLsbD 7 = true → c = .timeout) ∧
    (w.getLsbD 7 = false → w.getLsbD 4 = true → c = .arbitrationLoss) ∧
    (w.getLsbD 7 = false → w.getLsbD 4 = false → w.getLsbD 1 = true → w.getLsbD 2 = true → c = .nackAddress) ∧
    (w.getLsbD 7 = false → w.getLsbD 4 = false → w.getLsbD 1 = true → w.getLsbD 2 = false → w.getLsbD 3 = true →
      c = .nackData) ∧
    (w.getLsbD 7 = false → w.getLsbD 4 = false →
      (w.getLsbD 1 = false ∨ (w.getLsbD 2 = false ∧ w.getLsbD 3 = false)) → c = .ok) ∧
    c.bits.getLsbD 0 = (w.getLsbD 7 || (!w.getLsbD 7 && !w.getLsbD 4 && w.getLsbD 1 && w.getLsbD 2)) ∧
    c.bits.getLsbD 1 = ((!w.getLsbD 7 && w.getLsbD 4) || (!w.getLsbD 7 && !w.getLsbD 4 && w.getLsbD 1 && w.getLsbD 2)) ∧
    c.bits.getLsbD 2 = (!w.getLsbD 7 && !w.getLsbD 4 && w.getLsbD 1 && !w.getLsbD 2 && w.getLsbD 3)

/-- Every outcome the bus engine can leave is classified as the taxonomy requires, whatever the free values (R152). -/
def Obligations.EngineOutcomesClassified : Prop :=
  ∀ (b : Bus) (a : Action) (w : Word) (d e : Byte) (held : Bool) (eng : Eng), b.Sound → b.act = some a →
    (b.completed a (.ok d) w e).outcome = .ok ∧
    (b.completed a (.addrNack held) w e).outcome = .nackAddress ∧
    (b.completed a (.dataNack held) w e).outcome = .nackData ∧
    (b.completed a .arbLost w e).outcome = .arbitrationLoss ∧
    (b.expired w e eng).outcome = .timeout

/-! ## The sequencer -/

/-- TRANSACTION (R154, R155, R156): the operands are latched; an empty sequence answers Ok and a zero-length operation
InvalidArgument in the same step, with no register or buffer access; else the first byte is to be issued. Without a handle,
or while SEQ works, the request has no step (R177), which the model answers with a refusal (log entry 11). -/
def Obligations.TransactionAcceptance : Prop :=
  ∀ (s : State) (addr : BitVec 7) (ops : List Desc),
    (s.owned = true → s.seq.st = .idle →
      (ops = [] → exec (.transaction addr ops) s =
        .next { s with seq := { s.seq with addr := addr, ops := [] }, rspValid := true, rspCode := .ok }) ∧
      (ops ≠ [] → (∃ d ∈ ops, d.len = 0) → exec (.transaction addr ops) s =
        .next { s with seq := { s.seq with addr := addr, ops := ops }, rspValid := true, rspCode := .invalidArgument }) ∧
      (ops ≠ [] → (∀ d ∈ ops, d.len ≠ 0) → exec (.transaction addr ops) s =
        .next { s with rspValid := false, seq := ⟨.issue, addr, ops, 0, 0, true⟩ })) ∧
    (s.owned = false ∨ s.seq.st ≠ .idle → exec (.transaction addr ops) s = .refused .requestNotAdmitted)

/-- OP_WRITE (R161): the buffer byte goes to `DR`; with a START pending the address and direction go to `SA`; the cycle
of the byte is requested, in the model's hand-over latch (log entry 12). Buffer memory, the other instances and the
position are as before. -/
def Obligations.WriteByteIssued : Prop :=
  ∀ (s : State) (len base : Nat),
    s.seq.st = .issue → s.ex.st = .idle → s.seq.ops[s.seq.i]? = some ⟨.write, len, base⟩ → s.seq.j < len →
    (s.bus s.inst).busy = false → (s.bus s.inst).lag = false →
    exec (.opWrite len base) s = .next { s with
      buses := sparseSet Bus.reset s.buses s.inst (if s.seq.pend then
          { s.bus s.inst with drData := s.memRead (base + s.seq.j), rxValid := false, saAddr := s.seq.addr, saRs := false }
        else { s.bus s.inst with drData := s.memRead (base + s.seq.j), rxValid := false }),
      ex := { s.ex with
        req := some (cmdAt Config.ackBeforeRestart s.seq.ops s.seq.i s.seq.j len .write s.seq.pend,
          waitAt s.seq.ops s.seq.i s.seq.j len)
        result := none }
      seq := { s.seq with st := .wait } }

/-- OP_READ, the issue (R162): with a START pending the address and direction go to `SA`; the cycle is
requested, in the model's hand-over latch (log entry 12). -/
def Obligations.ReadByteIssued : Prop :=
  ∀ (s : State) (len base : Nat),
    s.seq.st = .issue → s.ex.st = .idle → s.seq.ops[s.seq.i]? = some ⟨.read, len, base⟩ → s.seq.j < len →
    (s.bus s.inst).busy = false → (s.bus s.inst).lag = false →
    exec (.opRead len base) s = .next { s with
      buses := if s.seq.pend then
          sparseSet Bus.reset s.buses s.inst { s.bus s.inst with saAddr := s.seq.addr, saRs := true }
        else s.buses,
      ex := { s.ex with
        req := some (cmdAt Config.ackBeforeRestart s.seq.ops s.seq.i s.seq.j len .read s.seq.pend,
          waitAt s.seq.ops s.seq.i s.seq.j len)
        result := none }
      seq := { s.seq with st := .wait } }

/-- `CMDSEL` under both values of `ACK_BEFORE_RESTART`, row by row of its table; the globally final byte is the last of
its run, and no row combines ACK with STOP (R159). -/
def Obligations.CommandSelection : Prop :=
  (∀ (p : Config.AckPolicy) (lr : Bool),
    cmdSel p .write false lr false = 0x1 ∧ cmdSel p .write true lr false = 0x3 ∧
    cmdSel p .write false true true = 0x5 ∧ cmdSel p .write true true true = 0x7 ∧
    cmdSel p .read false false false = 0x9 ∧ cmdSel p .read true false false = 0xB ∧
    cmdSel p .read false true true = 0x5 ∧ cmdSel p .read true true true = 0x7) ∧
  cmdSel .suppress .read false true false = 0x1 ∧ cmdSel .assertAck .read false true false = 0x9 ∧
  cmdSel .suppress .read true true false = 0x3 ∧ cmdSel .assertAck .read true true false = 0xB ∧
  ∀ (p : Config.AckPolicy) (ops : List Desc) (i j len : Nat) (d : Dir) (f : Bool),
    (lastGlobal ops i j len = true → lastOfRun ops i j len d = true) ∧
    ¬((cmdAt p ops i j len d f).getLsbD 3 = true ∧ (cmdAt p ops i j len d f).getLsbD 2 = true)

/-- The completion step of SEQ (R163): an error ends the request with its code and stores nothing; else a Read byte is
stored at `base + j`, every other byte of buffer memory is as before, and the position advances or the request ends Ok.
The result stands in the model's hand-over latch (log entry 12). -/
def Obligations.ByteCompleted : Prop :=
  ∀ (s : State) (rest : List Move) (r : Code), s.sched = .seq :: rest → s.seq.st = .wait → s.ex.result = some r →
    (r ≠ .ok → step s = .next { s with
      sched := rest, ex := { s.ex with result := none }, seq := { s.seq with st := .idle }, rspCode := r, rspValid := true }) ∧
    (∀ d, r = .ok → s.seq.ops[s.seq.i]? = some d →
      (d.dir = .read → (s.bus s.inst).busy = false ∧ (s.bus s.inst).lag = false ∧ (s.bus s.inst).rxValid = true) →
      ∃ t, step s = .next t ∧ t.buses = s.buses ∧ t.ex = { s.ex with result := none } ∧ t.sched = rest ∧
        t.owned = s.owned ∧ t.inst = s.inst ∧
        (d.dir = .write → ∀ a, t.memRead a = s.memRead a) ∧
        (d.dir = .read → ∀ a, t.memRead a =
          if a = d.base + s.seq.j then (s.bus s.inst).drData else s.memRead a) ∧
        (s.seq.j + 1 < d.len →
          t.seq = { s.seq with st := .issue, j := s.seq.j + 1, pend := false } ∧ t.rspValid = s.rspValid) ∧
        (d.len ≤ s.seq.j + 1 → ∀ n, s.seq.ops[s.seq.i + 1]? = some n →
          t.seq = { s.seq with st := .issue, i := s.seq.i + 1, j := 0, pend := decide (n.dir ≠ d.dir) } ∧
          t.rspValid = s.rspValid) ∧
        (d.len ≤ s.seq.j + 1 → s.seq.ops[s.seq.i + 1]? = none →
          t.seq = { s.seq with st := .idle, i := s.seq.i + 1, j := 0 } ∧ t.rspCode = .ok ∧ t.rspValid = true))

/-- Where operation `i + 1` has another direction than operation `i`, its first byte is issued with START, and with STOP only
if it is the globally final byte; while the engine owns the bus that START is a repeated one; and no byte of operation `i`
is issued with STOP, so no STOP comes before it (R164). -/
def Obligations.DirectionChangeRepeatsStart : Prop :=
  ∀ (p : Config.AckPolicy) (ops : List Desc) (i : Nat) (prv nxt : Desc) (eng : Eng),
    ops[i]? = some prv → ops[i + 1]? = some nxt → prv.dir ≠ nxt.dir → eng ≠ .idle →
    firstOfRun ops (i + 1) 0 nxt.dir = true ∧
    (cmdAt p ops (i + 1) 0 nxt.len nxt.dir true).getLsbD 1 = true ∧
    (cmdAt p ops (i + 1) 0 nxt.len nxt.dir true).getLsbD 2 = lastGlobal ops (i + 1) 0 nxt.len ∧
    (∀ j pend, (cmdAt p ops i j prv.len prv.dir pend).getLsbD 2 = false) ∧
    ∃ a, engDecode eng (dirBit nxt.dir) ((cmdAt p ops (i + 1) 0 nxt.len nxt.dir true).extractLsb' 0 4) = .action a ∧
      a.start = .sr ∧ a.rs = dirBit nxt.dir

/-- The planned commands of a whole transaction of `T` bytes in `k` runs: `T` commands, `k` of them with START, exactly one
with STOP, and it is the last (R172, R157). The plan's entry for byte `j` of operation `i`, after the bytes of the operations
before, is the command SEQ requests of EX when it issues that byte, in order (R160). -/
def Obligations.CommandCounts : Prop :=
  ∀ (p : Config.AckPolicy) (ops : List Desc), ops ≠ [] → (∀ d ∈ ops, 0 < d.len) →
    (plan p ops).length = (ops.map Desc.len).sum ∧
    ((plan p ops).filter (fun w => w.getLsbD 1)).length = runCount ops ∧
    ((plan p ops).filter (fun w => w.getLsbD 2)).length = 1 ∧
    (∃ w, (plan p ops).getLast? = some w ∧ w.getLsbD 2 = true) ∧
    (∀ w ∈ plan p ops, w.getLsbD 0 = true) ∧
    ∀ (s t : State) (d : Desc), p = Config.ackBeforeRestart → s.seq.st = .issue → s.ex.st = .idle → s.seq.ops = ops →
      s.atByte d → seqMove s = .next t →
      ∃ cmd wc, t.ex.req = some (cmd, wc) ∧ (plan p ops)[((ops.take s.seq.i).map Desc.len).sum + s.seq.j]? = some cmd

/-! ## CONFIGURE, RELEASE and RESET -/

/-- CONFIGURE (R173): master enable, divisor and budget are written, the handle is bound and Ok answered; out of range it
faults with no effect; a running action faults the first write. -/
def Obligations.ConfigureBindsInstance : Prop :=
  ∀ (s : State) (inst sysclk freq : Nat), s.owned = false → s.seq.st = .idle →
    (Config.nInstances ≤ inst ∨ freq = 0 → exec (.configure inst sysclk freq) s = .fault .configOutOfRange) ∧
    (inst < Config.nInstances → freq ≠ 0 → tprOf sysclk freq < 0 ∨ 127 < tprOf sysclk freq →
      exec (.configure inst sysclk freq) s = .fault .configOutOfRange) ∧
    (inst < Config.nInstances → freq ≠ 0 → 0 ≤ tprOf sysclk freq → tprOf sysclk freq ≤ 127 →
      ((s.bus inst).busy = true ∨ (s.bus inst).lag = true →
        exec (.configure inst sysclk freq) s = .fault .writeWhileBusy) ∧
      ((s.bus inst).busy = false → (s.bus inst).lag = false →
        exec (.configure inst sysclk freq) s = .next { s with
          buses := sparseSet Bus.reset s.buses inst { s.bus inst with
            mfe := true, tpr := BitVec.ofInt 7 (tprOf sysclk freq), tocCnt := Config.timeoutInit }
          inst := inst, owned := true, rspCode := .ok, rspValid := true }))

/-- The divisor is the quotient rounded half up, less one (R174); it lies in 0 to 127 exactly when `10 F <= S < 2570 F`. -/
def Obligations.DivisorRoundsHalfUp : Prop :=
  ∀ (sysclk freq : Nat), freq ≠ 0 →
    tprOf sysclk freq = ⌊(sysclk : ℚ) / (20 * freq) + 1 / 2⌋ - 1 ∧
    (divisorInRange (tprOf sysclk freq) = true ↔ 10 * freq ≤ sysclk ∧ sysclk < 2570 * freq)

/-- RELEASE (R176): only the handle and the response change. Without a handle, or while SEQ works, the request has no step
(R177), which the model answers with a refusal (log entry 11). -/
def Obligations.ReleaseFreesHandle : Prop :=
  ∀ s : State,
    (s.owned = true → s.seq.st = .idle →
      exec .release s = .next { s with owned := false, rspCode := .ok, rspValid := true }) ∧
    (s.owned = false ∨ s.seq.st ≠ .idle → exec .release s = .refused .requestNotAdmitted)

/-- RESET (R197): in every state, every instance is as after reset, the executor, sequencer, handle and response are
cleared, and buffer memory is unchanged. -/
def Obligations.ResetClearsBlock : Prop :=
  ∀ s : State, ∃ t, exec .reset s = .next t ∧
    (∀ k, (t.bus k).mfe = false ∧ (t.bus k).saAddr = 0 ∧ (t.bus k).saRs = false ∧ (t.bus k).drData = 0 ∧
      (t.bus k).rxValid = false ∧ (t.bus k).tocCnt = 0 ∧ (t.bus k).tpr = 1 ∧ (t.bus k).busy = false ∧
      (t.bus k).error = false ∧ (t.bus k).adrack = false ∧ (t.bus k).datack = false ∧ (t.bus k).arblst = false ∧
      (t.bus k).clkto = false ∧ (t.bus k).eng = .idle ∧ (t.bus k).act = none ∧ (t.bus k).lag = false ∧
      (t.bus k).toArmed = false ∧ (t.bus k).toCnt = 0) ∧
    t.ex.st = .idle ∧ t.seq.st = .idle ∧ t.owned = false ∧ t.rspValid = false ∧
    (∀ a, t.memRead a = s.memRead a) ∧ t.sched = s.sched

/-- The state after reset holds the values of the reset table (R50), with no buffer byte listed, the model's choice for
buffer memory (log entry 7). -/
def Obligations.ResetStateHoldsTable : Prop :=
  (∀ k, State.reset.bus k = Bus.reset) ∧
  Bus.reset.mfe = false ∧ Bus.reset.saAddr = 0 ∧ Bus.reset.saRs = false ∧ Bus.reset.drData = 0 ∧
  Bus.reset.rxValid = false ∧ Bus.reset.busy = false ∧ Bus.reset.error = false ∧ Bus.reset.adrack = false ∧
  Bus.reset.datack = false ∧ Bus.reset.arblst = false ∧ Bus.reset.clkto = false ∧ Bus.reset.tocCnt = 0 ∧
  Bus.reset.tpr = 1 ∧ Bus.reset.eng = .idle ∧ Bus.reset.act = none ∧ Bus.reset.lag = false ∧
  Bus.reset.toArmed = false ∧ Bus.reset.toCnt = 0 ∧ State.reset.ex.st = .idle ∧ State.reset.seq.st = .idle ∧
  State.reset.owned = false ∧ State.reset.rspValid = false ∧ State.reset.buf = []

/-! ## Invariants -/

/-- The state after reset is sound and ordered. -/
def Obligations.ResetIsSoundAndOrdered : Prop := State.reset.Sound ∧ State.reset.Ordered

/-- Every step, of whichever agent, keeps the machine sound: memory and instances in canonical form, an action exactly
while `LAG` or `BUSY` is 1, the detector armed only then, the flags 0 meanwhile, no bus owned with master mode off. -/
def Obligations.StepKeepsSound : Prop :=
  ∀ s t : State, s.Sound → step s = .next t → t.Sound

/-- Every step keeps SEQ, EX and the bound instance in order (R168): at every issue no action runs and without a START
pending the engine is in the byte's direction; while EX runs, the action leads to where the next byte needs the engine. -/
def Obligations.StepKeepsOrdered : Prop :=
  ∀ s t : State, s.Sound → s.Ordered → step s = .next t → t.Ordered

/-- The operations SEQ holds stay within the bounds of R177 in every step, after reset first: at most `MAX_OPS` of them,
each with its length in `LEN_W` bits and its buffer inside the buffer space, no Read buffer overlapping another. -/
def Obligations.StepKeepsOperationsAdmitted : Prop :=
  opsAdmitted State.reset.seq.ops = true ∧
  ∀ s t : State, opsAdmitted s.seq.ops = true → step s = .next t → opsAdmitted t.seq.ops = true

/-- No fault and no refusal is reachable from the controller's own steps or the environment's: from a sound and ordered
state every step that is not the host's has a next state (R168, R183). -/
def Obligations.ControllerNeverFaults : Prop :=
  ∀ s : State, s.Sound → s.Ordered → (∀ m rest, s.sched = m :: rest → m.isHost = false) →
    ∃ t, step s = .next t

/-- Every command EX starts is an action, never a NOP or ILLEGAL, and its direction is the byte's (R168). -/
def Obligations.SequencerCommandsAreActions : Prop :=
  ∀ (s : State) (d : Desc) (cmd : Word) (wc : WaitCond), s.Sound → s.Ordered → s.seq.st = .wait → s.atByte d →
    s.ex.st = .idle → s.ex.req = some (cmd, wc) →
    ∃ a, engDecode (s.bus s.inst).eng (s.bus s.inst).saRs (cmd.extractLsb' 0 4) = .action a ∧
      (d.dir = .write → a.data = .tx) ∧ (d.dir = .read → a.data = .rxAck ∨ a.data = .rxNack) ∧
      (a.stop = lastGlobal s.seq.ops s.seq.i s.seq.j d.len) ∧ (s.seq.pend = true ↔ a.start ≠ .no)

/-! ## Whole-machine rules -/

/-- A step changes a byte of buffer memory only by the host's own store there, or by SEQ storing a received byte at
`base + j` of the Read operation at its position after its cycle returned Ok (R53, R170). -/
def Obligations.BufferChangesOnlyByReadBytes : Prop :=
  ∀ (s t : State) (a : Nat), step s = .next t → t.memRead a ≠ s.memRead a →
    (∃ b rest, s.sched = .hostStore a b :: rest) ∨
    (∃ d, s.seq.st = .wait ∧ s.ex.result = some .ok ∧ s.seq.ops[s.seq.i]? = some d ∧ d.dir = .read ∧ a = d.base + s.seq.j)

/-- `ENG` changes only in a step that completes the instance's action, in one in which its armed detector expires, and in
one that resets (R41). The schedule is the model's choice (log entry 3). -/
def Obligations.EngineStateChangesOnlyBy : Prop :=
  ∀ (s t : State) (k : Nat), step s = .next t → (t.bus k).eng ≠ (s.bus k).eng →
    (∃ o rest, s.sched = .complete k o :: rest ∧ (s.bus k).canComplete o = true) ∨
    (((∃ rest, s.sched = .expire k :: rest) ∨ s.sched = []) ∧ (s.bus k).canExpire = true ∧
      ∃ w e g, t.bus k = (s.bus k).expired w e g) ∨
    (∃ m rest, s.sched = .port m ⟨.rst, [1]⟩ :: rest)

/-- `BUSY` is set only by the visibility step of an accepted action, and `CLKTO` only in the step in which the instance's
armed detector expires (R33, R39). The schedule is the model's choice (log entry 3). -/
def Obligations.BusyAndTimeoutSetOnlyBy : Prop :=
  ∀ (s t : State) (k : Nat), step s = .next t →
    ((s.bus k).busy = false → (t.bus k).busy = true →
      (s.bus k).lag = true ∧ t.bus k = { s.bus k with lag := false, busy := true }) ∧
    ((s.bus k).clkto = false → (t.bus k).clkto = true →
      ((∃ rest, s.sched = .expire k :: rest) ∨ s.sched = []) ∧
      (s.bus k).toArmed = true ∧ (s.bus k).busy = true ∧ (s.bus k).lag = false ∧
      ∃ w e g, t.bus k = (s.bus k).expired w e g)

/-- While a handle is bound, no packet the host presents but a reset changes the bound instance, `INST` or the executor,
and while a transaction runs none changes the sequencer or the handle: the registers are SEQ's and EX's alone (R63, R189).
That such an access is refused is the model's choice (log entry 10). -/
def Obligations.HandleExcludesHost : Prop :=
  ∀ (s t : State) (k : Nat) (p : Packet) (rest : List Move), s.owned = true → s.sched = .port k p :: rest →
    p ≠ ⟨.rst, [1]⟩ → step s = .next t →
    t.bus s.inst = s.bus s.inst ∧ t.inst = s.inst ∧ t.ex = s.ex ∧ (s.seq.st ≠ .idle → t.seq = s.seq ∧ t.owned = true)

/-! ## Runs -/

/-- The one-shot Write (R166; the source's single-write example): from a configured instance with an idle bus, one
command with START, RUN and STOP carries the byte, and the request ends Ok with the engine idle. EX reads `STAT` of the
idle bus twice, in its last poll and in its wait loop; the second answer is that the bus is not busy. Schedule, answers
and latches are the model's (log entries 3, 4 and 12). -/
def Obligations.OneByteWriteRun : Prop :=
  ∀ (s : State) (addr : BitVec 7) (base : Nat) (d : Byte) (rest : List Move) (polled : Bool) (l : List Bool),
    s.Sound → s.owned = true → s.seq = ⟨.issue, addr, [⟨.write, 1, base⟩], 0, 0, true⟩ → s.exRests →
    (s.bus s.inst).act = none → (s.bus s.inst).mfe = true → (s.bus s.inst).eng = .idle →
    s.busDraws = polled :: false :: l →
    s.sched = [.seq, .ex, .visible s.inst, .ex, .ex, .complete s.inst (.ok d), .ex, .ex, .seq] ++ rest →
    ∃ t, Host.Core.run Sys2Proof.core 9 s = .next t ∧ t.rspValid = true ∧ t.rspCode = .ok ∧ t.seq.st = .idle ∧
      t.sched = rest ∧ (t.bus s.inst).eng = .idle ∧ (t.bus s.inst).busy = false ∧
      (t.bus s.inst).saAddr = addr ∧ (t.bus s.inst).saRs = false ∧
      (t.bus s.inst).drData = s.memRead base ∧ ∀ a, t.memRead a = s.memRead a

/-- A stuck action of an armed detector ends with Timeout and no STOP: with nothing scheduled and no other instance
occupied, four fair steps end the cycle, whatever the environment never answers (R145, R211). The order of the fair steps
is the model's choice (log entry 3). -/
def Obligations.StuckCycleTimesOut : Prop :=
  ∀ (s : State) (a : Action), s.Sound → s.Ordered → s.sched = [] → s.seq.st = .wait → s.ex.st = .settle →
    (s.bus s.inst).lag = true → (s.bus s.inst).act = some a → (s.bus s.inst).toArmed = true →
    (∀ k, k ≠ s.inst → (s.bus k).occupied = false) →
    ∃ t, Host.Core.run Sys2Proof.core 4 s = .next t ∧ t.ex.st = .idle ∧ t.ex.result = some .timeout ∧
      (t.bus s.inst).clkto = true ∧ (t.bus s.inst).busy = false ∧ (t.bus s.inst).act = none
end

