-- ==== Sys2Proof/Laws/Sparse.lean ====
section
/-! SUPPORT. Sparse lists in canonical form: read after write, the canonical form kept, equal contents are equal lists;
and what follows for bus instances and buffer memory. -/

namespace Sys2Proof.Machine

variable {α : Type}

/-! ## Reading -/

theorem sparseGet_erase (d : α) (m : List (Nat × α)) (a c : Nat) :
    sparseGet d (sparseErase m a) c = if c = a then d else sparseGet d m c := by
  induction m with
  | nil => simp [sparseErase, sparseGet]
  | cons p m ih =>
    simp only [sparseErase]
    by_cases hp : p.1 = a
    · simp only [hp, if_true, ih, sparseGet]
      by_cases hc : c = a
      · simp [hc]
      · rw [if_neg hc, if_neg hc, if_neg (Ne.symm hc)]
    · simp only [hp, if_false, sparseGet, ih]
      by_cases hc : p.1 = c
      · rw [if_pos hc, if_pos hc, if_neg (hc ▸ hp)]
      · rw [if_neg hc, if_neg hc]

theorem sparseGet_insert (d : α) (m : List (Nat × α)) (a c : Nat) (v : α) :
    sparseGet d (sparseInsert m a v) c = if c = a then v else sparseGet d m c := by
  induction m with
  | nil => simp [sparseInsert, sparseGet, eq_comm]
  | cons p m ih =>
    simp only [sparseInsert]
    split
    · simp [sparseGet, eq_comm]
    · simp only [sparseGet, ih]; split <;> split <;> simp_all

theorem sparseGet_set [DecidableEq α] (d : α) (m : List (Nat × α)) (a c : Nat) (v : α) :
    sparseGet d (sparseSet d m a v) c = if c = a then v else sparseGet d m c := by
  unfold sparseSet
  split
  · next h => rw [sparseGet_erase, h]
  · rw [sparseGet_insert, sparseGet_erase]; split <;> rfl

theorem sparseGet_below (d : α) {m : List (Nat × α)} {a : Nat} (h : ∀ c ∈ m, a < c.1) : sparseGet d m a = d := by
  induction m with
  | nil => rfl
  | cons p m ih =>
    have := h p (.head _)
    simp only [sparseGet]
    rw [if_neg (by omega), ih fun c hc => h c (.tail _ hc)]

/-! ## Writing the same key twice -/

theorem sparseErase_erase (m : List (Nat × α)) (a : Nat) : sparseErase (sparseErase m a) a = sparseErase m a := by
  induction m with
  | nil => rfl
  | cons p m ih =>
    simp only [sparseErase]
    split
    · exact ih
    · next h => simp [sparseErase, h, ih]

theorem sparseErase_insert (m : List (Nat × α)) (a : Nat) (v : α) :
    sparseErase (sparseInsert m a v) a = sparseErase m a := by
  induction m with
  | nil => simp [sparseInsert, sparseErase]
  | cons p m ih =>
    simp only [sparseInsert]
    split
    · simp [sparseErase]
    · simp only [sparseErase, ih]

theorem sparseErase_set [DecidableEq α] (d : α) (m : List (Nat × α)) (a : Nat) (v : α) :
    sparseErase (sparseSet d m a v) a = sparseErase m a := by
  unfold sparseSet
  split
  · exact sparseErase_erase m a
  · rw [sparseErase_insert, sparseErase_erase]

@[simp] theorem sparseSet_set [DecidableEq α] (d : α) (m : List (Nat × α)) (a : Nat) (v w : α) :
    sparseSet d (sparseSet d m a v) a w = sparseSet d m a w := by
  show (if w = d then sparseErase (sparseSet d m a v) a else sparseInsert (sparseErase (sparseSet d m a v) a) a w) = _
  rw [sparseErase_set]
  rfl

/-! ## The canonical form is kept -/

theorem mem_erase {m : List (Nat × α)} {a : Nat} {c : Nat × α} (h : c ∈ sparseErase m a) : c ∈ m ∧ c.1 ≠ a := by
  induction m with
  | nil => simp [sparseErase] at h
  | cons p m ih =>
    simp only [sparseErase] at h
    split at h
    · exact ⟨.tail _ (ih h).1, (ih h).2⟩
    · next hp =>
      cases h with
      | head => exact ⟨.head _, hp⟩
      | tail _ h => exact ⟨.tail _ (ih h).1, (ih h).2⟩

theorem mem_insert {m : List (Nat × α)} {a : Nat} {v : α} {c : Nat × α} (h : c ∈ sparseInsert m a v) :
    c = (a, v) ∨ c ∈ m := by
  induction m with
  | nil => simpa [sparseInsert] using h
  | cons p m ih =>
    simp only [sparseInsert] at h
    split at h
    · simpa using h
    · cases h with
      | head => exact .inr (.head _)
      | tail _ h => exact (ih h).imp_right (.tail _)

variable [DecidableEq α]

theorem sparseWf_cons (d : α) (p : Nat × α) (m : List (Nat × α)) :
    sparseWf d (p :: m) = true ↔ p.2 ≠ d ∧ (∀ c ∈ m, p.1 < c.1) ∧ sparseWf d m = true := by
  simp [sparseWf, and_assoc]

theorem sparseWf_erase (d : α) (m : List (Nat × α)) (a : Nat) (h : sparseWf d m = true) :
    sparseWf d (sparseErase m a) = true := by
  induction m with
  | nil => rfl
  | cons p m ih =>
    obtain ⟨h1, h2, h3⟩ := (sparseWf_cons d p m).1 h
    simp only [sparseErase]
    split
    · exact ih h3
    · exact (sparseWf_cons d p _).2 ⟨h1, fun c hc => h2 c (mem_erase hc).1, ih h3⟩

theorem sparseWf_insert (d : α) (m : List (Nat × α)) (a : Nat) (v : α) (h : sparseWf d m = true) (hv : v ≠ d)
    (ha : ∀ c ∈ m, c.1 ≠ a) : sparseWf d (sparseInsert m a v) = true := by
  induction m with
  | nil => simp [sparseInsert, sparseWf, hv]
  | cons p m ih =>
    obtain ⟨h1, h2, h3⟩ := (sparseWf_cons d p m).1 h
    have hp : p.1 ≠ a := ha p (.head _)
    simp only [sparseInsert]
    split
    · next hle =>
      refine (sparseWf_cons d _ _).2 ⟨hv, fun c hc => ?_, h⟩
      cases hc with
      | head => simp only; omega
      | tail _ hc => have := h2 c hc; simp only; omega
    · next hle =>
      refine (sparseWf_cons d p _).2 ⟨h1, fun c hc => ?_, ih h3 fun c hc => ha c (.tail _ hc)⟩
      rcases mem_insert hc with rfl | hc
      · simp only; omega
      · exact h2 c hc

theorem sparseWf_set (d : α) (m : List (Nat × α)) (a : Nat) (v : α) (h : sparseWf d m = true) :
    sparseWf d (sparseSet d m a v) = true := by
  unfold sparseSet
  split
  · exact sparseWf_erase d m a h
  · next hv => exact sparseWf_insert d _ a v (sparseWf_erase d m a h) hv fun c hc => (mem_erase hc).2

/-! ## Equal contents are equal lists -/

theorem sparseGet_of_mem (d : α) {m : List (Nat × α)} (h : sparseWf d m = true) {c : Nat × α} (hc : c ∈ m) :
    sparseGet d m c.1 = c.2 := by
  induction m with
  | nil => cases hc
  | cons p m ih =>
    obtain ⟨-, h2, h3⟩ := (sparseWf_cons d p m).1 h
    cases hc with
    | head => simp [sparseGet]
    | tail _ hc =>
      have := h2 c hc
      simp only [sparseGet]
      rw [if_neg (by omega), ih h3 hc]

/-- Two lists in canonical form that read alike everywhere are equal. -/
theorem sparse_ext (d : α) {m n : List (Nat × α)} (hm : sparseWf d m = true) (hn : sparseWf d n = true)
    (h : ∀ a, sparseGet d m a = sparseGet d n a) : m = n := by
  induction m generalizing n with
  | nil =>
    cases n with
    | nil => rfl
    | cons q n => have := h q.1; rw [sparseGet_of_mem d hn (.head _)] at this
                  exact absurd this.symm ((sparseWf_cons d q n).1 hn).1
  | cons p m ih =>
    obtain ⟨p1, p2, p3⟩ := (sparseWf_cons d p m).1 hm
    cases n with
    | nil => have := h p.1; rw [sparseGet_of_mem d hm (.head _)] at this; exact absurd this p1
    | cons q n =>
      obtain ⟨q1, q2, q3⟩ := (sparseWf_cons d q n).1 hn
      have hp := h p.1
      have hq := h q.1
      rw [sparseGet_of_mem d hm (.head _)] at hp
      rw [sparseGet_of_mem d hn (.head _)] at hq
      have key : p.1 = q.1 := by
        rcases Nat.lt_trichotomy p.1 q.1 with hlt | heq | hlt
        · rw [sparseGet_below d] at hp
          · exact absurd hp p1
          · intro c hc
            cases hc with
            | head => exact hlt
            | tail _ hc => exact Nat.lt_trans hlt (q2 c hc)
        · exact heq
        · rw [sparseGet_below d] at hq
          · exact absurd hq.symm q1
          · intro c hc
            cases hc with
            | head => exact hlt
            | tail _ hc => exact Nat.lt_trans hlt (p2 c hc)
      have val : p.2 = q.2 := by rw [hp, key, sparseGet_of_mem d hn (.head _)]
      have tl : m = n := ih p3 q3 fun a => by
        by_cases ha : a = p.1
        · rw [sparseGet_below d (ha ▸ p2), sparseGet_below d (ha.trans key ▸ q2)]
        · have := h a
          simp only [sparseGet] at this
          rwa [if_neg (by omega), if_neg (by omega)] at this
      rw [tl, show p = q from Prod.ext key val]

theorem sparseSet_get (d : α) {m : List (Nat × α)} (h : sparseWf d m = true) (a : Nat) :
    sparseSet d m a (sparseGet d m a) = m :=
  sparse_ext d (sparseWf_set d m a _ h) h fun c => by rw [sparseGet_set]; split <;> simp_all

/-! ## Bus instances and buffer memory -/

theorem bus_setBus (s : State) (k m : Nat) (b : Bus) : (s.setBus k b).bus m = if m = k then b else s.bus m :=
  sparseGet_set Bus.reset s.buses k m b

@[simp] theorem bus_setBus_self (s : State) (k : Nat) (b : Bus) : (s.setBus k b).bus k = b := by
  rw [bus_setBus, if_pos rfl]

theorem bus_setBus_ne (s : State) {k m : Nat} (b : Bus) (h : m ≠ k) : (s.setBus k b).bus m = s.bus m := by
  rw [bus_setBus, if_neg h]

@[simp] theorem setBus_setBus (s : State) (k : Nat) (b c : Bus) : (s.setBus k b).setBus k c = s.setBus k c := by
  simp [State.setBus]

theorem setBus_bus (s : State) (h : sparseWf Bus.reset s.buses = true) (k : Nat) : s.setBus k (s.bus k) = s := by
  unfold State.setBus State.bus
  rw [sparseSet_get Bus.reset h]

theorem memRead_memWrite (s : State) (a c : Nat) (v : Byte) :
    (s.memWrite a v).memRead c = if c = a then v else s.memRead c :=
  sparseGet_set Memory.unlisted s.buf a c v

/-- Every write of a byte keeps buffer memory in canonical form. -/
theorem memWrite_wf (s : State) (a : Nat) (v : Byte) (h : Memory.wf s.buf = true) :
    Memory.wf (s.memWrite a v).buf = true :=
  sparseWf_set Memory.unlisted s.buf a v h

theorem reset_memory_wf : Memory.wf State.reset.buf = true := rfl

theorem reset_buses_wf : sparseWf Bus.reset State.reset.buses = true := rfl

end Sys2Proof.Machine
end

