-- ==== Sys2Proof/Laws/State.lean ====
section
/-! SUPPORT. One lemma per field per named update of the state and of a bus instance, each true by rfl. -/

namespace Sys2Proof.Machine

/-! ## Updates of the state -/

@[simp] theorem setBus_buses (s : State) (k : Nat) (b : Bus) : (s.setBus k b).buses = sparseSet Bus.reset s.buses k b := rfl
@[simp] theorem setBus_buf (s : State) (k : Nat) (b : Bus) : (s.setBus k b).buf = s.buf := rfl
@[simp] theorem setBus_ex (s : State) (k : Nat) (b : Bus) : (s.setBus k b).ex = s.ex := rfl
@[simp] theorem setBus_seq (s : State) (k : Nat) (b : Bus) : (s.setBus k b).seq = s.seq := rfl
@[simp] theorem setBus_owned (s : State) (k : Nat) (b : Bus) : (s.setBus k b).owned = s.owned := rfl
@[simp] theorem setBus_inst (s : State) (k : Nat) (b : Bus) : (s.setBus k b).inst = s.inst := rfl
@[simp] theorem setBus_rspValid (s : State) (k : Nat) (b : Bus) : (s.setBus k b).rspValid = s.rspValid := rfl
@[simp] theorem setBus_rspCode (s : State) (k : Nat) (b : Bus) : (s.setBus k b).rspCode = s.rspCode := rfl
@[simp] theorem setBus_regRdata (s : State) (k : Nat) (b : Bus) : (s.setBus k b).regRdata = s.regRdata := rfl
@[simp] theorem setBus_clsCode (s : State) (k : Nat) (b : Bus) : (s.setBus k b).clsCode = s.clsCode := rfl
@[simp] theorem setBus_sel (s : State) (k : Nat) (b : Bus) : (s.setBus k b).sel = s.sel := rfl
@[simp] theorem setBus_sched (s : State) (k : Nat) (b : Bus) : (s.setBus k b).sched = s.sched := rfl
@[simp] theorem setBus_busDraws (s : State) (k : Nat) (b : Bus) : (s.setBus k b).busDraws = s.busDraws := rfl
@[simp] theorem setBus_freeCtr (s : State) (k : Nat) (b : Bus) : (s.setBus k b).freeCtr = s.freeCtr := rfl

@[simp] theorem memWrite_buses (s : State) (a : Nat) (v : Byte) : (s.memWrite a v).buses = s.buses := rfl
@[simp] theorem memWrite_buf (s : State) (a : Nat) (v : Byte) : (s.memWrite a v).buf = sparseSet Memory.unlisted s.buf a v := rfl
@[simp] theorem memWrite_ex (s : State) (a : Nat) (v : Byte) : (s.memWrite a v).ex = s.ex := rfl
@[simp] theorem memWrite_seq (s : State) (a : Nat) (v : Byte) : (s.memWrite a v).seq = s.seq := rfl
@[simp] theorem memWrite_owned (s : State) (a : Nat) (v : Byte) : (s.memWrite a v).owned = s.owned := rfl
@[simp] theorem memWrite_inst (s : State) (a : Nat) (v : Byte) : (s.memWrite a v).inst = s.inst := rfl
@[simp] theorem memWrite_rspValid (s : State) (a : Nat) (v : Byte) : (s.memWrite a v).rspValid = s.rspValid := rfl
@[simp] theorem memWrite_rspCode (s : State) (a : Nat) (v : Byte) : (s.memWrite a v).rspCode = s.rspCode := rfl
@[simp] theorem memWrite_regRdata (s : State) (a : Nat) (v : Byte) : (s.memWrite a v).regRdata = s.regRdata := rfl
@[simp] theorem memWrite_clsCode (s : State) (a : Nat) (v : Byte) : (s.memWrite a v).clsCode = s.clsCode := rfl
@[simp] theorem memWrite_sel (s : State) (a : Nat) (v : Byte) : (s.memWrite a v).sel = s.sel := rfl
@[simp] theorem memWrite_sched (s : State) (a : Nat) (v : Byte) : (s.memWrite a v).sched = s.sched := rfl
@[simp] theorem memWrite_busDraws (s : State) (a : Nat) (v : Byte) : (s.memWrite a v).busDraws = s.busDraws := rfl
@[simp] theorem memWrite_freeCtr (s : State) (a : Nat) (v : Byte) : (s.memWrite a v).freeCtr = s.freeCtr := rfl

@[simp] theorem drawn_buses (s : State) : (s.drawn).buses = s.buses := rfl
@[simp] theorem drawn_buf (s : State) : (s.drawn).buf = s.buf := rfl
@[simp] theorem drawn_ex (s : State) : (s.drawn).ex = s.ex := rfl
@[simp] theorem drawn_seq (s : State) : (s.drawn).seq = s.seq := rfl
@[simp] theorem drawn_owned (s : State) : (s.drawn).owned = s.owned := rfl
@[simp] theorem drawn_inst (s : State) : (s.drawn).inst = s.inst := rfl
@[simp] theorem drawn_rspValid (s : State) : (s.drawn).rspValid = s.rspValid := rfl
@[simp] theorem drawn_rspCode (s : State) : (s.drawn).rspCode = s.rspCode := rfl
@[simp] theorem drawn_regRdata (s : State) : (s.drawn).regRdata = s.regRdata := rfl
@[simp] theorem drawn_clsCode (s : State) : (s.drawn).clsCode = s.clsCode := rfl
@[simp] theorem drawn_sel (s : State) : (s.drawn).sel = s.sel := rfl
@[simp] theorem drawn_sched (s : State) : (s.drawn).sched = s.sched := rfl
@[simp] theorem drawn_busDraws (s : State) : (s.drawn).busDraws = s.busDraws := rfl
@[simp] theorem drawn_freeCtr (s : State) : (s.drawn).freeCtr = s.freeCtr + 1 := rfl

@[simp] theorem respond_buses (s : State) (c : Code) : (s.respond c).buses = s.buses := rfl
@[simp] theorem respond_buf (s : State) (c : Code) : (s.respond c).buf = s.buf := rfl
@[simp] theorem respond_ex (s : State) (c : Code) : (s.respond c).ex = s.ex := rfl
@[simp] theorem respond_seq (s : State) (c : Code) : (s.respond c).seq = { s.seq with st := .idle } := rfl
@[simp] theorem respond_owned (s : State) (c : Code) : (s.respond c).owned = s.owned := rfl
@[simp] theorem respond_inst (s : State) (c : Code) : (s.respond c).inst = s.inst := rfl
@[simp] theorem respond_rspValid (s : State) (c : Code) : (s.respond c).rspValid = true := rfl
@[simp] theorem respond_rspCode (s : State) (c : Code) : (s.respond c).rspCode = c := rfl
@[simp] theorem respond_regRdata (s : State) (c : Code) : (s.respond c).regRdata = s.regRdata := rfl
@[simp] theorem respond_clsCode (s : State) (c : Code) : (s.respond c).clsCode = s.clsCode := rfl
@[simp] theorem respond_sel (s : State) (c : Code) : (s.respond c).sel = s.sel := rfl
@[simp] theorem respond_sched (s : State) (c : Code) : (s.respond c).sched = s.sched := rfl
@[simp] theorem respond_busDraws (s : State) (c : Code) : (s.respond c).busDraws = s.busDraws := rfl
@[simp] theorem respond_freeCtr (s : State) (c : Code) : (s.respond c).freeCtr = s.freeCtr := rfl

@[simp] theorem readDefined_buses (s : State) (m v : Word) : (s.readDefined m v).buses = s.buses := rfl
@[simp] theorem readDefined_buf (s : State) (m v : Word) : (s.readDefined m v).buf = s.buf := rfl
@[simp] theorem readDefined_ex (s : State) (m v : Word) : (s.readDefined m v).ex = s.ex := rfl
@[simp] theorem readDefined_seq (s : State) (m v : Word) : (s.readDefined m v).seq = s.seq := rfl
@[simp] theorem readDefined_owned (s : State) (m v : Word) : (s.readDefined m v).owned = s.owned := rfl
@[simp] theorem readDefined_inst (s : State) (m v : Word) : (s.readDefined m v).inst = s.inst := rfl
@[simp] theorem readDefined_rspValid (s : State) (m v : Word) : (s.readDefined m v).rspValid = s.rspValid := rfl
@[simp] theorem readDefined_rspCode (s : State) (m v : Word) : (s.readDefined m v).rspCode = s.rspCode := rfl
@[simp] theorem readDefined_regRdata (s : State) (m v : Word) : (s.readDefined m v).regRdata = (v &&& m) ||| (s.anyWord &&& ~~~m) := rfl
@[simp] theorem readDefined_clsCode (s : State) (m v : Word) : (s.readDefined m v).clsCode = s.clsCode := rfl
@[simp] theorem readDefined_sel (s : State) (m v : Word) : (s.readDefined m v).sel = s.sel := rfl
@[simp] theorem readDefined_sched (s : State) (m v : Word) : (s.readDefined m v).sched = s.sched := rfl
@[simp] theorem readDefined_busDraws (s : State) (m v : Word) : (s.readDefined m v).busDraws = s.busDraws := rfl
@[simp] theorem readDefined_freeCtr (s : State) (m v : Word) : (s.readDefined m v).freeCtr = s.freeCtr + 1 := rfl

@[simp] theorem exReturn_buses (s : State) (c : Code) : (s.exReturn c).buses = s.buses := rfl
@[simp] theorem exReturn_buf (s : State) (c : Code) : (s.exReturn c).buf = s.buf := rfl
@[simp] theorem exReturn_ex (s : State) (c : Code) : (s.exReturn c).ex = { s.ex with st := .idle, req := none, result := some c } := rfl
@[simp] theorem exReturn_seq (s : State) (c : Code) : (s.exReturn c).seq = s.seq := rfl
@[simp] theorem exReturn_owned (s : State) (c : Code) : (s.exReturn c).owned = s.owned := rfl
@[simp] theorem exReturn_inst (s : State) (c : Code) : (s.exReturn c).inst = s.inst := rfl
@[simp] theorem exReturn_rspValid (s : State) (c : Code) : (s.exReturn c).rspValid = s.rspValid := rfl
@[simp] theorem exReturn_rspCode (s : State) (c : Code) : (s.exReturn c).rspCode = s.rspCode := rfl
@[simp] theorem exReturn_regRdata (s : State) (c : Code) : (s.exReturn c).regRdata = s.regRdata := rfl
@[simp] theorem exReturn_clsCode (s : State) (c : Code) : (s.exReturn c).clsCode = s.clsCode := rfl
@[simp] theorem exReturn_sel (s : State) (c : Code) : (s.exReturn c).sel = s.sel := rfl
@[simp] theorem exReturn_sched (s : State) (c : Code) : (s.exReturn c).sched = s.sched := rfl
@[simp] theorem exReturn_busDraws (s : State) (c : Code) : (s.exReturn c).busDraws = s.busDraws := rfl
@[simp] theorem exReturn_freeCtr (s : State) (c : Code) : (s.exReturn c).freeCtr = s.freeCtr := rfl

@[simp] theorem exGoto_buses (s : State) (e : Exs) : (s.exGoto e).buses = s.buses := rfl
@[simp] theorem exGoto_buf (s : State) (e : Exs) : (s.exGoto e).buf = s.buf := rfl
@[simp] theorem exGoto_ex (s : State) (e : Exs) : (s.exGoto e).ex = { s.ex with st := e } := rfl
@[simp] theorem exGoto_seq (s : State) (e : Exs) : (s.exGoto e).seq = s.seq := rfl
@[simp] theorem exGoto_owned (s : State) (e : Exs) : (s.exGoto e).owned = s.owned := rfl
@[simp] theorem exGoto_inst (s : State) (e : Exs) : (s.exGoto e).inst = s.inst := rfl
@[simp] theorem exGoto_rspValid (s : State) (e : Exs) : (s.exGoto e).rspValid = s.rspValid := rfl
@[simp] theorem exGoto_rspCode (s : State) (e : Exs) : (s.exGoto e).rspCode = s.rspCode := rfl
@[simp] theorem exGoto_regRdata (s : State) (e : Exs) : (s.exGoto e).regRdata = s.regRdata := rfl
@[simp] theorem exGoto_clsCode (s : State) (e : Exs) : (s.exGoto e).clsCode = s.clsCode := rfl
@[simp] theorem exGoto_sel (s : State) (e : Exs) : (s.exGoto e).sel = s.sel := rfl
@[simp] theorem exGoto_sched (s : State) (e : Exs) : (s.exGoto e).sched = s.sched := rfl
@[simp] theorem exGoto_busDraws (s : State) (e : Exs) : (s.exGoto e).busDraws = s.busDraws := rfl
@[simp] theorem exGoto_freeCtr (s : State) (e : Exs) : (s.exGoto e).freeCtr = s.freeCtr := rfl

@[simp] theorem requestCycle_buses (s : State) (d : Desc) : (s.requestCycle d).buses = s.buses := rfl
@[simp] theorem requestCycle_buf (s : State) (d : Desc) : (s.requestCycle d).buf = s.buf := rfl
@[simp] theorem requestCycle_seq (s : State) (d : Desc) : (s.requestCycle d).seq = { s.seq with st := .wait } := rfl
@[simp] theorem requestCycle_owned (s : State) (d : Desc) : (s.requestCycle d).owned = s.owned := rfl
@[simp] theorem requestCycle_inst (s : State) (d : Desc) : (s.requestCycle d).inst = s.inst := rfl
@[simp] theorem requestCycle_rspValid (s : State) (d : Desc) : (s.requestCycle d).rspValid = s.rspValid := rfl
@[simp] theorem requestCycle_rspCode (s : State) (d : Desc) : (s.requestCycle d).rspCode = s.rspCode := rfl
@[simp] theorem requestCycle_regRdata (s : State) (d : Desc) : (s.requestCycle d).regRdata = s.regRdata := rfl
@[simp] theorem requestCycle_clsCode (s : State) (d : Desc) : (s.requestCycle d).clsCode = s.clsCode := rfl
@[simp] theorem requestCycle_sel (s : State) (d : Desc) : (s.requestCycle d).sel = s.sel := rfl
@[simp] theorem requestCycle_sched (s : State) (d : Desc) : (s.requestCycle d).sched = s.sched := rfl
@[simp] theorem requestCycle_busDraws (s : State) (d : Desc) : (s.requestCycle d).busDraws = s.busDraws := rfl
@[simp] theorem requestCycle_freeCtr (s : State) (d : Desc) : (s.requestCycle d).freeCtr = s.freeCtr := rfl

@[simp] theorem takeResult_buses (s : State) : (s.takeResult).buses = s.buses := rfl
@[simp] theorem takeResult_buf (s : State) : (s.takeResult).buf = s.buf := rfl
@[simp] theorem takeResult_ex (s : State) : (s.takeResult).ex = { s.ex with result := none } := rfl
@[simp] theorem takeResult_seq (s : State) : (s.takeResult).seq = s.seq := rfl
@[simp] theorem takeResult_owned (s : State) : (s.takeResult).owned = s.owned := rfl
@[simp] theorem takeResult_inst (s : State) : (s.takeResult).inst = s.inst := rfl
@[simp] theorem takeResult_rspValid (s : State) : (s.takeResult).rspValid = s.rspValid := rfl
@[simp] theorem takeResult_rspCode (s : State) : (s.takeResult).rspCode = s.rspCode := rfl
@[simp] theorem takeResult_regRdata (s : State) : (s.takeResult).regRdata = s.regRdata := rfl
@[simp] theorem takeResult_clsCode (s : State) : (s.takeResult).clsCode = s.clsCode := rfl
@[simp] theorem takeResult_sel (s : State) : (s.takeResult).sel = s.sel := rfl
@[simp] theorem takeResult_sched (s : State) : (s.takeResult).sched = s.sched := rfl
@[simp] theorem takeResult_busDraws (s : State) : (s.takeResult).busDraws = s.busDraws := rfl
@[simp] theorem takeResult_freeCtr (s : State) : (s.takeResult).freeCtr = s.freeCtr := rfl

@[simp] theorem bindHandle_buses (s : State) : (s.bindHandle).buses = s.buses := rfl
@[simp] theorem bindHandle_buf (s : State) : (s.bindHandle).buf = s.buf := rfl
@[simp] theorem bindHandle_ex (s : State) : (s.bindHandle).ex = s.ex := rfl
@[simp] theorem bindHandle_seq (s : State) : (s.bindHandle).seq = s.seq := rfl
@[simp] theorem bindHandle_owned (s : State) : (s.bindHandle).owned = true := rfl
@[simp] theorem bindHandle_inst (s : State) : (s.bindHandle).inst = s.inst := rfl
@[simp] theorem bindHandle_rspValid (s : State) : (s.bindHandle).rspValid = true := rfl
@[simp] theorem bindHandle_rspCode (s : State) : (s.bindHandle).rspCode = .ok := rfl
@[simp] theorem bindHandle_regRdata (s : State) : (s.bindHandle).regRdata = s.regRdata := rfl
@[simp] theorem bindHandle_clsCode (s : State) : (s.bindHandle).clsCode = s.clsCode := rfl
@[simp] theorem bindHandle_sel (s : State) : (s.bindHandle).sel = s.sel := rfl
@[simp] theorem bindHandle_sched (s : State) : (s.bindHandle).sched = s.sched := rfl
@[simp] theorem bindHandle_busDraws (s : State) : (s.bindHandle).busDraws = s.busDraws := rfl
@[simp] theorem bindHandle_freeCtr (s : State) : (s.bindHandle).freeCtr = s.freeCtr := rfl

/-! ## Reads of a bus instance or a buffer byte across updates of other fields -/

@[simp] theorem memWrite_bus (s : State) (a : Nat) (v : Byte) (k : Nat) : (s.memWrite a v).bus k = s.bus k := rfl
@[simp] theorem drawn_bus (s : State) (k : Nat) : (s.drawn).bus k = s.bus k := rfl
@[simp] theorem respond_bus (s : State) (c : Code) (k : Nat) : (s.respond c).bus k = s.bus k := rfl
@[simp] theorem readDefined_bus (s : State) (m v : Word) (k : Nat) : (s.readDefined m v).bus k = s.bus k := rfl
@[simp] theorem exReturn_bus (s : State) (c : Code) (k : Nat) : (s.exReturn c).bus k = s.bus k := rfl
@[simp] theorem exGoto_bus (s : State) (e : Exs) (k : Nat) : (s.exGoto e).bus k = s.bus k := rfl
@[simp] theorem requestCycle_bus (s : State) (d : Desc) (k : Nat) : (s.requestCycle d).bus k = s.bus k := rfl
@[simp] theorem takeResult_bus (s : State) (k : Nat) : (s.takeResult).bus k = s.bus k := rfl
@[simp] theorem bindHandle_bus (s : State) (k : Nat) : (s.bindHandle).bus k = s.bus k := rfl
@[simp] theorem setBus_memRead (s : State) (k : Nat) (b : Bus) (addr : Nat) : (s.setBus k b).memRead addr = s.memRead addr := rfl
@[simp] theorem drawn_memRead (s : State) (addr : Nat) : (s.drawn).memRead addr = s.memRead addr := rfl
@[simp] theorem respond_memRead (s : State) (c : Code) (addr : Nat) : (s.respond c).memRead addr = s.memRead addr := rfl
@[simp] theorem readDefined_memRead (s : State) (m v : Word) (addr : Nat) : (s.readDefined m v).memRead addr = s.memRead addr := rfl
@[simp] theorem exReturn_memRead (s : State) (c : Code) (addr : Nat) : (s.exReturn c).memRead addr = s.memRead addr := rfl
@[simp] theorem exGoto_memRead (s : State) (e : Exs) (addr : Nat) : (s.exGoto e).memRead addr = s.memRead addr := rfl
@[simp] theorem requestCycle_memRead (s : State) (d : Desc) (addr : Nat) : (s.requestCycle d).memRead addr = s.memRead addr := rfl
@[simp] theorem takeResult_memRead (s : State) (addr : Nat) : (s.takeResult).memRead addr = s.memRead addr := rfl
@[simp] theorem bindHandle_memRead (s : State) (addr : Nat) : (s.bindHandle).memRead addr = s.memRead addr := rfl

/-! ## Updates of a bus instance -/

@[simp] theorem accept_mfe (b : Bus) (a : Action) : (b.accept a).mfe = b.mfe := rfl
@[simp] theorem accept_saAddr (b : Bus) (a : Action) : (b.accept a).saAddr = b.saAddr := rfl
@[simp] theorem accept_saRs (b : Bus) (a : Action) : (b.accept a).saRs = b.saRs := rfl
@[simp] theorem accept_drData (b : Bus) (a : Action) : (b.accept a).drData = b.drData := rfl
@[simp] theorem accept_rxValid (b : Bus) (a : Action) : (b.accept a).rxValid = b.rxValid := rfl
@[simp] theorem accept_busy (b : Bus) (a : Action) : (b.accept a).busy = b.busy := rfl
@[simp] theorem accept_error (b : Bus) (a : Action) : (b.accept a).error = false := rfl
@[simp] theorem accept_adrack (b : Bus) (a : Action) : (b.accept a).adrack = false := rfl
@[simp] theorem accept_datack (b : Bus) (a : Action) : (b.accept a).datack = false := rfl
@[simp] theorem accept_arblst (b : Bus) (a : Action) : (b.accept a).arblst = false := rfl
@[simp] theorem accept_clkto (b : Bus) (a : Action) : (b.accept a).clkto = false := rfl
@[simp] theorem accept_tpr (b : Bus) (a : Action) : (b.accept a).tpr = b.tpr := rfl
@[simp] theorem accept_eng (b : Bus) (a : Action) : (b.accept a).eng = b.eng := rfl
@[simp] theorem accept_act (b : Bus) (a : Action) : (b.accept a).act = some a := rfl
@[simp] theorem accept_lag (b : Bus) (a : Action) : (b.accept a).lag = true := rfl
@[simp] theorem accept_toArmed (b : Bus) (a : Action) : (b.accept a).toArmed = decide (b.tocCnt ≠ 0) := rfl
@[simp] theorem accept_tocCnt (b : Bus) (a : Action) : (b.accept a).tocCnt = b.tocCnt := rfl

@[simp] theorem becomeVisible_mfe (b : Bus) : (b.becomeVisible).mfe = b.mfe := rfl
@[simp] theorem becomeVisible_saAddr (b : Bus) : (b.becomeVisible).saAddr = b.saAddr := rfl
@[simp] theorem becomeVisible_saRs (b : Bus) : (b.becomeVisible).saRs = b.saRs := rfl
@[simp] theorem becomeVisible_drData (b : Bus) : (b.becomeVisible).drData = b.drData := rfl
@[simp] theorem becomeVisible_rxValid (b : Bus) : (b.becomeVisible).rxValid = b.rxValid := rfl
@[simp] theorem becomeVisible_busy (b : Bus) : (b.becomeVisible).busy = true := rfl
@[simp] theorem becomeVisible_error (b : Bus) : (b.becomeVisible).error = b.error := rfl
@[simp] theorem becomeVisible_adrack (b : Bus) : (b.becomeVisible).adrack = b.adrack := rfl
@[simp] theorem becomeVisible_datack (b : Bus) : (b.becomeVisible).datack = b.datack := rfl
@[simp] theorem becomeVisible_arblst (b : Bus) : (b.becomeVisible).arblst = b.arblst := rfl
@[simp] theorem becomeVisible_clkto (b : Bus) : (b.becomeVisible).clkto = b.clkto := rfl
@[simp] theorem becomeVisible_tpr (b : Bus) : (b.becomeVisible).tpr = b.tpr := rfl
@[simp] theorem becomeVisible_eng (b : Bus) : (b.becomeVisible).eng = b.eng := rfl
@[simp] theorem becomeVisible_act (b : Bus) : (b.becomeVisible).act = b.act := rfl
@[simp] theorem becomeVisible_lag (b : Bus) : (b.becomeVisible).lag = false := rfl
@[simp] theorem becomeVisible_toArmed (b : Bus) : (b.becomeVisible).toArmed = b.toArmed := rfl
@[simp] theorem becomeVisible_tocCnt (b : Bus) : (b.becomeVisible).tocCnt = b.tocCnt := rfl
@[simp] theorem becomeVisible_toCnt (b : Bus) : (b.becomeVisible).toCnt = b.toCnt := rfl

@[simp] theorem finish_mfe (b : Bus) (e : Eng) : (b.finish e).mfe = b.mfe := rfl
@[simp] theorem finish_saAddr (b : Bus) (e : Eng) : (b.finish e).saAddr = b.saAddr := rfl
@[simp] theorem finish_saRs (b : Bus) (e : Eng) : (b.finish e).saRs = b.saRs := rfl
@[simp] theorem finish_drData (b : Bus) (e : Eng) : (b.finish e).drData = b.drData := rfl
@[simp] theorem finish_rxValid (b : Bus) (e : Eng) : (b.finish e).rxValid = b.rxValid := rfl
@[simp] theorem finish_busy (b : Bus) (e : Eng) : (b.finish e).busy = false := rfl
@[simp] theorem finish_error (b : Bus) (e : Eng) : (b.finish e).error = b.error := rfl
@[simp] theorem finish_adrack (b : Bus) (e : Eng) : (b.finish e).adrack = b.adrack := rfl
@[simp] theorem finish_datack (b : Bus) (e : Eng) : (b.finish e).datack = b.datack := rfl
@[simp] theorem finish_arblst (b : Bus) (e : Eng) : (b.finish e).arblst = b.arblst := rfl
@[simp] theorem finish_clkto (b : Bus) (e : Eng) : (b.finish e).clkto = b.clkto := rfl
@[simp] theorem finish_tpr (b : Bus) (e : Eng) : (b.finish e).tpr = b.tpr := rfl
@[simp] theorem finish_eng (b : Bus) (e : Eng) : (b.finish e).eng = e := rfl
@[simp] theorem finish_act (b : Bus) (e : Eng) : (b.finish e).act = none := rfl
@[simp] theorem finish_lag (b : Bus) (e : Eng) : (b.finish e).lag = b.lag := rfl
@[simp] theorem finish_toArmed (b : Bus) (e : Eng) : (b.finish e).toArmed = false := rfl
@[simp] theorem finish_tocCnt (b : Bus) (e : Eng) : (b.finish e).tocCnt = b.tocCnt := rfl
@[simp] theorem finish_toCnt (b : Bus) (e : Eng) : (b.finish e).toCnt = b.toCnt := rfl

@[simp] theorem flagAddrNack_mfe (b : Bus) : (b.flagAddrNack).mfe = b.mfe := rfl
@[simp] theorem flagAddrNack_saAddr (b : Bus) : (b.flagAddrNack).saAddr = b.saAddr := rfl
@[simp] theorem flagAddrNack_saRs (b : Bus) : (b.flagAddrNack).saRs = b.saRs := rfl
@[simp] theorem flagAddrNack_drData (b : Bus) : (b.flagAddrNack).drData = b.drData := rfl
@[simp] theorem flagAddrNack_rxValid (b : Bus) : (b.flagAddrNack).rxValid = b.rxValid := rfl
@[simp] theorem flagAddrNack_busy (b : Bus) : (b.flagAddrNack).busy = b.busy := rfl
@[simp] theorem flagAddrNack_error (b : Bus) : (b.flagAddrNack).error = true := rfl
@[simp] theorem flagAddrNack_adrack (b : Bus) : (b.flagAddrNack).adrack = true := rfl
@[simp] theorem flagAddrNack_datack (b : Bus) : (b.flagAddrNack).datack = b.datack := rfl
@[simp] theorem flagAddrNack_arblst (b : Bus) : (b.flagAddrNack).arblst = b.arblst := rfl
@[simp] theorem flagAddrNack_clkto (b : Bus) : (b.flagAddrNack).clkto = b.clkto := rfl
@[simp] theorem flagAddrNack_tpr (b : Bus) : (b.flagAddrNack).tpr = b.tpr := rfl
@[simp] theorem flagAddrNack_eng (b : Bus) : (b.flagAddrNack).eng = b.eng := rfl
@[simp] theorem flagAddrNack_act (b : Bus) : (b.flagAddrNack).act = b.act := rfl
@[simp] theorem flagAddrNack_lag (b : Bus) : (b.flagAddrNack).lag = b.lag := rfl
@[simp] theorem flagAddrNack_toArmed (b : Bus) : (b.flagAddrNack).toArmed = b.toArmed := rfl
@[simp] theorem flagAddrNack_tocCnt (b : Bus) : (b.flagAddrNack).tocCnt = b.tocCnt := rfl
@[simp] theorem flagAddrNack_toCnt (b : Bus) : (b.flagAddrNack).toCnt = b.toCnt := rfl

@[simp] theorem flagDataNack_mfe (b : Bus) : (b.flagDataNack).mfe = b.mfe := rfl
@[simp] theorem flagDataNack_saAddr (b : Bus) : (b.flagDataNack).saAddr = b.saAddr := rfl
@[simp] theorem flagDataNack_saRs (b : Bus) : (b.flagDataNack).saRs = b.saRs := rfl
@[simp] theorem flagDataNack_drData (b : Bus) : (b.flagDataNack).drData = b.drData := rfl
@[simp] theorem flagDataNack_rxValid (b : Bus) : (b.flagDataNack).rxValid = b.rxValid := rfl
@[simp] theorem flagDataNack_busy (b : Bus) : (b.flagDataNack).busy = b.busy := rfl
@[simp] theorem flagDataNack_error (b : Bus) : (b.flagDataNack).error = true := rfl
@[simp] theorem flagDataNack_adrack (b : Bus) : (b.flagDataNack).adrack = b.adrack := rfl
@[simp] theorem flagDataNack_datack (b : Bus) : (b.flagDataNack).datack = true := rfl
@[simp] theorem flagDataNack_arblst (b : Bus) : (b.flagDataNack).arblst = b.arblst := rfl
@[simp] theorem flagDataNack_clkto (b : Bus) : (b.flagDataNack).clkto = b.clkto := rfl
@[simp] theorem flagDataNack_tpr (b : Bus) : (b.flagDataNack).tpr = b.tpr := rfl
@[simp] theorem flagDataNack_eng (b : Bus) : (b.flagDataNack).eng = b.eng := rfl
@[simp] theorem flagDataNack_act (b : Bus) : (b.flagDataNack).act = b.act := rfl
@[simp] theorem flagDataNack_lag (b : Bus) : (b.flagDataNack).lag = b.lag := rfl
@[simp] theorem flagDataNack_toArmed (b : Bus) : (b.flagDataNack).toArmed = b.toArmed := rfl
@[simp] theorem flagDataNack_tocCnt (b : Bus) : (b.flagDataNack).tocCnt = b.tocCnt := rfl
@[simp] theorem flagDataNack_toCnt (b : Bus) : (b.flagDataNack).toCnt = b.toCnt := rfl

@[simp] theorem flagArbLost_mfe (b : Bus) (w : Word) : (b.flagArbLost w).mfe = b.mfe := rfl
@[simp] theorem flagArbLost_saAddr (b : Bus) (w : Word) : (b.flagArbLost w).saAddr = b.saAddr := rfl
@[simp] theorem flagArbLost_saRs (b : Bus) (w : Word) : (b.flagArbLost w).saRs = b.saRs := rfl
@[simp] theorem flagArbLost_drData (b : Bus) (w : Word) : (b.flagArbLost w).drData = b.drData := rfl
@[simp] theorem flagArbLost_rxValid (b : Bus) (w : Word) : (b.flagArbLost w).rxValid = b.rxValid := rfl
@[simp] theorem flagArbLost_busy (b : Bus) (w : Word) : (b.flagArbLost w).busy = b.busy := rfl
@[simp] theorem flagArbLost_error (b : Bus) (w : Word) : (b.flagArbLost w).error = w.getLsbD 1 := rfl
@[simp] theorem flagArbLost_adrack (b : Bus) (w : Word) : (b.flagArbLost w).adrack = w.getLsbD 2 := rfl
@[simp] theorem flagArbLost_datack (b : Bus) (w : Word) : (b.flagArbLost w).datack = w.getLsbD 3 := rfl
@[simp] theorem flagArbLost_arblst (b : Bus) (w : Word) : (b.flagArbLost w).arblst = true := rfl
@[simp] theorem flagArbLost_clkto (b : Bus) (w : Word) : (b.flagArbLost w).clkto = b.clkto := rfl
@[simp] theorem flagArbLost_tpr (b : Bus) (w : Word) : (b.flagArbLost w).tpr = b.tpr := rfl
@[simp] theorem flagArbLost_eng (b : Bus) (w : Word) : (b.flagArbLost w).eng = b.eng := rfl
@[simp] theorem flagArbLost_act (b : Bus) (w : Word) : (b.flagArbLost w).act = b.act := rfl
@[simp] theorem flagArbLost_lag (b : Bus) (w : Word) : (b.flagArbLost w).lag = b.lag := rfl
@[simp] theorem flagArbLost_toArmed (b : Bus) (w : Word) : (b.flagArbLost w).toArmed = b.toArmed := rfl
@[simp] theorem flagArbLost_tocCnt (b : Bus) (w : Word) : (b.flagArbLost w).tocCnt = b.tocCnt := rfl
@[simp] theorem flagArbLost_toCnt (b : Bus) (w : Word) : (b.flagArbLost w).toCnt = b.toCnt := rfl

@[simp] theorem flagTimeout_mfe (b : Bus) (w : Word) : (b.flagTimeout w).mfe = b.mfe := rfl
@[simp] theorem flagTimeout_saAddr (b : Bus) (w : Word) : (b.flagTimeout w).saAddr = b.saAddr := rfl
@[simp] theorem flagTimeout_saRs (b : Bus) (w : Word) : (b.flagTimeout w).saRs = b.saRs := rfl
@[simp] theorem flagTimeout_drData (b : Bus) (w : Word) : (b.flagTimeout w).drData = b.drData := rfl
@[simp] theorem flagTimeout_rxValid (b : Bus) (w : Word) : (b.flagTimeout w).rxValid = b.rxValid := rfl
@[simp] theorem flagTimeout_busy (b : Bus) (w : Word) : (b.flagTimeout w).busy = b.busy := rfl
@[simp] theorem flagTimeout_error (b : Bus) (w : Word) : (b.flagTimeout w).error = w.getLsbD 1 := rfl
@[simp] theorem flagTimeout_adrack (b : Bus) (w : Word) : (b.flagTimeout w).adrack = w.getLsbD 2 := rfl
@[simp] theorem flagTimeout_datack (b : Bus) (w : Word) : (b.flagTimeout w).datack = w.getLsbD 3 := rfl
@[simp] theorem flagTimeout_arblst (b : Bus) (w : Word) : (b.flagTimeout w).arblst = w.getLsbD 4 := rfl
@[simp] theorem flagTimeout_clkto (b : Bus) (w : Word) : (b.flagTimeout w).clkto = true := rfl
@[simp] theorem flagTimeout_tpr (b : Bus) (w : Word) : (b.flagTimeout w).tpr = b.tpr := rfl
@[simp] theorem flagTimeout_eng (b : Bus) (w : Word) : (b.flagTimeout w).eng = b.eng := rfl
@[simp] theorem flagTimeout_act (b : Bus) (w : Word) : (b.flagTimeout w).act = b.act := rfl
@[simp] theorem flagTimeout_lag (b : Bus) (w : Word) : (b.flagTimeout w).lag = b.lag := rfl
@[simp] theorem flagTimeout_toArmed (b : Bus) (w : Word) : (b.flagTimeout w).toArmed = b.toArmed := rfl
@[simp] theorem flagTimeout_tocCnt (b : Bus) (w : Word) : (b.flagTimeout w).tocCnt = b.tocCnt := rfl
@[simp] theorem flagTimeout_toCnt (b : Bus) (w : Word) : (b.flagTimeout w).toCnt = b.toCnt := rfl

/-! ## A receive phase touches `DR` and `RXVALID` only -/

@[simp] theorem receive_mfe (b : Bus) (a : Action) (d : Byte) (valid : Bool) : (b.receive a d valid).mfe = b.mfe := by
  unfold Bus.receive; split <;> rfl
@[simp] theorem receive_saAddr (b : Bus) (a : Action) (d : Byte) (valid : Bool) : (b.receive a d valid).saAddr = b.saAddr := by
  unfold Bus.receive; split <;> rfl
@[simp] theorem receive_saRs (b : Bus) (a : Action) (d : Byte) (valid : Bool) : (b.receive a d valid).saRs = b.saRs := by
  unfold Bus.receive; split <;> rfl
theorem receive_drData (b : Bus) (a : Action) (d : Byte) (valid : Bool) : (b.receive a d valid).drData = if a.receives then d else b.drData := by
  unfold Bus.receive; split <;> rfl
theorem receive_rxValid (b : Bus) (a : Action) (d : Byte) (valid : Bool) : (b.receive a d valid).rxValid = if a.receives then valid else b.rxValid := by
  unfold Bus.receive; split <;> rfl
@[simp] theorem receive_busy (b : Bus) (a : Action) (d : Byte) (valid : Bool) : (b.receive a d valid).busy = b.busy := by
  unfold Bus.receive; split <;> rfl
@[simp] theorem receive_error (b : Bus) (a : Action) (d : Byte) (valid : Bool) : (b.receive a d valid).error = b.error := by
  unfold Bus.receive; split <;> rfl
@[simp] theorem receive_adrack (b : Bus) (a : Action) (d : Byte) (valid : Bool) : (b.receive a d valid).adrack = b.adrack := by
  unfold Bus.receive; split <;> rfl
@[simp] theorem receive_datack (b : Bus) (a : Action) (d : Byte) (valid : Bool) : (b.receive a d valid).datack = b.datack := by
  unfold Bus.receive; split <;> rfl
@[simp] theorem receive_arblst (b : Bus) (a : Action) (d : Byte) (valid : Bool) : (b.receive a d valid).arblst = b.arblst := by
  unfold Bus.receive; split <;> rfl
@[simp] theorem receive_clkto (b : Bus) (a : Action) (d : Byte) (valid : Bool) : (b.receive a d valid).clkto = b.clkto := by
  unfold Bus.receive; split <;> rfl
@[simp] theorem receive_tpr (b : Bus) (a : Action) (d : Byte) (valid : Bool) : (b.receive a d valid).tpr = b.tpr := by
  unfold Bus.receive; split <;> rfl
@[simp] theorem receive_eng (b : Bus) (a : Action) (d : Byte) (valid : Bool) : (b.receive a d valid).eng = b.eng := by
  unfold Bus.receive; split <;> rfl
@[simp] theorem receive_act (b : Bus) (a : Action) (d : Byte) (valid : Bool) : (b.receive a d valid).act = b.act := by
  unfold Bus.receive; split <;> rfl
@[simp] theorem receive_lag (b : Bus) (a : Action) (d : Byte) (valid : Bool) : (b.receive a d valid).lag = b.lag := by
  unfold Bus.receive; split <;> rfl
@[simp] theorem receive_toArmed (b : Bus) (a : Action) (d : Byte) (valid : Bool) : (b.receive a d valid).toArmed = b.toArmed := by
  unfold Bus.receive; split <;> rfl
@[simp] theorem receive_tocCnt (b : Bus) (a : Action) (d : Byte) (valid : Bool) : (b.receive a d valid).tocCnt = b.tocCnt := by
  unfold Bus.receive; split <;> rfl
@[simp] theorem receive_toCnt (b : Bus) (a : Action) (d : Byte) (valid : Bool) : (b.receive a d valid).toCnt = b.toCnt := by
  unfold Bus.receive; split <;> rfl

end Sys2Proof.Machine
end

