-- ==== Sys2Proof/Laws/Ops.lean ====
section
/-! SUPPORT. What each shared operation can do, said once: outcomes, host access, register writes, the command strobe,
status reads. -/

namespace Sys2Proof.Machine

/-! ## Outcomes -/

@[simp] theorem andThen_of_next (s : State) (f : State → Out) : andThen (.next s) f = f s := rfl

theorem andThen_next {o : Out} {f : State → Out} {t : State} (h : andThen o f = .next t) :
    ∃ s, o = .next s ∧ f s = .next t := by
  cases o with
  | next s => exact ⟨s, rfl, h⟩
  | fault r => cases h
  | refused r => cases h

theorem nextState?_eq_some {o : Out} {t : State} : nextState? o = some t ↔ o = .next t := by
  cases o <;> simp [nextState?]

theorem faultOf?_eq_some {o : Out} {r : Fault} : faultOf? o = some r ↔ o = .fault r := by
  cases o <;> simp [faultOf?]

theorem refusalOf?_eq_some {o : Out} {r : Refusal} : refusalOf? o = some r ↔ o = .refused r := by
  cases o <;> simp [refusalOf?]

/-! ## Host access -/

theorem hostAccess_reaches {s : State} {k : Nat} (h : s.HostReaches k) (f : Nat → Out) : hostAccess s f = f k := by
  obtain ⟨rfl, hk, ho⟩ := h
  unfold hostAccess
  rw [if_pos hk, if_neg]
  simp only [Bool.and_eq_true, beq_iff_eq, not_and]
  exact fun h1 h2 => ho ⟨h1, h2.symm⟩

theorem hostAccess_next {s t : State} {f : Nat → Out} (h : hostAccess s f = .next t) :
    s.HostReaches s.sel ∧ f s.sel = .next t := by
  unfold hostAccess at h
  split at h
  · next hk =>
    split at h
    · cases h
    · next ho =>
      refine ⟨⟨rfl, hk, fun ⟨h1, h2⟩ => ho ?_⟩, h⟩
      simp [h1, h2]
  · cases h

/-! ## Masks of defined bits -/

theorem mask_eq_zero (n : Nat) (w : Word) :
    w &&& ~~~(BitVec.ofNat 32 (2 ^ n - 1)) = 0 ↔ w.toNat < 2 ^ n := by
  constructor
  · intro h
    by_contra hlt
    obtain ⟨i, hi, hbit⟩ := Nat.exists_ge_and_testBit_of_ge_two_pow (Nat.le_of_not_lt hlt)
    have hi32 : i < 32 := by
      by_contra h32
      have : w.toNat.testBit i = false :=
        Nat.testBit_lt_two_pow (Nat.lt_of_lt_of_le w.isLt (Nat.pow_le_pow_right (by decide) (Nat.le_of_not_lt h32)))
      simp [this] at hbit
    have := congrArg (fun v => v.getLsbD i) h
    simp only [BitVec.getLsbD_and, BitVec.getLsbD_not, BitVec.getLsbD_ofNat, Nat.testBit_two_pow_sub_one] at this
    simp only [BitVec.getLsbD, hbit] at this
    simp [hi32, Nat.not_lt.2 hi] at this
  · intro h
    apply BitVec.eq_of_getLsbD_eq
    intro i hi
    simp only [BitVec.getLsbD_and, BitVec.getLsbD_not, BitVec.getLsbD_ofNat, Nat.testBit_two_pow_sub_one]
    by_cases hn : i < n
    · simp [hi, hn]
    · have : w.getLsbD i = false :=
        Nat.testBit_lt_two_pow (Nat.lt_of_lt_of_le h (Nat.pow_le_pow_right (by decide) (Nat.le_of_not_lt hn)))
      simp [this]

theorem mask8_eq_zero (w : Word) : w &&& ~~~(0xFF : Word) = 0 ↔ w.toNat < 256 := mask_eq_zero 8 w

theorem mask7_eq_zero (w : Word) : w &&& ~~~(0x7F : Word) = 0 ↔ w.toNat < 128 := mask_eq_zero 7 w

theorem mask4_eq_zero (w : Word) : w &&& ~~~(0xF : Word) = 0 ↔ w.toNat < 16 := mask_eq_zero 4 w

theorem maskMfe_eq_zero (w : Word) : w &&& ~~~(0x10 : Word) = 0 ↔ w = 0 ∨ w = 0x10 := by
  constructor
  · intro h
    have bits : ∀ i, i < 32 → i ≠ 4 → w.getLsbD i = false := by
      intro i hi h4
      have m : (~~~(0x10 : Word)).getLsbD i = true := by revert h4 hi; revert i; decide
      have := congrArg (fun v => v.getLsbD i) h
      simp only [BitVec.getLsbD_and, m, Bool.and_true] at this
      simpa using this
    by_cases h4 : w.getLsbD 4 = true
    · right
      apply BitVec.eq_of_getLsbD_eq
      intro i hi
      by_cases hi4 : i = 4
      · subst hi4; rw [h4]; decide
      · rw [bits i hi hi4]; revert hi4 hi; revert i; decide
    · left
      apply BitVec.eq_of_getLsbD_eq
      intro i hi
      by_cases hi4 : i = 4
      · subst hi4; simpa using h4
      · rw [bits i hi hi4]; simp
  · rintro (rfl | rfl) <;> decide

/-! ## Register writes -/

theorem occupied_eq_false {b : Bus} : b.occupied = false ↔ b.busy = false ∧ b.lag = false := by
  simp [Bus.occupied]

theorem occupied_eq_true {b : Bus} : b.occupied = true ↔ b.busy = true ∨ b.lag = true := by
  simp [Bus.occupied]

theorem guardedWrite_reserved {k : Nat} {w m : Word} {s : State} {f : Bus → Out} (h : ¬(w &&& ~~~m = 0)) :
    guardedWrite k w m s f = .fault .reservedBitSet := if_pos h

theorem guardedWrite_occupied {k : Nat} {w m : Word} {s : State} {f : Bus → Out} (h : w &&& ~~~m = 0)
    (ho : (s.bus k).occupied = true) : guardedWrite k w m s f = .fault .writeWhileBusy := by
  unfold guardedWrite; rw [if_neg (by simpa using h), if_pos ho]

theorem guardedWrite_free {k : Nat} {w m : Word} {s : State} {f : Bus → Out} (h : w &&& ~~~m = 0)
    (ho : (s.bus k).occupied = false) : guardedWrite k w m s f = f (s.bus k) := by
  unfold guardedWrite; rw [if_neg (by simpa using h), if_neg (by simp [ho])]

theorem guardedWrite_next {k : Nat} {w m : Word} {s t : State} {f : Bus → Out} (h : guardedWrite k w m s f = .next t) :
    w &&& ~~~m = 0 ∧ (s.bus k).occupied = false ∧ f (s.bus k) = .next t := by
  unfold guardedWrite at h
  split at h
  · cases h
  · next h1 =>
    split at h
    · cases h
    · next h2 => exact ⟨by simpa using h1, by simpa using h2, h⟩

theorem writeSa_next {k : Nat} {w : Word} {s t : State} (h : writeSa k w s = .next t) :
    (s.bus k).occupied = false ∧
      t = s.setBus k { s.bus k with saAddr := w.extractLsb' 1 7, saRs := w.getLsbD 0 } := by
  obtain ⟨-, h1, h2⟩ := guardedWrite_next h
  exact ⟨h1, by injection h2 with h2; exact h2.symm⟩

theorem writeDr_next {k : Nat} {w : Word} {s t : State} (h : writeDr k w s = .next t) :
    (s.bus k).occupied = false ∧
      t = s.setBus k { s.bus k with drData := w.extractLsb' 0 8, rxValid := false } := by
  obtain ⟨-, h1, h2⟩ := guardedWrite_next h
  exact ⟨h1, by injection h2 with h2; exact h2.symm⟩

theorem writeTpr_next {k : Nat} {w : Word} {s t : State} (h : writeTpr k w s = .next t) :
    (s.bus k).occupied = false ∧ t = s.setBus k { s.bus k with tpr := w.extractLsb' 0 7 } := by
  obtain ⟨-, h1, h2⟩ := guardedWrite_next h
  exact ⟨h1, by injection h2 with h2; exact h2.symm⟩

theorem writeToc_next {k : Nat} {w : Word} {s t : State} (h : writeToc k w s = .next t) :
    (s.bus k).occupied = false ∧ t = s.setBus k { s.bus k with tocCnt := w.extractLsb' 0 8 } := by
  obtain ⟨-, h1, h2⟩ := guardedWrite_next h
  exact ⟨h1, by injection h2 with h2; exact h2.symm⟩

theorem writeCr_next {k : Nat} {w : Word} {s t : State} (h : writeCr k w s = .next t) :
    (s.bus k).occupied = false ∧ (w.getLsbD 4 = false → (s.bus k).eng = .idle) ∧
      t = s.setBus k { s.bus k with mfe := w.getLsbD 4 } := by
  obtain ⟨-, h1, h2⟩ := guardedWrite_next h
  split at h2
  · cases h2
  · next h3 =>
    refine ⟨h1, fun h4 => ?_, by injection h2 with h2; exact h2.symm⟩
    by_contra h5
    exact h3 ⟨h4, h5⟩

/-- The command strobe with a reserved bit: the first check (R110). -/
theorem writeCmd_reserved {w : Word} (h : 16 ≤ w.toNat) (k : Nat) (s : State) : writeCmd k w s = .fault .reservedBitSet := by
  unfold writeCmd
  rw [if_pos fun hz => by have := (mask4_eq_zero w).1 hz; omega]

/-- The command strobe, where every check but the table's passes. -/
theorem writeCmd_admitted {k : Nat} {w : Word} {s : State} (hw : w.toNat < 16) (hm : (s.bus k).mfe = true)
    (ho : (s.bus k).occupied = false) :
    writeCmd k w s = match engDecode (s.bus k).eng (s.bus k).saRs (w.extractLsb' 0 4) with
      | .illegal  => .fault .illegalCommand
      | .nop      => .next s
      | .action a => .next (s.setBus k ((s.bus k).accept a)) := by
  unfold writeCmd
  rw [if_neg (by simpa using (mask4_eq_zero w).2 hw), if_neg (by simp [hm]), if_neg (by simp [ho])] <;>
    cases engDecode (s.bus k).eng (s.bus k).saRs (w.extractLsb' 0 4) <;> rfl

theorem writeCmd_next {k : Nat} {w : Word} {s t : State} (h : writeCmd k w s = .next t) :
    (s.bus k).mfe = true ∧ (s.bus k).occupied = false ∧
      ((engDecode (s.bus k).eng (s.bus k).saRs (w.extractLsb' 0 4) = .nop ∧ t = s) ∨
        ∃ a, engDecode (s.bus k).eng (s.bus k).saRs (w.extractLsb' 0 4) = .action a ∧
          t = s.setBus k ((s.bus k).accept a)) := by
  unfold writeCmd at h
  split at h
  · cases h
  split at h
  · cases h
  next h1 =>
  split at h
  · cases h
  next h2 =>
  refine ⟨by simpa using h1, by simpa using h2, ?_⟩
  split at h
  · cases h
  · next hd => injection h with h; exact .inl ⟨hd, h.symm⟩
  · next a hd => injection h with h; exact .inr ⟨a, hd, h.symm⟩

/-! ## Status reads: only draws are used up -/

theorem busAnswered_frame (s : State) : ∃ l n, s.busAnswered = { s with busDraws := l, freeCtr := n } := by
  unfold State.busAnswered
  split
  · exact ⟨_, s.freeCtr, rfl⟩
  · exact ⟨s.busDraws, s.freeCtr + 1, rfl⟩

theorem busBusyRead_frame (s : State) (k : Nat) : ∃ l n, s.busBusyRead k = { s with busDraws := l, freeCtr := n } := by
  unfold State.busBusyRead
  split
  · exact ⟨s.busDraws, s.freeCtr, rfl⟩
  · exact busAnswered_frame s

theorem statRead_frame (s : State) (k : Nat) : ∃ l n, s.statRead k = { s with busDraws := l, freeCtr := n } := by
  unfold State.statRead
  obtain ⟨l, n, h⟩ := busBusyRead_frame s k
  rw [h]
  split
  · exact ⟨l, n + 1, rfl⟩
  · exact ⟨l, n, rfl⟩

@[simp] theorem statRead_buses (s : State) (k : Nat) : (s.statRead k).buses = s.buses := by
  obtain ⟨l, n, h⟩ := statRead_frame s k; rw [h]
@[simp] theorem statRead_buf (s : State) (k : Nat) : (s.statRead k).buf = s.buf := by
  obtain ⟨l, n, h⟩ := statRead_frame s k; rw [h]
@[simp] theorem statRead_ex (s : State) (k : Nat) : (s.statRead k).ex = s.ex := by
  obtain ⟨l, n, h⟩ := statRead_frame s k; rw [h]
@[simp] theorem statRead_seq (s : State) (k : Nat) : (s.statRead k).seq = s.seq := by
  obtain ⟨l, n, h⟩ := statRead_frame s k; rw [h]
@[simp] theorem statRead_owned (s : State) (k : Nat) : (s.statRead k).owned = s.owned := by
  obtain ⟨l, n, h⟩ := statRead_frame s k; rw [h]
@[simp] theorem statRead_inst (s : State) (k : Nat) : (s.statRead k).inst = s.inst := by
  obtain ⟨l, n, h⟩ := statRead_frame s k; rw [h]
@[simp] theorem statRead_rspValid (s : State) (k : Nat) : (s.statRead k).rspValid = s.rspValid := by
  obtain ⟨l, n, h⟩ := statRead_frame s k; rw [h]
@[simp] theorem statRead_rspCode (s : State) (k : Nat) : (s.statRead k).rspCode = s.rspCode := by
  obtain ⟨l, n, h⟩ := statRead_frame s k; rw [h]
@[simp] theorem statRead_regRdata (s : State) (k : Nat) : (s.statRead k).regRdata = s.regRdata := by
  obtain ⟨l, n, h⟩ := statRead_frame s k; rw [h]
@[simp] theorem statRead_clsCode (s : State) (k : Nat) : (s.statRead k).clsCode = s.clsCode := by
  obtain ⟨l, n, h⟩ := statRead_frame s k; rw [h]
@[simp] theorem statRead_sel (s : State) (k : Nat) : (s.statRead k).sel = s.sel := by
  obtain ⟨l, n, h⟩ := statRead_frame s k; rw [h]
@[simp] theorem statRead_sched (s : State) (k : Nat) : (s.statRead k).sched = s.sched := by
  obtain ⟨l, n, h⟩ := statRead_frame s k; rw [h]
@[simp] theorem statRead_bus (s : State) (k m : Nat) : (s.statRead k).bus m = s.bus m := by
  unfold State.bus; rw [statRead_buses]
@[simp] theorem statRead_memRead (s : State) (k a : Nat) : (s.statRead k).memRead a = s.memRead a := by
  unfold State.memRead; rw [statRead_buf]

/-- A status read while the engine owns the bus or is busy, outside the busy lag, uses up no draw. -/
theorem statRead_eq_self {s : State} {k : Nat} (hl : (s.bus k).lag = false) (hh : (s.bus k).holdsBus = true) :
    s.statRead k = s := by
  simp [State.statRead, State.busBusyRead, hl, hh]

/-- Outside the busy lag the snapshot is the flags (R100). -/
theorem statSnap_of_visible {s : State} {k : Nat} (hl : (s.bus k).lag = false) :
    s.statSnap k = (s.bus k).snap (s.busBusy k) := by
  simp [State.statSnap, hl]

@[simp] theorem snap_classify (b : Bus) (busbsy : Bool) : (b.snap busbsy).classify = b.outcome := rfl

/-! ## Register reads -/

/-- A bit that the mask defines shows the register. -/
theorem readDefined_bit (s : State) (mask value : Word) (i : Nat) (h : mask.getLsbD i = true) :
    (s.readDefined mask value).regRdata.getLsbD i = value.getLsbD i := by
  have hi : i < 32 := BitVec.lt_of_getLsbD h
  simp only [readDefined_regRdata, BitVec.getLsbD_or, BitVec.getLsbD_and, BitVec.getLsbD_not, h]
  simp

/-- A field that the mask defines shows the register. -/
theorem readDefined_field (s : State) (mask value : Word) (lo n : Nat)
    (h : ∀ i, i < n → mask.getLsbD (lo + i) = true) :
    (s.readDefined mask value).regRdata.extractLsb' lo n = value.extractLsb' lo n := by
  apply BitVec.eq_of_getLsbD_eq
  intro i hi
  rw [BitVec.getLsbD_extractLsb', BitVec.getLsbD_extractLsb', readDefined_bit _ _ _ _ (h i hi)]

/-- The bits of a snapshot as a word (R79). -/
theorem snap_word_bits (n : Snap) :
    n.word.getLsbD 0 = n.busy ∧ n.word.getLsbD 1 = n.error ∧ n.word.getLsbD 2 = n.adrack ∧
    n.word.getLsbD 3 = n.datack ∧ n.word.getLsbD 4 = n.arblst ∧ n.word.getLsbD 6 = n.busbsy ∧
    n.word.getLsbD 7 = n.clkto := by
  obtain ⟨a, b, c, d, e, f, g⟩ := n
  revert a b c d e f g
  decide

/-- During and after the busy lag alike, `BUSBSY` is its rule's value (R38, R100). -/
theorem statSnap_busbsy (s : State) (k : Nat) : (s.statSnap k).busbsy = s.busBusy k := by
  unfold State.statSnap; split <;> rfl

end Sys2Proof.Machine
end

