-- ==== Sys2Proof/Laws/Agents.lean ====
section
/-! SUPPORT. What a step is, by the head of the schedule, and what the search for a fair step finds. -/

namespace Sys2Proof.Machine

/-! ## The schedule -/

theorem step_of_cons {s : State} {m : Move} {rest : List Move} (h : s.sched = m :: rest) :
    step s = runMove m { s with sched := rest } := by
  unfold step agentStep; rw [h]

theorem step_of_nil {s : State} (h : s.sched = []) : step s = fairStep s := by
  unfold step agentStep; rw [h]

theorem runPacket_ok {p : Packet} {i : Instr} (h : decode p = .ok i) (s : State) : runPacket p s = exec i s := by
  unfold runPacket; rw [h]

/-- A packet with a next state is an instruction's, or that of a port at rest, which changes nothing. -/
theorem runPacket_next {p : Packet} {s t : State} (h : runPacket p s = .next t) :
    (decode p = .error .atRest ∧ t = s) ∨ ∃ i, decode p = .ok i ∧ exec i s = .next t := by
  unfold runPacket at h
  split at h
  · next i hi => exact .inr ⟨i, hi, h⟩
  · next e he =>
    cases e
    case reservedCommandBits => cases (hostAccess_next (f := fun _ => .fault .reservedBitSet) h).2
    case atRest => cases h; exact .inl ⟨he, rfl⟩
    all_goals cases h

/-- A bare command word with a reserved bit is answered as WR_CMD answers it: refused where the host does not reach the
instance, else a fault (R63, R110). -/
theorem runPacket_reservedCommand {w : Word} (h : 16 ≤ w.toNat) (s : State) :
    runPacket ⟨.cmdWord, [w.toNat]⟩ s = exec (.wrCmd w) s := by
  have hd : decode ⟨.cmdWord, [w.toNat]⟩ = .error .reservedCommandBits := by
    have hc : commandOf w.toNat = none := by
      unfold commandOf
      split <;> first | rfl | omega
    have := w.isLt
    unfold decode decodeCommand
    simp [hc, this]
  unfold runPacket
  rw [hd]
  show hostAccess s (fun _ => .fault .reservedBitSet) = hostAccess s fun k => writeCmd k w s
  exact congrArg (hostAccess s) (funext fun k => (writeCmd_reserved h k s).symm)

theorem decode_cycle {cmd : Word} (h : cmd.toNat < 16) (wc : WaitCond) :
    decode ⟨.executor, [cmd.toNat, wc.code]⟩ = .ok (.execute cmd wc) := by
  cases wc <;> simp [decode, decodeCycle, cmd.isLt, WaitCond.code, waitCondOfCode, h]

theorem decode_recovery : decode ⟨.recovery, [4]⟩ = .ok .nackStop := rfl

theorem decode_detector : decode ⟨.detector, []⟩ = .ok .timeoutExpire := rfl

/-- The instruction a descriptor is issued with (R90). -/
theorem decode_descriptor {d : Desc} (h : d.fits = true) :
    decode ⟨.descriptor, d.words⟩ =
      .ok (issueInstr d) := by
  obtain ⟨dir, len, base⟩ := d
  cases dir <;> simp [decode, decodeDescriptor, Desc.words, Dir.bit, dirOfBit, issueInstr, h]

theorem fetchSeq_some {s : State} {d : Desc} (h1 : s.seq.st = .issue) (h2 : s.ex.st = .idle)
    (h3 : s.seq.ops[s.seq.i]? = some d) : s.fetchSeq = some (issueInstr d) := by
  unfold State.fetchSeq; rw [if_pos ⟨h1, h2⟩, h3]; rfl

theorem seqMove_issue {s : State} {d : Desc} (h1 : s.seq.st = .issue) (h2 : s.ex.st = .idle)
    (h3 : s.seq.ops[s.seq.i]? = some d) : seqMove s = exec (issueInstr d) s := by
  unfold seqMove; rw [fetchSeq_some h1 h2 h3]

/-! ## Host addresses (R52) -/

/-- The windows of two instances share no address, whatever the free placing. -/
theorem windows_disjoint {j k : Nat} (hj : j < Config.nInstances) (hk : k < Config.nInstances) (h : j ≠ k) :
    Config.base j + Config.windowBytes ≤ Config.base k ∨ Config.base k + Config.windowBytes ≤ Config.base j := by
  unfold Config.base
  split
  · next hd =>
    have := List.all_eq_true.1 (List.all_eq_true.1 hd j (by simpa using hj)) k (by simpa using hk)
    simpa [h] using this
  · unfold Config.windowBytes; omega

/-- The address of a register leads back to its window and offset. -/
theorem windowAt_regAddress {k offset : Nat} (hk : k < Config.nInstances) (ho : offset < Config.windowBytes) :
    windowAt (regAddress k offset) = some (k, offset) := by
  have hin : inWindow (regAddress k offset) k = true := by simp [inWindow, regAddress, ho]
  unfold windowAt
  cases hf : (List.range Config.nInstances).find? (inWindow (regAddress k offset)) with
  | none => have := List.find?_eq_none.1 hf k (by simpa using hk); exact absurd hin this
  | some m =>
    have h1 := List.find?_some hf
    have hm : m < Config.nInstances := by simpa using List.mem_of_find?_eq_some hf
    have : m = k := by
      by_contra hne
      have := windows_disjoint hm hk hne
      unfold inWindow regAddress at h1
      rw [Bool.and_eq_true, decide_eq_true_iff, decide_eq_true_iff] at h1
      omega
    subst this
    simp [regAddress]

/-- No window holds an address outside all of them. -/
theorem windowAt_none {addr : Nat} (h : ∀ k, k < Config.nInstances → addr < Config.base k ∨ Config.base k + Config.windowBytes ≤ addr) :
    windowAt addr = none := by
  unfold windowAt
  rw [List.find?_eq_none.2]
  intro k hk
  have := h k (by simpa using hk)
  unfold inWindow
  rw [Bool.and_eq_true, decide_eq_true_iff, decide_eq_true_iff]
  omega

/-! ## The search for a fair step -/

theorem firstBus_some {f : Bus → Bool} (hr : f Bus.reset = false) {m : List (Nat × Bus)} {k : Nat}
    (hw : sparseWf Bus.reset m = true) (h : firstBus f m = some k) : f (sparseGet Bus.reset m k) = true := by
  induction m with
  | nil => cases h
  | cons p m ih =>
    obtain ⟨-, h2, h3⟩ := (sparseWf_cons _ _ _).1 hw
    simp only [firstBus] at h
    split at h
    · next hf => cases h; simpa [sparseGet] using hf
    · have := ih h3 h
      simp only [sparseGet]
      split
      · next hk => subst hk; rw [sparseGet_below _ h2, hr] at this; cases this
      · exact this

theorem firstBus_none {f : Bus → Bool} (hr : f Bus.reset = false) {m : List (Nat × Bus)}
    (h : firstBus f m = none) (k : Nat) : f (sparseGet Bus.reset m k) = false := by
  induction m with
  | nil => exact hr
  | cons p m ih =>
    simp only [firstBus] at h
    split at h
    · cases h
    · next hf =>
      simp only [sparseGet]
      split
      · simpa using hf
      · exact ih h

/-- The search finds nothing where no instance has the property. -/
theorem firstBus_eq_none {f : Bus → Bool} (hr : f Bus.reset = false) {m : List (Nat × Bus)}
    (hw : sparseWf Bus.reset m = true) (h : ∀ k, f (sparseGet Bus.reset m k) = false) : firstBus f m = none := by
  cases hf : firstBus f m with
  | none => rfl
  | some k => have := firstBus_some hr hw hf; rw [h k] at this; cases this

/-- The search finds an instance where one has the property. -/
theorem firstBus_found {f : Bus → Bool} (hr : f Bus.reset = false) {m : List (Nat × Bus)} {k : Nat}
    (hw : sparseWf Bus.reset m = true) (h : f (sparseGet Bus.reset m k) = true) :
    ∃ n, firstBus f m = some n ∧ f (sparseGet Bus.reset m n) = true := by
  cases hf : firstBus f m with
  | none => have := firstBus_none hr hf k; rw [h] at this; cases this
  | some n => exact ⟨n, rfl, firstBus_some hr hw hf⟩

end Sys2Proof.Machine
end

