-- ==== Sys2Proof/Laws/Decode.lean ====
section
/-! SUPPORT. Small lemmas about the encoding tables: each table and its reverse agree. -/

namespace Sys2Proof

theorem descsOf_descWords (ds : List Desc) : descsOf (descWords ds) = some ds := by
  induction ds with
  | nil => rfl
  | cons d ds ih => obtain ⟨dir, len, base⟩ := d; cases dir <;> simp [descWords, descsOf, Dir.bit, dirOfBit, ih]

theorem descsOf_some {ws : List Nat} {ds : List Desc} (h : descsOf ws = some ds) : descWords ds = ws := by
  induction ds generalizing ws with
  | nil =>
    unfold descsOf at h
    split at h
    · rfl
    · split at h <;> simp at h
    · cases h
  | cons d ds ih =>
    unfold descsOf at h
    split at h
    · cases h
    · next a len base rest =>
      split at h
      · next dir ds' hd hr =>
        injection h with h
        obtain ⟨rfl, rfl⟩ := List.cons.inj h
        simp only [descWords, ih hr]
        unfold dirOfBit at hd
        split at hd <;> cases hd <;> rfl
      · cases h
    · cases h

theorem readAt_enc {n : Nat} {i : Instr} (h : readAt n = some i) : encode i = ⟨.regWord, [n]⟩ ∧ i.wellFormed = true := by
  unfold readAt at h
  split at h <;> cases h <;> exact ⟨rfl, rfl⟩

theorem writeAt_enc {w : Word} {n : Nat} {i : Instr} (h : writeAt w n = some i) :
    encode i = ⟨.regWord, [0x1000 + n, w.toNat]⟩ ∧ i.wellFormed = true := by
  unfold writeAt at h
  split at h <;> cases h <;> exact ⟨rfl, rfl⟩

end Sys2Proof
end

