-- ==== Sys2Proof/Laws/Executor.lean ====
section
/-! SUPPORT. What the bus engine, the detector and the executor's steps do, said once for each. -/

namespace Sys2Proof.Machine

/-! ## Completion and expiry of an instance -/

@[simp] theorem receive_of_receives (b : Bus) {a : Action} (d : Byte) (v : Bool) (h : a.receives = true) :
    b.receive a d v = { b with drData := d, rxValid := v } := if_pos h

@[simp] theorem receive_of_not_receives (b : Bus) {a : Action} (d : Byte) (v : Bool) (h : a.receives = false) :
    b.receive a d v = b := by simp [Bus.receive, h]

/-- A receive phase changes `DR` and `RXVALID` and nothing else. -/
theorem receive_frame (b : Bus) (a : Action) (d : Byte) (v : Bool) :
    ∃ d' v', b.receive a d v = { b with drData := d', rxValid := v' } := by
  unfold Bus.receive
  split
  · exact ⟨d, v, rfl⟩
  · exact ⟨b.drData, b.rxValid, rfl⟩

/-- A completion ends the action and keeps the registers but `DR`. -/
theorem completed_frame (b : Bus) (a : Action) (o : EnvOutcome) (w : Word) (e : Byte) :
    (b.completed a o w e).busy = false ∧ (b.completed a o w e).act = none ∧ (b.completed a o w e).toArmed = false ∧
    (b.completed a o w e).lag = b.lag ∧ (b.completed a o w e).mfe = b.mfe ∧ (b.completed a o w e).clkto = b.clkto ∧
    (b.completed a o w e).saAddr = b.saAddr ∧ (b.completed a o w e).saRs = b.saRs ∧
    (b.completed a o w e).tpr = b.tpr ∧ (b.completed a o w e).tocCnt = b.tocCnt := by
  cases o with
  | ok d => obtain ⟨d', v', h⟩ := receive_frame b a d true; simp only [Bus.completed, h]; simp
  | addrNack held => simp [Bus.completed]
  | dataNack held => simp [Bus.completed]
  | arbLost => obtain ⟨d', v', h⟩ := receive_frame (b.flagArbLost w) a e false; simp only [Bus.completed, h]; simp

/-- An expiry ends the action, sets `CLKTO` and keeps the registers but `DR`. -/
theorem expired_frame (b : Bus) (w : Word) (e : Byte) (g : Eng) :
    (b.expired w e g).busy = false ∧ (b.expired w e g).act = none ∧ (b.expired w e g).toArmed = false ∧
    (b.expired w e g).lag = b.lag ∧ (b.expired w e g).mfe = b.mfe ∧ (b.expired w e g).clkto = true ∧
    (b.expired w e g).saAddr = b.saAddr ∧ (b.expired w e g).saRs = b.saRs ∧
    (b.expired w e g).tpr = b.tpr ∧ (b.expired w e g).tocCnt = b.tocCnt := by
  unfold Bus.expired
  cases b.act with
  | none => simp
  | some a => obtain ⟨d', v', h⟩ := receive_frame (b.flagTimeout w) a e false; simp only [h]; simp

/-- The completion step of an instance, where an action is in progress. -/
theorem complete_some {s : State} {k : Nat} {o : EnvOutcome} {a : Action} (h : (s.bus k).act = some a) :
    ∃ n, s.complete k o = { s.setBus k ((s.bus k).completed a o s.anyWord s.anyByte) with freeCtr := n } := by
  unfold State.complete
  rw [h]
  dsimp only
  split
  · exact ⟨_, rfl⟩
  · exact ⟨s.freeCtr, rfl⟩

theorem canComplete_iff {b : Bus} {o : EnvOutcome} :
    b.canComplete o = true ↔ b.busy = true ∧ b.lag = false ∧ ∃ a, b.act = some a ∧ a.admits o = true := by
  unfold Bus.canComplete
  cases b.act <;> simp [and_assoc]

theorem canExpire_iff {b : Bus} : b.canExpire = true ↔ b.toArmed = true ∧ b.busy = true ∧ b.lag = false := by
  simp [Bus.canExpire, and_assoc]

/-! ## The executor's steps -/

theorem execExecute_idle {s : State} {cmd : Word} {wc : WaitCond} (hr : s.ex.req = some (cmd, wc))
    (hs : s.ex.st = .idle) : execExecute cmd wc s = exStart cmd wc s := by
  unfold execExecute; rw [if_pos hr, hs]

theorem execExecute_settle {s : State} {cmd : Word} {wc : WaitCond} (hr : s.ex.req = some (cmd, wc))
    (hs : s.ex.st = .settle) : execExecute cmd wc s = exSettle s := by
  unfold execExecute; rw [if_pos hr, hs]

theorem execExecute_poll {s : State} {cmd : Word} {wc : WaitCond} (hr : s.ex.req = some (cmd, wc))
    (hs : s.ex.st = .poll) : execExecute cmd wc s = exPoll s := by
  unfold execExecute; rw [if_pos hr, hs]

theorem execExecute_waitc {s : State} {cmd : Word} {wc : WaitCond} (hr : s.ex.req = some (cmd, wc))
    (hs : s.ex.st = .waitc) : execExecute cmd wc s = exWait s := by
  unfold execExecute; rw [if_pos hr, hs]

/-- Command 0x4 by engine state (R124). -/
theorem engDecode_stop (e : Eng) (rs : Bool) : engDecode e rs ((0x4 : Word).extractLsb' 0 4) =
    if e = .idle then .nop else .action ⟨.no, false, .no, true, .idle⟩ := by
  cases e <;> cases rs <;> rfl

/-- The recovery STOP starts (R141): a STOP while the engine owns the bus, else a NOP. -/
theorem startNackStop_ok {s : State} (e : NackKind) (hm : (s.bus s.inst).mfe = true)
    (ho : (s.bus s.inst).occupied = false) :
    startNackStop e s = .next
      (if (s.bus s.inst).eng = .idle then { s with ex := { s.ex with err := e, st := .nstopSettle } }
       else { s with ex := { s.ex with err := e, st := .nstopSettle } }.setBus s.inst
          ((s.bus s.inst).accept ⟨.no, false, .no, true, .idle⟩)) := by
  unfold startNackStop
  have hw := writeCmd_admitted (s := { s with ex := { s.ex with err := e } }) (w := 0x4) (by decide) hm ho
  have hb : State.bus { s with ex := { s.ex with err := e } } s.inst = s.bus s.inst := rfl
  rw [engDecode_stop, hb] at hw
  by_cases he : (s.bus s.inst).eng = .idle
  · rw [if_pos he] at hw ⊢; rw [hw]; rfl
  · rw [if_neg he] at hw ⊢; rw [hw]; rfl

/-- The executor starts its cycle (R137), by the command's verdict. -/
theorem exStart_nop {s : State} {cmd : Word} (wc : WaitCond) (hw : cmd.toNat < 16) (hm : (s.bus s.inst).mfe = true)
    (ho : (s.bus s.inst).occupied = false)
    (hd : engDecode (s.bus s.inst).eng (s.bus s.inst).saRs (cmd.extractLsb' 0 4) = .nop) :
    exStart cmd wc s = .next { s with ex := { s.ex with wc := wc, st := .settle } } := by
  unfold exStart
  have h := writeCmd_admitted (s := { s with ex := { s.ex with wc := wc } }) hw hm ho
  have hb : State.bus { s with ex := { s.ex with wc := wc } } s.inst = s.bus s.inst := rfl
  rw [hb, hd] at h
  rw [h]; rfl

theorem exStart_action {s : State} {cmd : Word} (wc : WaitCond) {a : Action} (hw : cmd.toNat < 16)
    (hm : (s.bus s.inst).mfe = true) (ho : (s.bus s.inst).occupied = false)
    (hd : engDecode (s.bus s.inst).eng (s.bus s.inst).saRs (cmd.extractLsb' 0 4) = .action a) :
    exStart cmd wc s =
      .next ({ s with ex := { s.ex with wc := wc, st := .settle } }.setBus s.inst ((s.bus s.inst).accept a)) := by
  unfold exStart
  have h := writeCmd_admitted (s := { s with ex := { s.ex with wc := wc } }) hw hm ho
  have hb : State.bus { s with ex := { s.ex with wc := wc } } s.inst = s.bus s.inst := rfl
  rw [hb, hd] at h
  rw [h]; rfl

theorem exSettle_held {s : State} (h : (s.bus s.inst).lag = true) : exSettle s = .next s := if_pos h

theorem exSettle_done {s : State} (h : (s.bus s.inst).lag = false) : exSettle s = .next (s.exGoto .poll) := by
  simp [exSettle, h]

/-- The busy poll while `BUSY` = 1 changes nothing. -/
theorem exPoll_busy {s : State} (hl : (s.bus s.inst).lag = false) (hb : (s.bus s.inst).busy = true) :
    exPoll s = .next s := by
  unfold exPoll
  rw [if_pos (by rw [statSnap_of_visible hl]; exact hb), statRead_eq_self hl (by simp [Bus.holdsBus, hb])]

/-- The busy poll after the action: what the classifier says decides. -/
theorem exPoll_done {s : State} (hl : (s.bus s.inst).lag = false) (hb : (s.bus s.inst).busy = false) :
    exPoll s = exClassified (s.bus s.inst).outcome
      (match s.ex.wc with
        | .busbsyClear => (s.statRead s.inst).exGoto .waitc
        | .always      => (s.statRead s.inst).exReturn .ok) (s.statRead s.inst) := by
  unfold exPoll
  have h1 : (s.statSnap s.inst).busy = false := by rw [statSnap_of_visible hl]; exact hb
  have h2 : (s.statSnap s.inst).classify = (s.bus s.inst).outcome := by rw [statSnap_of_visible hl]; rfl
  rw [if_neg (by simp [h1]), h2] <;> cases s.ex.wc <;> rfl

/-- The wait loop outside the busy lag: what the classifier says decides, then `BUSBSY`. -/
theorem exWait_visible {s : State} (hl : (s.bus s.inst).lag = false) :
    exWait s = exClassified (s.bus s.inst).outcome
      (if s.busBusy s.inst then s.statRead s.inst else (s.statRead s.inst).exReturn .ok) (s.statRead s.inst) := by
  unfold exWait
  rw [statSnap_busbsy]
  have h2 : (s.statSnap s.inst).classify = (s.bus s.inst).outcome := by rw [statSnap_of_visible hl]; rfl
  rw [h2]

theorem exClassified_ok (good s : State) : exClassified .ok good s = .next good := rfl

theorem exClassified_nackAddress (good s : State) : exClassified .nackAddress good s = startNackStop .address s := rfl

theorem exClassified_nackData (good s : State) : exClassified .nackData good s = startNackStop .data s := rfl

/-- Every other error is returned. -/
theorem exClassified_error {e : Code} (h1 : e ≠ .ok) (h2 : e ≠ .nackAddress) (h3 : e ≠ .nackData) (good s : State) :
    exClassified e good s = .next (s.exReturn e) := by
  cases e <;> first | rfl | contradiction

theorem nackStopPoll_busy {s : State} (hl : (s.bus s.inst).lag = false) (hb : (s.bus s.inst).busy = true) :
    nackStopPoll s = .next s := by
  unfold nackStopPoll
  rw [if_pos (by rw [statSnap_of_visible hl]; exact hb), statRead_eq_self hl (by simp [Bus.holdsBus, hb])]

theorem nackStopPoll_done {s : State} (hl : (s.bus s.inst).lag = false) (hb : (s.bus s.inst).busy = false) :
    nackStopPoll s = .next ((s.statRead s.inst).exReturn s.ex.err.code) := by
  unfold nackStopPoll
  rw [if_neg (by rw [statSnap_of_visible hl]; simp [Bus.snap, hb])]

/-! ## The frame of the executor's steps -/

/-- `t` differs from `s` at most in `EX`'s own state, in the draws, and by a command accepted on the bound instance. -/
def exFrame (s t : State) : Prop :=
  t = { s with buses := t.buses, ex := t.ex, busDraws := t.busDraws, freeCtr := t.freeCtr } ∧
    (t.buses = s.buses ∨ (s.bus s.inst).mfe = true ∧ (s.bus s.inst).occupied = false ∧
      ∃ a, t.buses = (s.setBus s.inst ((s.bus s.inst).accept a)).buses)

theorem exFrame_refl (s : State) : exFrame s s := ⟨rfl, .inl rfl⟩

theorem exFrame_goto (s : State) (e : Exs) : exFrame s (s.exGoto e) := ⟨rfl, .inl rfl⟩

theorem exFrame_statRead (s : State) (k : Nat) : exFrame s (s.statRead k) := by
  obtain ⟨l, n, h⟩ := statRead_frame s k
  rw [h]; exact ⟨rfl, .inl rfl⟩

theorem exFrame_statRead_goto (s : State) (k : Nat) (e : Exs) : exFrame s ((s.statRead k).exGoto e) := by
  obtain ⟨l, n, h⟩ := statRead_frame s k
  rw [h]; exact ⟨rfl, .inl rfl⟩

theorem exFrame_statRead_return (s : State) (k : Nat) (c : Code) : exFrame s ((s.statRead k).exReturn c) := by
  obtain ⟨l, n, h⟩ := statRead_frame s k
  rw [h]; exact ⟨rfl, .inl rfl⟩

theorem exStart_frame {s t : State} {cmd : Word} {wc : WaitCond} (h : exStart cmd wc s = .next t) : exFrame s t := by
  obtain ⟨u, h1, h2⟩ := andThen_next h
  injection h2 with h2
  subst h2
  obtain ⟨hm, ho, ⟨-, rfl⟩ | ⟨a, -, rfl⟩⟩ := writeCmd_next h1
  · exact ⟨rfl, .inl rfl⟩
  · exact ⟨rfl, .inr ⟨hm, ho, a, rfl⟩⟩

theorem startNackStop_frame {s t : State} {e : NackKind} (h : startNackStop e s = .next t) : exFrame s t := by
  obtain ⟨u, h1, h2⟩ := andThen_next h
  injection h2 with h2
  subst h2
  obtain ⟨hm, ho, ⟨-, rfl⟩ | ⟨a, -, rfl⟩⟩ := writeCmd_next h1
  · exact ⟨rfl, .inl rfl⟩
  · exact ⟨rfl, .inr ⟨hm, ho, a, rfl⟩⟩

theorem startNackStop_statRead_frame {s t : State} {e : NackKind} {k : Nat}
    (h : startNackStop e (s.statRead k) = .next t) : exFrame s t := by
  obtain ⟨l, n, hs⟩ := statRead_frame s k
  rw [hs] at h
  obtain ⟨h1, h2⟩ := startNackStop_frame h
  exact ⟨by rw [h1], h2⟩

theorem exClassified_frame {s t good : State} {c : Code} {k : Nat} (hg : exFrame s good)
    (h : exClassified c good (s.statRead k) = .next t) : exFrame s t := by
  cases c with
  | ok => injection h with h; exact h ▸ hg
  | nackAddress => exact startNackStop_statRead_frame h
  | nackData => exact startNackStop_statRead_frame h
  | timeout => injection h with h; exact h ▸ exFrame_statRead_return s k _
  | arbitrationLoss => injection h with h; exact h ▸ exFrame_statRead_return s k _
  | invalidArgument => injection h with h; exact h ▸ exFrame_statRead_return s k _

theorem exPoll_frame {s t : State} (h : exPoll s = .next t) : exFrame s t := by
  unfold exPoll at h
  split at h
  · injection h with h; exact h ▸ exFrame_statRead s _
  · refine exClassified_frame ?_ h
    split
    · exact exFrame_statRead_goto s _ _
    · exact exFrame_statRead_return s _ _

theorem exWait_frame {s t : State} (h : exWait s = .next t) : exFrame s t := by
  refine exClassified_frame ?_ h
  split
  · exact exFrame_statRead s _
  · exact exFrame_statRead_return s _ _

theorem exSettle_frame {s t : State} (h : exSettle s = .next t) : exFrame s t := by
  unfold exSettle at h
  split at h <;> injection h with h
  · exact h ▸ exFrame_refl s
  · exact h ▸ exFrame_goto s _

/-- Frame of EXECUTE. -/
theorem execExecute_frame {s t : State} {cmd : Word} {wc : WaitCond} (h : execExecute cmd wc s = .next t) :
    exFrame s t := by
  unfold execExecute at h
  split at h
  · split at h
    · exact exStart_frame h
    · exact exSettle_frame h
    · exact exPoll_frame h
    · exact exWait_frame h
    · cases h
    · cases h
  · cases h

/-- Frame of NACK_STOP. -/
theorem execNackStop_frame {s t : State} (h : execNackStop s = .next t) : exFrame s t := by
  unfold execNackStop at h
  split at h
  · exact startNackStop_frame h
  · exact startNackStop_frame h
  · unfold nackStopSettle at h
    split at h <;> injection h with h
    · exact h ▸ exFrame_refl s
    · exact h ▸ exFrame_goto s _
  · unfold nackStopPoll at h
    split at h <;> injection h with h
    · exact h ▸ exFrame_statRead s _
    · exact h ▸ exFrame_statRead_return s _ _
  · cases h
  · cases h

end Sys2Proof.Machine
end

