-- ==== Sys2Proof/Laws/Operands.lean ====
section
/-! SUPPORT. Operand words and the register writes that use them; the attributes of a byte; one byte's issue. -/

namespace Sys2Proof.Machine

/-! ## Operand words (R82, R84) -/

theorem dataWord_defined (b : Byte) : dataWord b &&& ~~~(0xFF : Word) = 0 := by
  rw [mask8_eq_zero]; unfold dataWord; rw [BitVec.toNat_setWidth]; have := b.isLt; omega

theorem addrWord_defined (a : BitVec 7) (d : Bool) : addrWord a d &&& ~~~(0xFF : Word) = 0 := by
  rw [mask8_eq_zero]; unfold addrWord; rw [BitVec.toNat_setWidth]; have := (addrByte a d).isLt; omega

theorem dataWord_field (b : Byte) : (dataWord b).extractLsb' 0 8 = b := by
  apply BitVec.eq_of_getLsbD_eq
  intro i hi
  unfold dataWord
  rw [BitVec.getLsbD_extractLsb', BitVec.getLsbD_setWidth]
  simp [hi]; omega

theorem addrWord_addr (a : BitVec 7) (d : Bool) : (addrWord a d).extractLsb' 1 7 = a := by
  apply BitVec.eq_of_getLsbD_eq
  intro i hi
  show ((a ++ BitVec.ofBool d).setWidth 32 |>.extractLsb' 1 7).getLsbD i = _
  rw [BitVec.getLsbD_extractLsb', BitVec.getLsbD_setWidth, BitVec.getLsbD_append]
  simp [show 1 + i < 32 by omega, hi]

theorem addrWord_dir (a : BitVec 7) (d : Bool) : (addrWord a d).getLsbD 0 = d := by
  show ((a ++ BitVec.ofBool d).setWidth 32).getLsbD 0 = _
  rw [BitVec.getLsbD_setWidth, BitVec.getLsbD_append]
  cases d <;> simp

/-- SEQ's write of `SA` while no action runs. -/
theorem writeSa_addrWord {s : State} {k : Nat} (a : BitVec 7) (d : Bool) (ho : (s.bus k).occupied = false) :
    writeSa k (addrWord a d) s = .next (s.setBus k { s.bus k with saAddr := a, saRs := d }) := by
  unfold writeSa
  rw [guardedWrite_free (addrWord_defined a d) ho, addrWord_addr, addrWord_dir]

/-- SEQ's write of `DR` while no action runs. -/
theorem writeDr_dataWord {s : State} {k : Nat} (b : Byte) (ho : (s.bus k).occupied = false) :
    writeDr k (dataWord b) s = .next (s.setBus k { s.bus k with drData := b, rxValid := false }) := by
  unfold writeDr
  rw [guardedWrite_free (dataWord_defined b) ho, dataWord_field]

/-! ## The attributes of a byte (R157) and its command (R159) -/

theorem lastOfRun_of_lastGlobal {ops : List Desc} {i j len : Nat} (d : Dir) (h : lastGlobal ops i j len = true) :
    lastOfRun ops i j len d = true := by
  simp only [lastGlobal, lastOfRun, Bool.and_eq_true, decide_eq_true_eq] at h ⊢
  refine ⟨h.1, ?_⟩
  have : ops[i + 1]? = none := by rw [List.getElem?_eq_none_iff]; omega
  simp [runEndsAfter, this]

/-- The four bits of the command of a byte: RUN always, START with the pending flag, STOP on the globally final byte. -/
theorem cmdAt_bits (p : Config.AckPolicy) (ops : List Desc) (i j len : Nat) (d : Dir) (f : Bool) :
    (cmdAt p ops i j len d f).getLsbD 0 = true ∧ (cmdAt p ops i j len d f).getLsbD 1 = f ∧
    (cmdAt p ops i j len d f).getLsbD 2 = lastGlobal ops i j len ∧
    (cmdAt p ops i j len d f).getLsbD 3 = (decide (d = .read) && ackBit p (lastOfRun ops i j len d) (lastGlobal ops i j len)) ∧
    (cmdAt p ops i j len d f).toNat < 16 := by
  unfold cmdAt
  generalize lastGlobal ops i j len = g
  generalize lastOfRun ops i j len d = lr
  cases p <;> cases d <;> cases f <;> cases g <;> cases lr <;> decide

/-- ACK is never set on a byte that carries STOP. -/
theorem ackBit_of_lastGlobal {p : Config.AckPolicy} {ops : List Desc} {i j len : Nat} {d : Dir}
    (h : lastGlobal ops i j len = true) : ackBit p (lastOfRun ops i j len d) (lastGlobal ops i j len) = false := by
  rw [lastOfRun_of_lastGlobal d h, h]; rfl

/-! ## The position's advance (R49) -/

theorem nextPosition_within {i j len : Nat} (h : j + 1 < len) : nextPosition i j len = (i, j + 1) := if_pos h

theorem nextPosition_end {i j len : Nat} (h : len ≤ j + 1) : nextPosition i j len = (i + 1, 0) := if_neg (by omega)

theorem canIssue_iff {s : State} {d : Desc} :
    s.canIssue d = true ↔ s.seq.st = .issue ∧ s.ex.st = .idle ∧ s.seq.ops[s.seq.i]? = some d ∧ s.seq.j < d.len := by
  simp [State.canIssue, and_assoc]

end Sys2Proof.Machine
end

