-- ==== Sys2Proof/Laws/Sequencer.lean ====
section
/-! SUPPORT. What the sequencer's operations do: the address of an issue, storing a received byte, advancing. -/

namespace Sys2Proof.Machine

/-- With a START pending the address and direction go to `SA` (R161, R162). -/
theorem issueAddress_pend {s : State} (d : Dir) (h : s.seq.pend = true) (ho : (s.bus s.inst).occupied = false) :
    issueAddress d s = .next (s.setBus s.inst { s.bus s.inst with saAddr := s.seq.addr, saRs := dirBit d }) := by
  unfold issueAddress; rw [if_pos h, writeSa_addrWord _ _ ho]

theorem issueAddress_none {s : State} (d : Dir) (h : s.seq.pend = false) : issueAddress d s = .next s := by
  unfold issueAddress; rw [if_neg (by simp [h])]

/-- Storing a received byte changes buffer memory and the count of free values only. -/
theorem storeReceived_frame (s : State) (d : Desc) :
    ∃ n, s.storeReceived d = { s with buf := (s.storeReceived d).buf, freeCtr := n } := by
  unfold State.storeReceived State.receivedRead
  cases d.dir
  · exact ⟨s.freeCtr, rfl⟩
  · dsimp only
    split
    · exact ⟨s.freeCtr, rfl⟩
    · exact ⟨s.freeCtr + 1, rfl⟩

theorem storeReceived_write {s : State} {d : Desc} (h : d.dir = .write) : s.storeReceived d = s := by
  unfold State.storeReceived; rw [h]

/-- A Read byte goes to `base + j` (R163). -/
theorem storeReceived_read {s : State} {d : Desc} (h : d.dir = .read) (hb : (s.bus s.inst).busy = false)
    (hl : (s.bus s.inst).lag = false) (hv : (s.bus s.inst).rxValid = true) :
    s.storeReceived d = s.memWrite (d.base + s.seq.j) (s.bus s.inst).drData := by
  unfold State.storeReceived State.receivedRead State.receivedByte
  rw [h]
  simp [occupied_eq_false.2 ⟨hb, hl⟩, hv]

/-- The position within an operation (R49). -/
theorem advance_within {s : State} {d : Desc} (h : s.seq.j + 1 < d.len) (ho : s.seq.ops[s.seq.i]? = some d) :
    s.advance d = { s with seq := { s.seq with j := s.seq.j + 1, pend := false, st := .issue } } := by
  unfold State.advance
  rw [nextPosition_within h]
  simp [ho]

/-- On to the next operation; a direction change sets the pending START (R163). -/
theorem advance_next {s : State} {d n : Desc} (h : d.len ≤ s.seq.j + 1) (ho : s.seq.ops[s.seq.i + 1]? = some n) :
    s.advance d = { s with seq := { s.seq with i := s.seq.i + 1, j := 0, pend := decide (n.dir ≠ d.dir), st := .issue } } := by
  unfold State.advance
  rw [nextPosition_end h]
  simp [ho]

/-- After the globally final byte the request ends Ok (R163). -/
theorem advance_last {s : State} {d : Desc} (h : d.len ≤ s.seq.j + 1) (ho : s.seq.ops[s.seq.i + 1]? = none) :
    s.advance d = { s with seq := { s.seq with i := s.seq.i + 1, j := 0, st := .idle }, rspCode := .ok, rspValid := true } := by
  unfold State.advance
  rw [nextPosition_end h]
  simp only [ho]
  rfl

/-- Advancing changes the sequencer and the response only. -/
theorem advance_frame (s : State) (d : Desc) : ∃ q c v, s.advance d = { s with seq := q, rspCode := c, rspValid := v } := by
  unfold State.advance
  dsimp only
  split
  · exact ⟨_, _, _, rfl⟩
  · exact ⟨_, s.rspCode, s.rspValid, rfl⟩

/-- Advancing keeps the operations. -/
theorem advance_ops (s : State) (d : Desc) : (s.advance d).seq.ops = s.seq.ops := by
  unfold State.advance; dsimp only; split <;> rfl

theorem seqComplete_ok {s : State} {d : Desc} (h : s.seq.ops[s.seq.i]? = some d) :
    seqComplete .ok s = (s.takeResult.storeReceived d).advance d := by
  unfold seqComplete; simp only [h]

/-- The scheduled completion step of SEQ. -/
theorem step_completes {s : State} {rest : List Move} {r : Code} (hs : s.sched = .seq :: rest) (hw : s.seq.st = .wait)
    (hr : s.ex.result = some r) : step s = .next (seqComplete r { s with sched := rest }) := by
  have hf : State.fetchSeq { s with sched := rest } = none := by simp [State.fetchSeq, hw]
  rw [step_of_cons hs]; simp [runMove, seqMove, hf, hw, hr]

end Sys2Proof.Machine
end

