-- ==== Sys2Proof/Laws/Transitions.lean ====
section
/-! SUPPORT. What each meaning and each move can do, said once: the inversion lemmas every invariant goes through. -/

namespace Sys2Proof.Machine

/-! ## What a write may do to an instance -/

/-- `c` is `b` after register writes outside an action: no flag, engine or detector state differs, and master mode is off
only where the engine owns no bus. -/
def Bus.Writes (b c : Bus) : Prop :=
  b.occupied = false ∧ (c.mfe = false → b.mfe = false ∨ b.eng = .idle) ∧
    ∃ mfe sa rs dr rv tpr toc,
      c = { b with mfe := mfe, saAddr := sa, saRs := rs, drData := dr, rxValid := rv, tpr := tpr, tocCnt := toc }

/-- `c` is `b` after register writes or an accepted command. -/
def Bus.Changes (b c : Bus) : Prop :=
  b.Writes c ∨ (b.mfe = true ∧ b.occupied = false ∧ ∃ a, c = b.accept a)

theorem writeSa_writes {k : Nat} {w : Word} {s t : State} (h : writeSa k w s = .next t) :
    ∃ c, (s.bus k).Writes c ∧ t = s.setBus k c := by
  obtain ⟨h1, h2⟩ := writeSa_next h
  refine ⟨_, ?_, h2⟩
  exact ⟨h1, fun h => .inl h, _, _, _, _, _, _, _, rfl⟩

theorem writeDr_writes {k : Nat} {w : Word} {s t : State} (h : writeDr k w s = .next t) :
    ∃ c, (s.bus k).Writes c ∧ t = s.setBus k c := by
  obtain ⟨h1, h2⟩ := writeDr_next h
  refine ⟨_, ?_, h2⟩
  exact ⟨h1, fun h => .inl h, _, _, _, _, _, _, _, rfl⟩

theorem writeTpr_writes {k : Nat} {w : Word} {s t : State} (h : writeTpr k w s = .next t) :
    ∃ c, (s.bus k).Writes c ∧ t = s.setBus k c := by
  obtain ⟨h1, h2⟩ := writeTpr_next h
  refine ⟨_, ?_, h2⟩
  exact ⟨h1, fun h => .inl h, _, _, _, _, _, _, _, rfl⟩

theorem writeToc_writes {k : Nat} {w : Word} {s t : State} (h : writeToc k w s = .next t) :
    ∃ c, (s.bus k).Writes c ∧ t = s.setBus k c := by
  obtain ⟨h1, h2⟩ := writeToc_next h
  refine ⟨_, ?_, h2⟩
  exact ⟨h1, fun h => .inl h, _, _, _, _, _, _, _, rfl⟩

theorem writeCr_writes {k : Nat} {w : Word} {s t : State} (h : writeCr k w s = .next t) :
    ∃ c, (s.bus k).Writes c ∧ t = s.setBus k c := by
  obtain ⟨h1, h2, h3⟩ := writeCr_next h
  refine ⟨_, ?_, h3⟩
  exact ⟨h1, fun h => .inr (h2 h), _, _, _, _, _, _, _, rfl⟩

theorem Bus.Writes.trans {b c d : Bus} (h1 : b.Writes c) (h2 : c.Writes d) : b.Writes d := by
  obtain ⟨h1, m1, a1, a2, a3, a4, a5, a6, a7, rfl⟩ := h1
  obtain ⟨h2, m2, b1, b2, b3, b4, b5, b6, b7, rfl⟩ := h2
  refine ⟨h1, fun h => ?_, b1, b2, b3, b4, b5, b6, b7, rfl⟩
  rcases m2 h with h | h
  · exact m1 h
  · exact .inr h

/-- What a write of a register or a command on the instance `k` may do. -/
def State.Written (k : Nat) (s t : State) : Prop := t = s ∨ ∃ c, (s.bus k).Changes c ∧ t = s.setBus k c

theorem written_of_writes {k : Nat} {s t : State} (h : ∃ c, (s.bus k).Writes c ∧ t = s.setBus k c) : State.Written k s t :=
  h.elim fun c h => .inr ⟨c, .inl h.1, h.2⟩

theorem writeCmd_written {k : Nat} {w : Word} {s t : State} (h : writeCmd k w s = .next t) : State.Written k s t := by
  obtain ⟨hm, ho, ⟨-, h⟩ | ⟨a, -, h⟩⟩ := writeCmd_next h
  · exact .inl h
  · exact .inr ⟨_, .inr ⟨hm, ho, a, rfl⟩, h⟩

/-- The instructions by which the host touches one instance's registers. -/
def Instr.onRegister : Instr → Bool
  | .wrSa _ | .wrDr _ | .wrTpr _ | .wrCr _ | .wrToc _ | .wrCmd _ => true
  | .cmdNone | .cmdRun | .cmdStart | .cmdStartRun | .cmdStop | .cmdRunStop | .cmdStartStop | .cmdStartRunStop => true
  | .cmdAck | .cmdAckRun | .cmdAckStart | .cmdAckStartRun | .cmdAckStop | .cmdAckRunStop | .cmdAckStartStop => true
  | .cmdAckStartRunStop => true
  | .rdSa | .rdStat | .rdDr | .rdTpr | .rdCr | .rdToc | .configure _ _ _ | .transaction _ _ | .release => false
  | .opWrite _ _ | .opRead _ _ | .execute _ _ | .nackStop | .classify _ | .timeoutExpire | .reset => false

/-- Every write instruction of the host changes one instance, of a window it reaches. -/
theorem exec_onRegister {i : Instr} {s t : State} (hi : Instr.onRegister i = true) (h : exec i s = .next t) :
    s.HostReaches s.sel ∧ State.Written s.sel s t := by
  cases i <;> first | (cases hi; done) | skip
  case wrSa w =>
    change hostAccess s (fun k => writeSa k w s) = .next t at h
    exact (hostAccess_next h).imp_right fun h => written_of_writes (writeSa_writes h)
  case wrDr w =>
    change hostAccess s (fun k => writeDr k w s) = .next t at h
    exact (hostAccess_next h).imp_right fun h => written_of_writes (writeDr_writes h)
  case wrTpr w =>
    change hostAccess s (fun k => writeTpr k w s) = .next t at h
    exact (hostAccess_next h).imp_right fun h => written_of_writes (writeTpr_writes h)
  case wrCr w =>
    change hostAccess s (fun k => writeCr k w s) = .next t at h
    exact (hostAccess_next h).imp_right fun h => written_of_writes (writeCr_writes h)
  case wrToc w =>
    change hostAccess s (fun k => writeToc k w s) = .next t at h
    exact (hostAccess_next h).imp_right fun h => written_of_writes (writeToc_writes h)
  all_goals
    change hostAccess s (fun k => writeCmd k _ s) = .next t at h
    exact (hostAccess_next h).imp_right writeCmd_written

/-- The reads and CLASSIFY: the output ports and the draws. -/
def Instr.isRead : Instr → Bool
  | .rdSa | .rdStat | .rdDr | .rdTpr | .rdCr | .rdToc | .classify _ => true
  | .wrSa _ | .wrDr _ | .wrTpr _ | .wrCr _ | .wrToc _ | .wrCmd _ => false
  | .cmdNone | .cmdRun | .cmdStart | .cmdStartRun | .cmdStop | .cmdRunStop | .cmdStartStop | .cmdStartRunStop => false
  | .cmdAck | .cmdAckRun | .cmdAckStart | .cmdAckStartRun | .cmdAckStop | .cmdAckRunStop | .cmdAckStartStop => false
  | .cmdAckStartRunStop | .configure _ _ _ | .transaction _ _ | .release => false
  | .opWrite _ _ | .opRead _ _ | .execute _ _ | .nackStop | .timeoutExpire | .reset => false

theorem exec_isRead {i : Instr} {s t : State} (hi : Instr.isRead i = true) (h : exec i s = .next t) :
    ∃ r c l n, t = { s with regRdata := r, clsCode := c, busDraws := l, freeCtr := n } := by
  cases i <;> first | (cases hi; done) | skip
  case rdStat =>
    change hostAccess s (fun k => .next ((s.statRead k).readDefined statMask (s.statSnap k).word)) = .next t at h
    have h := (hostAccess_next h).2
    injection h with h
    obtain ⟨l, n, hs⟩ := statRead_frame s s.sel
    rw [← h, hs]
    exact ⟨_, s.clsCode, l, n + 1, rfl⟩
  case classify w => injection h with h; exact ⟨s.regRdata, _, s.busDraws, s.freeCtr, h.symm⟩
  all_goals
    unfold exec at h
    have h := (hostAccess_next h).2
    injection h with h
    exact ⟨_, s.clsCode, s.busDraws, s.freeCtr + 1, h.symm⟩

theorem execConfigure_next {inst sysclk freq : Nat} {s t : State} (h : execConfigure inst sysclk freq s = .next t) :
    s.owned = false ∧ s.seq.st = .idle ∧ inst < Config.nInstances ∧ ∃ c, (s.bus inst).Writes c ∧ c.mfe = true ∧
      t = { s.setBus inst c with inst := inst, owned := true, rspCode := .ok, rspValid := true } := by
  unfold execConfigure at h
  split at h
  · next hg =>
    split at h
    · cases h
    next h1 =>
    split at h
    · cases h
    obtain ⟨u, h3, h⟩ := andThen_next h
    obtain ⟨v, h4, h⟩ := andThen_next h
    obtain ⟨w, h5, h⟩ := andThen_next h
    injection h with h
    obtain ⟨c, hc, rfl⟩ := writeCr_writes h3
    obtain ⟨-, -, h3'⟩ := writeCr_next h3
    obtain ⟨d, hd, rfl⟩ := writeTpr_writes h4
    obtain ⟨-, h4'⟩ := writeTpr_next h4
    obtain ⟨e, he, rfl⟩ := writeToc_writes h5
    obtain ⟨-, h5'⟩ := writeToc_next h5
    rw [bus_setBus_self] at hd he
    refine ⟨hg.1, hg.2, by omega, e, hc.trans (hd.trans he), ?_, ?_⟩
    · have e1 := congrArg (fun s => State.bus s inst) h5'
      have e2 := congrArg (fun s => State.bus s inst) h4'
      have e3 := congrArg (fun s => State.bus s inst) h3'
      simp only [bus_setBus_self] at e1 e2 e3
      rw [e1, e2, e3]
      rfl
    · rw [← h, setBus_setBus, setBus_setBus]; rfl
  · cases h

theorem issueAddress_next {d : Dir} {s t : State} (h : issueAddress d s = .next t) :
    t = s ∨ ∃ c, (s.bus s.inst).Writes c ∧ t = s.setBus s.inst c := by
  unfold issueAddress at h
  split at h
  · exact .inr (writeSa_writes h)
  · injection h with h; exact .inl h.symm

theorem execOpWrite_next {len base : Nat} {s t : State} (h : execOpWrite len base s = .next t) :
    s.canIssue ⟨.write, len, base⟩ = true ∧
      ∃ c, (s.bus s.inst).Writes c ∧ t = (s.setBus s.inst c).requestCycle ⟨.write, len, base⟩ := by
  unfold execOpWrite at h
  split at h
  · next hc =>
    obtain ⟨u, h1, h⟩ := andThen_next h
    obtain ⟨v, h2, h⟩ := andThen_next h
    injection h with h
    obtain ⟨c, hw, rfl⟩ := writeDr_writes h1
    refine ⟨hc, ?_⟩
    rcases issueAddress_next h2 with rfl | ⟨d, hd, rfl⟩
    · exact ⟨c, hw, h.symm⟩
    · rw [setBus_inst, bus_setBus_self] at hd
      rw [setBus_inst, setBus_setBus] at h
      exact ⟨d, hw.trans hd, h.symm⟩
  · cases h

theorem execOpRead_next {len base : Nat} {s t : State} (h : execOpRead len base s = .next t) :
    s.canIssue ⟨.read, len, base⟩ = true ∧
      (t = s.requestCycle ⟨.read, len, base⟩ ∨
        ∃ c, (s.bus s.inst).Writes c ∧ t = (s.setBus s.inst c).requestCycle ⟨.read, len, base⟩) := by
  unfold execOpRead at h
  split at h
  · next hc =>
    obtain ⟨v, h2, h'⟩ := andThen_next h
    injection h' with h'
    refine ⟨hc, ?_⟩
    rcases issueAddress_next h2 with rfl | ⟨d, hd, rfl⟩
    · exact .inl h'.symm
    · exact .inr ⟨d, hd, h'.symm⟩
  · cases h

theorem execTransaction_next {addr : BitVec 7} {ops : List Desc} {s t : State} (h : execTransaction addr ops s = .next t) :
    s.owned = true ∧ s.seq.st = .idle ∧ ∃ q v c, t = { s with seq := q, rspValid := v, rspCode := c } ∧
      (q.st = .idle ∨ (q = ⟨.issue, addr, ops, 0, 0, true⟩ ∧ ops ≠ [] ∧ ∀ d ∈ ops, 0 < d.len)) := by
  unfold execTransaction at h
  split at h
  · next hg =>
    dsimp only at h
    split at h
    · injection h with h; exact ⟨hg.1, hg.2, _, _, _, h.symm, .inl rfl⟩
    next h1 =>
    split at h
    · injection h with h; exact ⟨hg.1, hg.2, _, _, _, h.symm, .inl rfl⟩
    next h2 =>
    injection h with h
    refine ⟨hg.1, hg.2, ⟨.issue, addr, ops, 0, 0, true⟩, false, s.rspCode, h.symm, .inr ⟨rfl, by simpa using h1, fun d hd => ?_⟩⟩
    by_contra hc
    exact h2 (List.any_eq_true.2 ⟨d, hd, by simp; omega⟩)
  · cases h

/-- An accepted request's operations are the latched ones. -/
theorem execTransaction_ops {addr : BitVec 7} {ops : List Desc} {s t : State} (h : execTransaction addr ops s = .next t) :
    t.seq.ops = ops := by
  unfold execTransaction at h
  dsimp only at h
  (repeat' split at h) <;> first | (injection h with h; subst h; rfl) | cases h

theorem execRelease_next {s t : State} (h : execRelease s = .next t) :
    s.owned = true ∧ s.seq.st = .idle ∧ t = { s with owned := false, rspCode := .ok, rspValid := true } := by
  unfold execRelease at h
  split at h
  · next hg => injection h with h; exact ⟨hg.1, hg.2, h.symm⟩
  · cases h

theorem execTimeoutExpire_next {s t : State} (h : execTimeoutExpire s = .next t) :
    (s.bus s.sel).canExpire = true ∧ t = s.expire s.sel := by
  unfold execTimeoutExpire at h
  split at h
  · next hg => injection h with h; exact ⟨hg, h.symm⟩
  · cases h

/-! ## What a step can be -/

/-- The state a step works on: the move is taken from the schedule. -/
def State.popped (s : State) : State := { s with sched := s.sched.tail }

theorem popped_of_nil {s : State} (h : s.sched = []) : s.popped = s := by
  cases s; simp only [State.popped] at *; subst h; rfl

theorem popped_of_cons {s : State} {m : Move} {rest : List Move} (h : s.sched = m :: rest) :
    s.popped = { s with sched := rest } := by
  unfold State.popped; rw [h]; rfl

/-- What EX runs. -/
theorem exMove_next {s t : State} (h : exMove s = .next t) :
    (t = s ∧ s.ex.req = none) ∨ (∃ cmd wc, s.ex.req = some (cmd, wc) ∧ execExecute cmd wc s = .next t) ∨
      ((s.ex.st = .nstopSettle ∨ s.ex.st = .nstopPoll) ∧ execNackStop s = .next t) := by
  unfold exMove at h
  cases hf : s.fetchEx with
  | none =>
    rw [hf] at h; injection h with h
    left
    refine ⟨h.symm, ?_⟩
    unfold State.fetchEx at hf
    cases hr : s.ex.req with
    | none => rfl
    | some c => rw [hr] at hf; cases hst : s.ex.st <;> rw [hst] at hf <;> cases hf
  | some p =>
    rw [hf] at h
    change runPacket p s = .next t at h
    unfold State.fetchEx at hf
    have hq : ∀ q, s.ex.st ≠ .nstopSettle → s.ex.st ≠ .nstopPoll → s.ex.req = some q → p = ⟨.executor, [q.1.toNat, q.2.code]⟩ := by
      intro q n1 n2 hr
      rw [hr] at hf
      cases hst : s.ex.st <;> rw [hst] at hf <;> first | exact absurd hst n1 | exact absurd hst n2 | (injection hf with hf; exact hf.symm)
    by_cases h1 : s.ex.st = .nstopSettle
    · rw [h1] at hf; injection hf with hf; subst hf
      rw [runPacket_ok decode_recovery] at h
      exact .inr (.inr ⟨.inl h1, h⟩)
    by_cases h2 : s.ex.st = .nstopPoll
    · rw [h2] at hf; injection hf with hf; subst hf
      rw [runPacket_ok decode_recovery] at h
      exact .inr (.inr ⟨.inr h2, h⟩)
    cases hr : s.ex.req with
    | none =>
      rw [hr] at hf
      cases hst : s.ex.st <;> rw [hst] at hf <;> first | exact absurd hst h1 | exact absurd hst h2 | cases hf
    | some q =>
      obtain ⟨cmd, wc⟩ := q
      have hp := hq (cmd, wc) h1 h2 hr
      subst hp
      by_cases hc : cmd.toNat < 16
      · rw [runPacket_ok (decode_cycle hc wc)] at h
        exact .inr (.inl ⟨cmd, wc, rfl, h⟩)
      · exfalso
        have : decode ⟨.executor, [cmd.toNat, wc.code]⟩ = .error .reservedCycleBits := by
          cases wc <;> simp [decode, decodeCycle, cmd.isLt, WaitCond.code, waitCondOfCode, hc]
        unfold runPacket at h; rw [this] at h; cases h

/-- What SEQ runs. -/
theorem seqMove_next {s t : State} (h : seqMove s = .next t) :
    t = s ∨ (∃ d : Desc, s.seq.ops[s.seq.i]? = some d ∧ d.dir = .write ∧ execOpWrite d.len d.base s = .next t) ∨
      (∃ d : Desc, s.seq.ops[s.seq.i]? = some d ∧ d.dir = .read ∧ execOpRead d.len d.base s = .next t) ∨
      (s.seq.st = .wait ∧ ∃ r, s.ex.result = some r ∧ t = seqComplete r s) := by
  unfold seqMove at h
  cases hf : s.fetchSeq with
  | none =>
    rw [hf] at h
    dsimp only at h
    split at h
    · next r h1 h2 => injection h with h; exact .inr (.inr (.inr ⟨h1, r, h2, h.symm⟩))
    · injection h with h; exact .inl h.symm
  | some i =>
    rw [hf] at h
    unfold State.fetchSeq at hf
    split at hf
    · obtain ⟨d, hd, rfl⟩ := Option.map_eq_some_iff.1 hf
      unfold issueInstr at h
      cases hdir : d.dir with
      | write => rw [hdir] at h; exact .inr (.inl ⟨d, hd, hdir, h⟩)
      | read => rw [hdir] at h; exact .inr (.inr (.inl ⟨d, hd, hdir, h⟩))
    · cases hf

theorem expireMove_next {k : Nat} {s t : State} (h : expireMove k s = .next t) :
    ((s.bus k).canExpire = false ∧ t = s) ∨ ((s.bus k).canExpire = true ∧ t = State.expire { s with sel := k } k) := by
  unfold expireMove at h
  split at h
  · next hc =>
    rw [runPacket_ok decode_detector] at h
    exact .inr ⟨hc, (execTimeoutExpire_next h).2⟩
  · next hc => injection h with h; exact .inl ⟨by simpa using hc, h.symm⟩

/-- The host presents the packet `p` at instance `k`, at a port or by an access to an address of its window. -/
def State.presents (s : State) (k : Nat) (p : Packet) (rest : List Move) : Prop :=
  s.sched = .port k p :: rest ∨
    ∃ a z d offset, s.sched = .access a z d :: rest ∧ windowAt a = some (k, offset) ∧ p = accessPacket z offset d

/-- What is presented as a reset is presented at the reset port. -/
theorem presents_reset {s : State} {k : Nat} {rest : List Move} {ws : List Nat} (h : s.presents k ⟨.rst, ws⟩ rest) :
    s.sched = .port k ⟨.rst, ws⟩ :: rest := by
  rcases h with h | ⟨a, z, d, o, -, -, h⟩
  · exact h
  · cases z <;> cases h

/-- An access at a host address is the packet of its window and offset at the register port. -/
theorem accessMove_next {a : Nat} {z : AccessSize} {d : Option Nat} {s t : State} (h : accessMove a z d s = .next t) :
    ∃ k offset, windowAt a = some (k, offset) ∧ portMove k (accessPacket z offset d) s = .next t := by
  unfold accessMove at h
  split at h
  · next k o hw => exact ⟨k, o, hw, h⟩
  · cases h

/-- Every next state of a step comes from one move of one agent. -/
theorem step_next {s t : State} (h : step s = .next t) :
    (∃ k p rest, s.presents k p rest ∧ portMove k p s.popped = .next t) ∨
    (∃ a b rest, s.sched = .hostStore a b :: rest ∧ hostStoreMove a b s.popped = .next t) ∨
    (∃ k o rest, s.sched = .complete k o :: rest ∧ completeMove k o s.popped = .next t) ∨
    (∃ k, visibleMove k s.popped = .next t) ∨
    (∃ k, ((∃ rest, s.sched = .expire k :: rest) ∨ s.sched = []) ∧ expireMove k s.popped = .next t) ∨
    exMove s.popped = .next t ∨ seqMove s.popped = .next t := by
  cases hs : s.sched with
  | nil =>
    rw [step_of_nil hs] at h
    rw [popped_of_nil hs]
    unfold fairStep at h
    split at h
    · next k _ => exact .inr (.inr (.inr (.inl ⟨k, h⟩)))
    split at h
    · next k _ => exact .inr (.inr (.inr (.inr (.inl ⟨k, .inr rfl, h⟩))))
    split at h
    · next p hp => exact .inr (.inr (.inr (.inr (.inr (.inl (by unfold exMove; rw [hp]; exact h))))))
    · exact .inr (.inr (.inr (.inr (.inr (.inr h)))))
  | cons m rest =>
    rw [step_of_cons hs, ← popped_of_cons hs] at h
    cases m with
    | port k p => exact .inl ⟨k, p, rest, .inl hs, h⟩
    | access a z d =>
      obtain ⟨k, o, hw, h⟩ := accessMove_next h
      exact .inl ⟨k, _, rest, .inr ⟨a, z, d, o, hs, hw, rfl⟩, h⟩
    | hostStore a b => exact .inr (.inl ⟨a, b, rest, rfl, h⟩)
    | complete k o => exact .inr (.inr (.inl ⟨k, o, rest, rfl, h⟩))
    | visible k => exact .inr (.inr (.inr (.inl ⟨k, h⟩)))
    | expire k => exact .inr (.inr (.inr (.inr (.inl ⟨k, .inl ⟨rest, rfl⟩, h⟩))))
    | ex => exact .inr (.inr (.inr (.inr (.inr (.inl h)))))
    | seq => exact .inr (.inr (.inr (.inr (.inr (.inr h)))))

theorem accessAt_ok {n : Nat} {o : Option Instr} {i : Instr} (h : accessAt n o = .ok i) : o = some i := by
  unfold accessAt at h
  split at h
  · cases h
  · split at h
    · injection h with h; rw [h]
    · cases h

/-- The instructions the host's ports carry. -/
def Instr.Hosted (p : Packet) (i : Instr) : Prop :=
  Instr.isRead i = true ∨ Instr.onRegister i = true ∨ (∃ a b c, i = .configure a b c) ∨ (∃ a o, i = .transaction a o) ∨
    i = .release ∨ (i = .reset ∧ p = ⟨.rst, [1]⟩)

theorem readAt_isRead {n : Nat} {i : Instr} (h : readAt n = some i) : Instr.isRead i = true := by
  unfold readAt at h
  split at h <;> cases h <;> rfl

theorem writeAt_onRegister {w : Word} {n : Nat} {i : Instr} (h : writeAt w n = some i) : Instr.onRegister i = true := by
  unfold writeAt at h
  split at h <;> cases h <;> rfl

theorem commandOf_onRegister {n : Nat} {i : Instr} (h : commandOf n = some i) : Instr.onRegister i = true := by
  unfold commandOf at h
  split at h <;> cases h <;> rfl

theorem decode_hosted {p : Packet} {i : Instr} (h : decode p = .ok i) (he : Port.external p.port = true) :
    Instr.Hosted p i := by
  obtain ⟨port, ws⟩ := p
  cases port <;> simp only [decode] at h <;> try cases he
  case regWord =>
    unfold decodeAccess at h
    split at h
    · split at h
      · exact .inl (readAt_isRead (accessAt_ok h))
      · cases h
    · split at h
      · exact .inr (.inl (writeAt_onRegister (accessAt_ok h)))
      · cases h
    · cases h
  case regHalf => cases h
  case regByte => cases h
  case cmdWord =>
    unfold decodeCommand at h
    split at h
    · split at h
      · split at h
        · next hi => injection h with h; subst h; exact .inr (.inl (commandOf_onRegister hi))
        · cases h
      · cases h
    · cases h
  case request =>
    unfold decodeRequest at h
    split at h
    · cases h
    · cases h; exact .inr (.inr (.inl ⟨_, _, _, rfl⟩))
    · split at h
      · split at h
        · split at h
          · cases h; exact .inr (.inr (.inr (.inl ⟨_, _, rfl⟩)))
          · cases h
        · cases h
      · cases h
    · cases h; exact .inr (.inr (.inr (.inr (.inl rfl))))
    · cases h
  case classifier =>
    unfold decodeSnapshot at h
    split at h
    · split at h
      · cases h; exact .inl rfl
      · cases h
    · cases h
  case rst =>
    unfold decodeRst at h
    split at h
    · cases h
    · cases h; exact .inr (.inr (.inr (.inr (.inr ⟨rfl, rfl⟩))))
    · cases h

/-- What the host's packet can run; a port at rest changes nothing. -/
theorem portMove_next {k : Nat} {p : Packet} {s t : State} (h : portMove k p s = .next t) :
    t = { s with sel := k } ∨
      ∃ i, decode p = .ok i ∧ exec i { s with sel := k } = .next t ∧ Instr.Hosted p i := by
  unfold portMove at h
  split at h
  · next he =>
    rcases runPacket_next h with ⟨-, h⟩ | ⟨i, hi, hx⟩
    · exact .inl h
    · exact .inr ⟨i, hi, hx, decode_hosted hi he⟩
  · cases h

end Sys2Proof.Machine
end

