-- ==== Sys2Proof/Laws/Invariants.lean ====
section
/-! SUPPORT. Soundness of an instance and of the state under each operation, and what one step does to one instance. -/

namespace Sys2Proof.Machine

/-! ## Soundness of one instance -/

theorem Bus.Sound.writes {b c : Bus} (h : b.Sound) (hw : b.Writes c) : c.Sound := by
  obtain ⟨ho, hm, mfe, sa, rs, dr, rv, tpr, toc, rfl⟩ := hw
  have hn : b.act.isSome = false := by rw [h.act_while_occupied, ho]
  refine ⟨h.lag_excludes_busy, h.act_while_occupied, h.armed_while_acting, h.clear_while_acting, fun hs => ?_, fun he => ?_⟩
  · simp [hn] at hs
  · cases hmfe : mfe with
    | true => rfl
    | false =>
      rcases hm hmfe with h1 | h1
      · have := h.owning_enabled he; rw [h1] at this; cases this
      · exact absurd h1 he

theorem Bus.Sound.accepted {b : Bus} (_h : b.Sound) (hm : b.mfe = true) (ho : b.occupied = false) (a : Action) :
    (b.accept a).Sound := by
  obtain ⟨hb, hl⟩ := occupied_eq_false.1 ho
  refine ⟨fun _ => hb, ?_, fun _ => rfl, fun _ => ⟨rfl, rfl, rfl, rfl, rfl⟩, fun _ => hm, fun _ => hm⟩
  simp [Bus.accept, Bus.occupied]

theorem Bus.Sound.changes {b c : Bus} (h : b.Sound) (hc : b.Changes c) : c.Sound := by
  rcases hc with hc | ⟨hm, ho, a, rfl⟩
  · exact h.writes hc
  · exact h.accepted hm ho a

theorem Bus.Sound.visible {b : Bus} (h : b.Sound) (hl : b.lag = true) : b.becomeVisible.Sound := by
  have ha : b.act.isSome = true := by rw [h.act_while_occupied]; simp [Bus.occupied, hl]
  refine ⟨fun hl => absurd hl (by simp), ?_, fun _ => ha, fun _ => h.clear_while_acting ha, fun _ => h.acting_enabled ha, h.owning_enabled⟩
  rw [show b.becomeVisible.act = b.act from rfl, ha]; simp [Bus.occupied]

/-- An instance whose action is over is sound, whatever its flags. -/
theorem Bus.Sound.over {b : Bus} (hb : b.busy = false) (hl : b.lag = false) (ha : b.act = none) (ht : b.toArmed = false)
    (hm : b.mfe = true) : b.Sound :=
  ⟨fun _ => hb, by simp [Bus.occupied, hb, hl, ha], by simp [ht], by simp [ha], by simp [ha], fun _ => hm⟩

theorem Bus.Sound.completes {b : Bus} {a : Action} (h : b.Sound) (ha : b.act = some a) (hl : b.lag = false) (o : EnvOutcome)
    (w : Word) (e : Byte) : (b.completed a o w e).Sound := by
  obtain ⟨h1, h2, h3, h4, h5, -⟩ := completed_frame b a o w e
  exact Bus.Sound.over h1 (h4.trans hl) h2 h3 (h5.trans (h.acting_enabled (by simp [ha])))

theorem Bus.Sound.expires {b : Bus} (h : b.Sound) (hc : b.canExpire = true) (w : Word) (e : Byte) (g : Eng) :
    (b.expired w e g).Sound := by
  obtain ⟨c1, c2, c3⟩ := canExpire_iff.1 hc
  obtain ⟨h1, h2, h3, h4, h5, -⟩ := expired_frame b w e g
  exact Bus.Sound.over h1 (h4.trans c3) h2 h3 (h5.trans (h.acting_enabled (h.armed_while_acting c1)))

theorem Bus.reset_sound : Bus.reset.Sound := ⟨by decide, by decide, by decide, by decide, by decide, by decide⟩

/-! ## Soundness of the state -/

/-- Soundness looks at the instances and at buffer memory only. -/
theorem State.Sound.of_eq {s t : State} (h : s.Sound) (h1 : t.buses = s.buses) (h2 : t.buf = s.buf) : t.Sound :=
  ⟨by rw [h1]; exact h.buses_wf, by rw [h2]; exact h.buf_wf, fun k => by unfold State.bus; rw [h1]; exact h.bus_sound k⟩

theorem State.Sound.setBus {s : State} (h : s.Sound) (k : Nat) {b : Bus} (hb : b.Sound) : (s.setBus k b).Sound := by
  refine ⟨sparseWf_set _ _ _ _ h.buses_wf, h.buf_wf, fun m => ?_⟩
  rw [bus_setBus]
  split
  · exact hb
  · exact h.bus_sound m

theorem State.Sound.memWrite {s : State} (h : s.Sound) (a : Nat) (v : Byte) : (s.memWrite a v).Sound :=
  ⟨h.buses_wf, memWrite_wf s a v h.buf_wf, h.bus_sound⟩

theorem State.Sound.written {s t : State} {k : Nat} (h : s.Sound) (hw : State.Written k s t) : t.Sound := by
  rcases hw with rfl | ⟨c, hc, rfl⟩
  · exact h
  · exact h.setBus k ((h.bus_sound k).changes hc)

theorem State.Sound.ofFrame {s t : State} (h : s.Sound) (hf : exFrame s t) : t.Sound := by
  obtain ⟨h1, h2⟩ := hf
  have hbuf : t.buf = s.buf := by rw [h1]
  rcases h2 with h2 | ⟨hm, ho, a, h2⟩
  · exact h.of_eq h2 hbuf
  · exact (h.setBus s.inst ((h.bus_sound s.inst).accepted hm ho a)).of_eq h2 hbuf

theorem State.Sound.expire {s : State} (h : s.Sound) {k : Nat} (hc : (s.bus k).canExpire = true) : (s.expire k).Sound :=
  (h.setBus k ((h.bus_sound k).expires hc s.anyWord s.anyByte s.anyEng)).of_eq rfl rfl

theorem State.Sound.complete {s : State} (h : s.Sound) {k : Nat} {o : EnvOutcome} (hc : (s.bus k).canComplete o = true) :
    (s.complete k o).Sound := by
  obtain ⟨-, hl, a, ha, -⟩ := canComplete_iff.1 hc
  obtain ⟨n, hn⟩ := complete_some (o := o) ha
  rw [hn]
  exact (h.setBus k ((h.bus_sound k).completes ha hl o s.anyWord s.anyByte)).of_eq rfl rfl

theorem storeReceived_sound {s : State} (h : s.Sound) (d : Desc) : (s.storeReceived d).Sound := by
  unfold State.storeReceived
  cases d.dir
  · exact h
  · refine State.Sound.memWrite ?_ _ _
    unfold State.receivedRead
    split
    · exact h
    · exact h.of_eq rfl rfl

theorem seqComplete_sound {s : State} (h : s.Sound) (r : Code) : (seqComplete r s).Sound := by
  have ht : s.takeResult.Sound := h.of_eq rfl rfl
  cases r
  case ok =>
    unfold seqComplete
    dsimp only
    split
    · next d hd =>
      obtain ⟨q, c, v, ha⟩ := advance_frame (s.takeResult.storeReceived d) d
      rw [ha]
      exact (storeReceived_sound ht d).of_eq rfl rfl
    · exact h
  all_goals exact ht.of_eq rfl rfl

/-- Every instruction the host presents keeps the machine sound. -/
theorem hosted_sound {p : Packet} {i : Instr} {s t : State} (h : s.Sound) (hi : Instr.Hosted p i) (he : exec i s = .next t) :
    t.Sound := by
  rcases hi with hi | hi | ⟨a, b, c, rfl⟩ | ⟨a, o, rfl⟩ | rfl | ⟨rfl, -⟩
  · obtain ⟨r, c, l, n, rfl⟩ := exec_isRead hi he; exact h.of_eq rfl rfl
  · exact h.written (exec_onRegister hi he).2
  · obtain ⟨-, -, -, c, hc, -, rfl⟩ := execConfigure_next he
    exact (h.setBus a ((h.bus_sound a).writes hc)).of_eq rfl rfl
  · obtain ⟨-, -, q, v, c, rfl, -⟩ := execTransaction_next he; exact h.of_eq rfl rfl
  · obtain ⟨-, -, rfl⟩ := execRelease_next he; exact h.of_eq rfl rfl
  · injection he with he; subst he
    exact ⟨rfl, h.buf_wf, fun _ => Bus.reset_sound⟩

/-! ## What one step does to one instance -/

theorem bus_of_eq {s t : State} (h : t.buses = s.buses) (k : Nat) : t.bus k = s.bus k := by unfold State.bus; rw [h]

theorem bus_setBus_or (s : State) (m k : Nat) (b : Bus) : (s.setBus m b).bus k = s.bus k ∨ (k = m ∧ (s.setBus m b).bus k = b) := by
  rw [bus_setBus]
  split
  · next h => exact .inr ⟨h, rfl⟩
  · exact .inl rfl

theorem changes_of_set {s t : State} {m k : Nat} {c : Bus} (ht : t.buses = (s.setBus m c).buses) (hc : (s.bus m).Changes c) :
    t.bus k = s.bus k ∨ (s.bus k).Changes (t.bus k) := by
  have ht := bus_of_eq ht k
  rcases bus_setBus_or s m k c with h | ⟨rfl, h⟩
  · exact .inl (ht.trans h)
  · exact .inr (by rw [ht, h]; exact hc)

theorem changes_of_frame {s t : State} (hf : exFrame s t) (k : Nat) : t.bus k = s.bus k ∨ (s.bus k).Changes (t.bus k) := by
  rcases hf.2 with h | ⟨hm, ho, a, h⟩
  · exact .inl (bus_of_eq h k)
  · exact changes_of_set h (.inr ⟨hm, ho, a, rfl⟩)

theorem storeReceived_buses (s : State) (d : Desc) : (s.storeReceived d).buses = s.buses := by
  obtain ⟨n, h⟩ := storeReceived_frame s d; rw [h]

theorem seqComplete_buses (r : Code) (s : State) : (seqComplete r s).buses = s.buses := by
  cases r
  case ok =>
    unfold seqComplete
    dsimp only
    split
    · next d hd =>
      obtain ⟨q, c, v, ha⟩ := advance_frame (s.takeResult.storeReceived d) d
      rw [ha]
      exact storeReceived_buses s.takeResult d
    · rfl
  all_goals rfl

/-- What a packet the host presents does to one instance. -/
theorem hosted_bus {p : Packet} {i : Instr} {s t : State} (hi : Instr.Hosted p i) (he : exec i s = .next t) (k : Nat) :
    t.bus k = s.bus k ∨ (s.bus k).Changes (t.bus k) ∨ (p = ⟨.rst, [1]⟩ ∧ t.bus k = Bus.reset) := by
  rcases hi with hi | hi | ⟨a, b, c, rfl⟩ | ⟨a, o, rfl⟩ | rfl | ⟨rfl, hp⟩
  · obtain ⟨r, c, l, n, rfl⟩ := exec_isRead hi he; exact .inl rfl
  · rcases (exec_onRegister hi he).2 with rfl | ⟨c, hc, rfl⟩
    · exact .inl rfl
    · exact (changes_of_set rfl hc).imp_right .inl
  · obtain ⟨-, -, -, c, hc, -, rfl⟩ := execConfigure_next he
    exact (changes_of_set rfl (.inl hc)).imp_right .inl
  · obtain ⟨-, -, q, v, c, rfl, -⟩ := execTransaction_next he; exact .inl rfl
  · obtain ⟨-, -, rfl⟩ := execRelease_next he; exact .inl rfl
  · injection he with he; subst he; exact .inr (.inr ⟨hp, rfl⟩)

theorem expire_bus (s : State) (m k : Nat) :
    (s.expire m).bus k = s.bus k ∨ (k = m ∧ ∃ w e g, (s.expire m).bus k = (s.bus k).expired w e g) := by
  rcases bus_setBus_or s m k ((s.bus m).expired s.anyWord s.anyByte s.anyEng) with h | ⟨rfl, h⟩
  · exact .inl h
  · exact .inr ⟨rfl, _, _, _, h⟩

/-- One step leaves an instance as it is, or writes its registers or accepts a command, or ends its busy lag, or
completes or expires its action, or resets it. -/
theorem step_bus {s t : State} (h : step s = .next t) (k : Nat) :
    t.bus k = s.bus k ∨ (s.bus k).Changes (t.bus k) ∨
    ((s.bus k).lag = true ∧ t.bus k = (s.bus k).becomeVisible) ∨
    (∃ o rest a w e, s.sched = .complete k o :: rest ∧ (s.bus k).canComplete o = true ∧ (s.bus k).act = some a ∧
      t.bus k = (s.bus k).completed a o w e) ∨
    (((∃ rest, s.sched = .expire k :: rest) ∨ s.sched = []) ∧ (s.bus k).canExpire = true ∧
      ∃ w e g, t.bus k = (s.bus k).expired w e g) ∨
    ((∃ m rest, s.sched = .port m ⟨.rst, [1]⟩ :: rest) ∧ t.bus k = Bus.reset) := by
  rcases step_next h with ⟨m, p, rest, hr, h⟩ | ⟨a, b, rest, -, h⟩ | ⟨m, o, rest, hr, h⟩ | ⟨m, h⟩ | ⟨m, hr, h⟩ | h | h
  · rcases portMove_next h with rfl | ⟨i, -, he, hi⟩
    · exact .inl rfl
    rcases hosted_bus hi he k with hb | hb | ⟨rfl, hb⟩
    · exact .inl hb
    · exact .inr (.inl hb)
    · exact .inr (.inr (.inr (.inr (.inr ⟨⟨m, rest, presents_reset hr⟩, hb⟩))))
  · unfold hostStoreMove at h
    split at h
    · cases h
    split at h
    · cases h
    injection h with h; subst h; exact .inl rfl
  · unfold completeMove at h
    split at h <;> injection h with h
    · next hc =>
      obtain ⟨-, -, a, ha, -⟩ := canComplete_iff.1 hc
      obtain ⟨n, hn⟩ := complete_some (o := o) ha
      have hb : t.bus k = (s.popped.setBus m ((s.popped.bus m).completed a o s.popped.anyWord s.popped.anyByte)).bus k := by
        rw [← h, hn]; rfl
      rcases bus_setBus_or s.popped m k ((s.popped.bus m).completed a o s.popped.anyWord s.popped.anyByte) with h | ⟨rfl, h⟩
      · exact .inl (hb.trans h)
      · exact .inr (.inr (.inr (.inl ⟨o, rest, a, _, _, hr, hc, ha, hb.trans h⟩)))
    · exact .inl (by rw [← h]; rfl)
  · unfold visibleMove at h
    split at h <;> injection h with h
    · next hl =>
      rw [← h]
      rcases bus_setBus_or s.popped m k (s.popped.bus m).becomeVisible with h | ⟨rfl, h⟩
      · exact .inl h
      · exact .inr (.inr (.inl ⟨hl, h⟩))
    · exact .inl (by rw [← h]; rfl)
  · rcases expireMove_next h with ⟨-, rfl⟩ | ⟨hc, rfl⟩
    · exact .inl rfl
    · rcases expire_bus { s.popped with sel := m } m k with h | ⟨rfl, w, e, g, h⟩
      · exact .inl h
      · exact .inr (.inr (.inr (.inr (.inl ⟨hr, hc, w, e, g, h⟩))))
  · rcases exMove_next h with ⟨rfl, -⟩ | ⟨cmd, wc, -, h⟩ | ⟨-, h⟩
    · exact .inl rfl
    · exact (changes_of_frame (execExecute_frame h) k).imp_right .inl
    · exact (changes_of_frame (execNackStop_frame h) k).imp_right .inl
  · rcases seqMove_next h with rfl | ⟨d, -, -, h⟩ | ⟨d, -, -, h⟩ | ⟨-, r, -, rfl⟩
    · exact .inl rfl
    · obtain ⟨-, c, hc, rfl⟩ := execOpWrite_next h
      exact (changes_of_set (s := s.popped) rfl (.inl hc)).imp_right .inl
    · obtain ⟨-, rfl | ⟨c, hc, rfl⟩⟩ := execOpRead_next h
      · exact .inl rfl
      · exact (changes_of_set (s := s.popped) rfl (.inl hc)).imp_right .inl
    · exact .inl (bus_of_eq (seqComplete_buses r s.popped) k)

end Sys2Proof.Machine
end

