-- ==== Sys2Proof/Laws/Order.lean ====
section
/-! SUPPORT. How SEQ, EX and the bound instance stay in order under each agent's step (R168), and that each of the
controller's own steps has a next state. -/

namespace Sys2Proof.Machine

/-! ## The command of a byte is an action (R168) -/

/-- Where the engine stands for the byte, its command is an action of the byte's direction that leaves the engine where
the next byte needs it. -/
theorem command_action (p : Config.AckPolicy) (ops : List Desc) (i j : Nat) (d : Desc) (f : Bool) (eng : Eng) (rs : Bool)
    (h0 : f = false → eng = engOf d.dir) (h1 : f = true → rs = dirBit d.dir) :
    ∃ a, engDecode eng rs ((cmdAt p ops i j d.len d.dir f).extractLsb' 0 4) = .action a ∧
      a.next = engAfter ops i j d ∧ a.stop = lastGlobal ops i j d.len ∧ (f = true ↔ a.start ≠ .no) ∧
      (d.dir = .write → a.data = .tx) ∧ (d.dir = .read → a.data = .rxAck ∨ a.data = .rxNack) := by
  unfold cmdAt engAfter
  have hg : lastGlobal ops i j d.len = true → lastOfRun ops i j d.len d.dir = true := lastOfRun_of_lastGlobal d.dir
  revert hg h0 h1
  generalize lastGlobal ops i j d.len = g
  generalize lastOfRun ops i j d.len d.dir = lr
  generalize d.dir = dir
  intro h0 h1 hg
  cases f with
  | false =>
    rw [h0 rfl]
    cases p <;> cases dir <;> cases g <;> cases lr <;> first
      | (exfalso; simp at hg; done)
      | exact ⟨_, rfl, rfl, rfl, by decide, by decide, by decide⟩
  | true =>
    rw [h1 rfl]
    cases p <;> cases dir <;> cases g <;> cases lr <;> cases eng <;> first
      | (exfalso; simp at hg; done)
      | exact ⟨_, rfl, rfl, rfl, by decide, by decide, by decide⟩

/-! ## The order of SEQ, EX and the bound instance -/

/-- The order looks at the bound instance, EX, SEQ and the handle only. -/
theorem State.Ordered.of_eq {s t : State} (h : s.Ordered) (h1 : t.bus t.inst = s.bus s.inst) (h2 : t.ex = s.ex)
    (h3 : t.seq = s.seq) (h4 : t.owned = s.owned) (h5 : t.inst = s.inst) : t.Ordered := by
  constructor
  · intro ho; rw [h1, h5]; exact h.bound (h4 ▸ ho)
  · intro hi; unfold State.exRests; rw [h1, h2, h4]; exact h.idle_rests (h3 ▸ hi)
  · intro ha; rw [h4]; exact h.active_owned (h3 ▸ ha)
  · intro ha; rw [h3]; exact h.active_ops (h3 ▸ ha)
  · intro ha; unfold State.atByte; rw [h3]; exact h.active_byte (h3 ▸ ha)
  · intro d hi hb; unfold State.atByte at hb; unfold State.exRests; rw [h3] at hi hb ⊢; rw [h1, h2]; exact h.issue_ready d hi hb
  · intro d hi hb
    unfold State.atByte at hb
    rw [h3] at hi hb
    have := h.wait_follows d hi hb
    unfold State.exFollows State.cycleGoesOn State.byteDone State.cycleOf at this ⊢
    rw [h1, h2, h3]; exact this

/-- A machine whose sequencer is idle. -/
theorem State.Ordered.idle {s : State} (h1 : s.owned = true → s.inst < Config.nInstances ∧ (s.bus s.inst).mfe = true)
    (h2 : s.seq.st = .idle) (h3 : s.exRests) (h4 : s.owned = true → (s.bus s.inst).act = none) : s.Ordered :=
  ⟨h1, fun _ => ⟨h3, h4⟩, fun h => absurd h2 h, fun h => absurd h2 h, fun h => absurd h2 h,
    fun d h => (by rw [h2] at h; cases h), fun d h => (by rw [h2] at h; cases h)⟩

/-- A machine about to issue the byte `d`. -/
theorem State.Ordered.issue {s : State} {d : Desc} (ho : s.owned = true)
    (h1 : s.inst < Config.nInstances ∧ (s.bus s.inst).mfe = true) (h2 : s.seq.st = .issue)
    (h3 : ∀ d ∈ s.seq.ops, 0 < d.len) (h4 : s.atByte d) (h5 : s.exRests)
    (h6 : (s.bus s.inst).act = none) (h7 : s.seq.pend = false → (s.bus s.inst).eng = engOf d.dir) : s.Ordered := by
  refine ⟨fun _ => h1, fun h => ?_, fun _ => ho, fun _ => h3, fun _ => ⟨d, h4⟩, fun e _ he => ?_, fun e h => ?_⟩
  · rw [h2] at h; cases h
  · have : some e = some d := he.1.symm.trans h4.1
    injection this with this; subst this
    exact ⟨h5, h6, h7⟩
  · rw [h2] at h; cases h

/-- A machine waiting for the byte `d`. -/
theorem State.Ordered.wait {s : State} {d : Desc} (ho : s.owned = true)
    (h1 : s.inst < Config.nInstances ∧ (s.bus s.inst).mfe = true) (h2 : s.seq.st = .wait)
    (h3 : ∀ d ∈ s.seq.ops, 0 < d.len) (h4 : s.atByte d) (h5 : s.exFollows d) : s.Ordered := by
  refine ⟨fun _ => h1, fun h => ?_, fun _ => ho, fun _ => h3, fun _ => ⟨d, h4⟩, fun e h => ?_, fun e _ he => ?_⟩
  · rw [h2] at h; cases h
  · rw [h2] at h; cases h
  · have : some e = some d := he.1.symm.trans h4.1
    injection this with this; subst this
    exact h5

/-- What a waiting machine gives. -/
theorem State.Ordered.waiting {s : State} (h : s.Ordered) (hw : s.seq.st = .wait) :
    s.owned = true ∧ ∃ d, s.atByte d ∧ s.exFollows d := by
  have hn : s.seq.st ≠ .idle := by rw [hw]; decide
  obtain ⟨d, hd⟩ := h.active_byte hn
  exact ⟨h.active_owned hn, d, hd, h.wait_follows d hw hd⟩

/-- What an issuing machine gives. -/
theorem State.Ordered.issuing {s : State} (h : s.Ordered) (hw : s.seq.st = .issue) :
    s.owned = true ∧ ∃ d, s.atByte d ∧ s.exRests ∧ (s.bus s.inst).act = none ∧
      (s.seq.pend = false → (s.bus s.inst).eng = engOf d.dir) := by
  have hn : s.seq.st ≠ .idle := by rw [hw]; decide
  obtain ⟨d, hd⟩ := h.active_byte hn
  exact ⟨h.active_owned hn, d, hd, h.issue_ready d hw hd⟩

/-- EX's cycle is requested only while SEQ waits. -/
theorem State.Ordered.requesting {s : State} (h : s.Ordered) (hr : ¬s.exRests) : s.seq.st = .wait := by
  cases hs : s.seq.st with
  | idle => exact absurd (h.idle_rests hs).1 hr
  | issue => obtain ⟨-, d, -, he, -⟩ := h.issuing hs; exact absurd he hr
  | wait => rfl

/-- EX and the bound instance move on while SEQ waits. -/
theorem State.Ordered.goesOn {s t : State} {d : Desc} (h : s.Ordered) (hw : s.seq.st = .wait) (hd : s.atByte d)
    (h1 : (t.bus s.inst).mfe = (s.bus s.inst).mfe) (h2 : t.seq = s.seq) (h3 : t.owned = s.owned) (h4 : t.inst = s.inst)
    (hf : t.exFollows d) : t.Ordered := by
  have hn : s.seq.st ≠ .idle := by rw [hw]; decide
  have ho := h.active_owned hn
  obtain ⟨b1, b2⟩ := h.bound ho
  refine State.Ordered.wait (d := d) (by rw [h3]; exact ho) ⟨by rw [h4]; exact b1, by rw [h4, h1]; exact b2⟩ (by rw [h2]; exact hw)
    (by rw [h2]; exact h.active_ops hn) (by unfold State.atByte; rw [h2]; exact hd) hf

/-! ## EX's step -/

theorem exFollows_act {s : State} {d : Desc} (hf : s.exFollows d) (h : s.ex.st = .idle ∨ s.ex.st = .waitc) :
    (s.bus s.inst).act = none := by
  unfold State.exFollows at hf
  rcases h with h | h <;> rw [h] at hf
  · exact hf.1
  · exact hf.2.2.1

/-- No action is in progress outside the lag and `BUSY`. -/
theorem Bus.Sound.act_none {b : Bus} (h : b.Sound) (hb : b.busy = false) (hl : b.lag = false) : b.act = none := by
  have := h.act_while_occupied
  rw [occupied_eq_false.2 ⟨hb, hl⟩] at this
  simpa using this

theorem Bus.Sound.free {b : Bus} (h : b.Sound) (ha : b.act = none) : b.occupied = false := by
  rw [← h.act_while_occupied, ha]; rfl

/-- The frame lemmas' form of a step of EX: same sequencer and handle, same `MFE`. -/
theorem ordered_of_frame {s t : State} {d : Desc} (h : s.Ordered) (hw : s.seq.st = .wait) (hd : s.atByte d)
    (hf : exFrame s t) (hx : t.exFollows d) : t.Ordered := by
  refine h.goesOn hw hd ?_ (by rw [hf.1]) (by rw [hf.1]) (by rw [hf.1]) hx
  rcases hf.2 with h2 | ⟨-, -, a, h2⟩
  · rw [bus_of_eq h2]
  · rw [bus_of_eq h2, bus_setBus_self]; rfl

/-- The recovery STOP starts in order. -/
theorem startNackStop_ordered {s : State} {d : Desc} (e : NackKind) (hs : s.Sound) (h : s.Ordered) (hw : s.seq.st = .wait)
    (hd : s.atByte d) (hm : (s.bus s.inst).mfe = true) (ha : (s.bus s.inst).act = none)
    (hr : s.ex.req = some (s.cycleOf d) ∧ s.ex.result = none) : ∃ t, startNackStop e s = .next t ∧ t.Ordered := by
  have hn := startNackStop_ok e hm ((hs.bus_sound _).free ha)
  refine ⟨_, hn, ordered_of_frame h hw hd (startNackStop_frame hn) ?_⟩
  split <;> exact hr

/-- A classified read in order: `good` when the cycle went well. -/
theorem exClassified_ordered {s good : State} {d : Desc} (hs : s.Sound) (h : s.Ordered) (hw : s.seq.st = .wait)
    (hd : s.atByte d) (hm : (s.bus s.inst).mfe = true) (ha : (s.bus s.inst).act = none)
    (hr : s.ex.req = some (s.cycleOf d) ∧ s.ex.result = none)
    (hg : (s.bus s.inst).outcome = .ok → good.Ordered) :
    ∃ t, exClassified (s.bus s.inst).outcome good s = .next t ∧ t.Ordered := by
  have hret : ∀ c, c ≠ .ok → (s.exReturn c).Ordered := fun c hc =>
    h.goesOn hw hd rfl rfl rfl rfl ⟨ha, .inr ⟨rfl, c, rfl, fun e => absurd e hc⟩⟩
  cases hc : (s.bus s.inst).outcome with
  | ok => exact ⟨good, rfl, hg hc⟩
  | nackAddress => exact startNackStop_ordered .address hs h hw hd hm ha hr
  | nackData => exact startNackStop_ordered .data hs h hw hd hm ha hr
  | timeout => exact ⟨_, rfl, hret _ (by decide)⟩
  | arbitrationLoss => exact ⟨_, rfl, hret _ (by decide)⟩
  | invalidArgument => exact ⟨_, rfl, hret _ (by decide)⟩

/-- A state after a status read is in order. -/
theorem statRead_ordered {s : State} (h : s.Ordered) (k : Nat) : (s.statRead k).Ordered :=
  h.of_eq (by simp) (by simp) (by simp) (by simp) (by simp)

theorem statRead_atByte {s : State} {d : Desc} (h : s.atByte d) (k : Nat) : (s.statRead k).atByte d := by
  unfold State.atByte at *; rw [statRead_seq]; exact h

theorem statRead_cycleOf (s : State) (k : Nat) (d : Desc) : (s.statRead k).cycleOf d = s.cycleOf d := by
  unfold State.cycleOf; rw [statRead_seq]

/-- A step of EX on a requested cycle has a next state in order. -/
theorem execExecute_ordered {s : State} (hs : s.Sound) (h : s.Ordered) {cmd : Word} {wc : WaitCond}
    (hr : s.ex.req = some (cmd, wc)) (h1 : s.ex.st ≠ .nstopSettle) (h2 : s.ex.st ≠ .nstopPoll) :
    cmd.toNat < 16 ∧ ∃ t, execExecute cmd wc s = .next t ∧ t.Ordered := by
  have hw := h.requesting (fun hx => by rw [hx.2.1] at hr; cases hr)
  obtain ⟨ho, d, hd, hf⟩ := h.waiting hw
  obtain ⟨hlt, hm⟩ := h.bound ho
  have hcyc : s.ex.req = some (s.cycleOf d) := by
    unfold State.exFollows at hf
    cases hst : s.ex.st <;> rw [hst] at hf
    case idle =>
      rcases hf.2 with ⟨hq, -⟩ | ⟨hq, -⟩
      · exact hq
      · rw [hq] at hr; cases hr
    all_goals exact hf.1
  have hce : (cmd, wc) = s.cycleOf d := by rw [hcyc] at hr; injection hr with hr; exact hr.symm
  have hcmd : cmd = cmdAt Config.ackBeforeRestart s.seq.ops s.seq.i s.seq.j d.len d.dir s.seq.pend := congrArg Prod.fst hce
  have hwc : wc = (s.cycleOf d).2 := congrArg Prod.snd hce
  have h16 : cmd.toNat < 16 := by rw [hcmd]; exact (cmdAt_bits _ _ _ _ _ _ _).2.2.2.2
  refine ⟨h16, ?_⟩
  cases hst : s.ex.st with
  | nstopSettle => exact absurd hst h1
  | nstopPoll => exact absurd hst h2
  | idle =>
    have hact := exFollows_act hf (.inl hst)
    unfold State.exFollows at hf
    rw [hst] at hf
    obtain ⟨-, ⟨-, hres, hp0, hp1⟩ | ⟨hq, -⟩⟩ := hf
    · obtain ⟨a, ha, hn, -, -, htx, hrx⟩ := command_action Config.ackBeforeRestart s.seq.ops s.seq.i s.seq.j d s.seq.pend
        (s.bus s.inst).eng (s.bus s.inst).saRs hp0 hp1
      rw [← hcmd] at ha
      have hx := exStart_action wc h16 hm ((hs.bus_sound _).free hact) ha
      rw [execExecute_idle hr hst]
      refine ⟨_, hx, ordered_of_frame h hw hd (exStart_frame hx) ⟨hcyc, hwc, hres, ?_⟩⟩
      unfold State.cycleGoesOn
      rw [setBus_inst, bus_setBus_self]
      refine ⟨hn, fun hd => ?_⟩
      unfold Action.receives
      rcases hrx hd with h | h <;> rw [h] <;> rfl
    · rw [hq] at hr; cases hr
  | settle =>
    unfold State.exFollows at hf
    rw [hst] at hf
    obtain ⟨hq, hwc', hres, hgo⟩ := hf
    rw [execExecute_settle hr hst]
    cases hl : (s.bus s.inst).lag with
    | true => exact ⟨s, exSettle_held hl, h⟩
    | false => exact ⟨_, exSettle_done hl, h.goesOn hw hd rfl rfl rfl rfl ⟨hq, hwc', hres, hgo, hl⟩⟩
  | poll =>
    unfold State.exFollows at hf
    rw [hst] at hf
    obtain ⟨hq, hwc', hres, hgo, hl⟩ := hf
    rw [execExecute_poll hr hst]
    cases hb : (s.bus s.inst).busy with
    | true => exact ⟨s, exPoll_busy hl hb, h⟩
    | false =>
      have hact := (hs.bus_sound s.inst).act_none hb hl
      unfold State.cycleGoesOn at hgo
      rw [hact] at hgo
      rw [exPoll_done hl hb]
      have key : ∀ good : State, ((s.bus s.inst).outcome = .ok → good.Ordered) →
          ∃ t, exClassified (s.bus s.inst).outcome good (s.statRead s.inst) = .next t ∧ t.Ordered := fun good hg => by
        have := exClassified_ordered (s := s.statRead s.inst) (d := d) (good := good)
          (hs.of_eq (by simp) (by simp)) (statRead_ordered h _) (by rw [statRead_seq]; exact hw) (statRead_atByte hd _)
          (by simpa using hm) (by simpa using hact) (by rw [statRead_ex, statRead_cycleOf]; exact ⟨hq, hres⟩)
          (by simpa using hg)
        simpa using this
      have hbd : ∀ u : State, (s.bus s.inst).outcome = .ok → u.bus u.inst = s.bus s.inst → u.seq = s.seq → u.byteDone d :=
        fun u hok e1 e2 => by have := hgo hok; unfold State.byteDone at *; rw [e1, e2]; exact this
      cases hx : s.ex.wc with
      | busbsyClear =>
        refine key _ fun hok => h.goesOn hw hd (by simp) (by simp) (by simp) (by simp)
          ⟨by simpa [State.cycleOf] using hq, by simpa using hres, by simpa using hact, by simpa using hok, ?_⟩
        exact hbd _ hok (by simp) (by simp)
      | always =>
        exact key _ fun hok => h.goesOn hw hd (by simp) (by simp) (by simp) (by simp)
          ⟨by simpa using hact, .inr ⟨rfl, .ok, rfl, fun _ => hbd _ hok (by simp) (by simp)⟩⟩
  | waitc =>
    have hact := exFollows_act hf (.inr hst)
    unfold State.exFollows at hf
    rw [hst] at hf
    obtain ⟨hq, hres, -, hok, hbd⟩ := hf
    rw [execExecute_waitc hr hst]
    have hl : (s.bus s.inst).lag = false := (occupied_eq_false.1 ((hs.bus_sound _).free hact)).2
    rw [exWait_visible hl, hok]
    refine ⟨_, rfl, ?_⟩
    split
    · exact statRead_ordered h _
    · refine h.goesOn hw hd (by simp) (by simp) (by simp) (by simp)
        ⟨by simpa using hact, .inr ⟨rfl, .ok, rfl, fun _ => ?_⟩⟩
      unfold State.byteDone at *
      simpa using hbd

/-- A step of the recovery STOP has a next state in order. -/
theorem execNackStop_ordered {s : State} (hs : s.Sound) (h : s.Ordered) (hst : s.ex.st = .nstopSettle ∨ s.ex.st = .nstopPoll) :
    ∃ t, execNackStop s = .next t ∧ t.Ordered := by
  have hw := h.requesting (fun hx => by rw [hx.1] at hst; rcases hst with hst | hst <;> cases hst)
  obtain ⟨ho, d, hd, hf⟩ := h.waiting hw
  unfold State.exFollows at hf
  unfold execNackStop
  rcases hst with hst | hst <;> rw [hst] at hf <;> simp only [hst]
  · cases hl : (s.bus s.inst).lag with
    | true => exact ⟨s, by simp [nackStopSettle, hl], h⟩
    | false =>
      exact ⟨s.exGoto .nstopPoll, by simp [nackStopSettle, hl], h.goesOn hw hd rfl rfl rfl rfl ⟨hf.1, hf.2, hl⟩⟩
  · obtain ⟨hq, hres, hl⟩ := hf
    cases hb : (s.bus s.inst).busy with
    | true => exact ⟨s, nackStopPoll_busy hl hb, h⟩
    | false =>
      refine ⟨_, nackStopPoll_done hl hb, h.goesOn hw hd (by simp) (by simp) (by simp) (by simp)
        ⟨by simpa using (hs.bus_sound s.inst).act_none hb hl, .inr ⟨rfl, _, rfl, fun e => ?_⟩⟩⟩
      cases hk : s.ex.err <;> rw [hk] at e <;> cases e

/-- EX's move has a next state in order. -/
theorem exMove_ordered {s : State} (hs : s.Sound) (h : s.Ordered) : ∃ t, exMove s = .next t ∧ t.Ordered := by
  by_cases h1 : s.ex.st = .nstopSettle
  · unfold exMove State.fetchEx; rw [h1]; exact execNackStop_ordered hs h (.inl h1)
  by_cases h2 : s.ex.st = .nstopPoll
  · unfold exMove State.fetchEx; rw [h2]; exact execNackStop_ordered hs h (.inr h2)
  cases hr : s.ex.req with
  | none =>
    refine ⟨s, ?_, h⟩
    unfold exMove State.fetchEx; rw [hr]
    cases hst : s.ex.st <;> first | rfl | exact absurd hst h1 | exact absurd hst h2
  | some c =>
    obtain ⟨cmd, wc⟩ := c
    obtain ⟨h16, hx⟩ := execExecute_ordered hs h hr h1 h2
    have : exMove s = execExecute cmd wc s := by
      unfold exMove State.fetchEx; rw [hr]
      have := runPacket_ok (decode_cycle h16 wc) s
      cases hst : s.ex.st <;> first | exact this | exact absurd hst h1 | exact absurd hst h2
    rw [this]; exact hx

/-! ## SEQ's step -/

theorem canIssue_of_ordered {s : State} {d : Desc} (hi : s.seq.st = .issue) (hd : s.atByte d) (hx : s.exRests) :
    s.canIssue d = true := canIssue_iff.2 ⟨hi, hx.1, hd.1, hd.2.1⟩

/-- Requesting the cycle of the byte. -/
theorem requestCycle_ordered {s : State} {d : Desc} {c : Bus} (h : s.Ordered) (hi : s.seq.st = .issue) (hd : s.atByte d)
    (hx : s.exRests) (ha : c.act = none) (hm : c.mfe = true) (h0 : s.seq.pend = false → c.eng = engOf d.dir)
    (h1 : s.seq.pend = true → c.saRs = dirBit d.dir) : ((s.setBus s.inst c).requestCycle d).Ordered := by
  have hn : s.seq.st ≠ .idle := by rw [hi]; decide
  have ho := h.active_owned hn
  have hb : ((s.setBus s.inst c).requestCycle d).bus ((s.setBus s.inst c).requestCycle d).inst = c := bus_setBus_self s s.inst c
  refine State.Ordered.wait (d := d) ho ⟨(h.bound ho).1, by rw [hb]; exact hm⟩ rfl (h.active_ops hn) hd ?_
  unfold State.exFollows
  rw [show ((s.setBus s.inst c).requestCycle d).ex.st = .idle from hx.1]
  dsimp only
  rw [hb]
  exact ⟨ha, .inl ⟨rfl, rfl, h0, h1⟩⟩

/-- The issue of a byte has a next state in order. -/
theorem issue_ordered {s : State} (hs : s.Sound) (h : s.Ordered) (hi : s.seq.st = .issue) :
    ∃ t, seqMove s = .next t ∧ t.Ordered := by
  obtain ⟨ho, d, hd, hx, ha, hp⟩ := h.issuing hi
  obtain ⟨-, hm⟩ := h.bound ho
  have hfree := (hs.bus_sound _).free ha
  have hn : s.seq.st ≠ .idle := by rw [hi]; decide
  have hcan := canIssue_of_ordered hi hd hx
  rw [seqMove_issue hi hx.1 hd.1]
  obtain ⟨dir, len, base⟩ := d
  have hsame : s.setBus s.inst (s.bus s.inst) = s := setBus_bus s hs.buses_wf s.inst
  cases dir with
  | write =>
    simp only [issueInstr, exec, execOpWrite, hcan, if_true, writeDr_dataWord _ hfree, andThen_of_next]
    cases hpend : s.seq.pend with
    | true =>
      rw [issueAddress_pend (s := s.setBus _ _) .write hpend (by rw [setBus_inst, bus_setBus_self]; exact hfree), andThen_of_next,
        setBus_inst, setBus_setBus, bus_setBus_self]
      exact ⟨_, rfl, requestCycle_ordered h hi hd hx ha hm (fun h => by rw [hpend] at h; cases h) (fun _ => rfl)⟩
    | false =>
      rw [issueAddress_none (s := s.setBus _ _) .write hpend, andThen_of_next]
      exact ⟨_, rfl, requestCycle_ordered h hi hd hx ha hm hp (fun h => by rw [hpend] at h; cases h)⟩
  | read =>
    simp only [issueInstr, exec, execOpRead, hcan, if_true]
    cases hpend : s.seq.pend with
    | true =>
      rw [issueAddress_pend .read hpend hfree, andThen_of_next]
      exact ⟨_, rfl, requestCycle_ordered h hi hd hx ha hm (fun h => by rw [hpend] at h; cases h) (fun _ => rfl)⟩
    | false =>
      rw [issueAddress_none .read hpend, andThen_of_next]
      refine ⟨_, rfl, ?_⟩
      have := requestCycle_ordered h hi hd hx ha hm hp (fun h => by rw [hpend] at h; cases h)
      rwa [hsame] at this

/-- Advancing after a byte that went well. -/
theorem advance_ordered {s u : State} {d : Desc} (h : s.Ordered) (hw : s.seq.st = .wait) (hd : s.atByte d)
    (ha : (s.bus s.inst).act = none) (he : (s.bus s.inst).eng = engAfter s.seq.ops s.seq.i s.seq.j d)
    (h1 : u.buses = s.buses) (h2 : u.seq = s.seq) (h3 : u.owned = s.owned) (h4 : u.inst = s.inst) (h5 : u.exRests) :
    (u.advance d).Ordered := by
  have hn : s.seq.st ≠ .idle := by rw [hw]; decide
  have ho := h.active_owned hn
  obtain ⟨b1, b2⟩ := h.bound ho
  have a2 := h.active_ops hn
  have hb : u.bus u.inst = s.bus s.inst := by rw [bus_of_eq h1, h4]
  obtain ⟨d1, d2, d3⟩ := hd
  by_cases hj : s.seq.j + 1 < d.len
  · rw [advance_within (by rw [h2]; exact hj) (by rw [h2]; exact d1)]
    refine State.Ordered.issue (d := d) (by rw [← ho, ← h3]) ?_ rfl ?_ ?_ h5 ?_ ?_
    · exact ⟨h4 ▸ b1, (congrArg Bus.mfe hb).trans b2⟩
    · rw [h2]; exact a2
    · refine ⟨by rw [← d1, ← h2], by rw [← h2] at hj; exact hj, ?_⟩
      simp [firstOfRun]
    · exact (congrArg Bus.act hb).trans ha
    · intro _
      refine (congrArg Bus.eng hb).trans (he.trans ?_)
      unfold engAfter lastGlobal
      rw [if_neg]
      simp only [Bool.and_eq_true, decide_eq_true_eq, not_and]
      omega
  · have hj' : s.seq.j + 1 = d.len := by omega
    cases hnx : s.seq.ops[s.seq.i + 1]? with
    | none =>
      rw [advance_last (by rw [h2]; omega) (by rw [h2]; exact hnx)]
      exact State.Ordered.idle (fun _ => ⟨h4 ▸ b1, (congrArg Bus.mfe hb).trans b2⟩) rfl h5 (fun _ => (congrArg Bus.act hb).trans ha)
    | some n =>
      rw [advance_next (by rw [h2]; omega) (by rw [h2]; exact hnx)]
      have hmem : n ∈ s.seq.ops := List.mem_of_getElem? hnx
      refine State.Ordered.issue (d := n) (by rw [← ho, ← h3]) ?_ rfl ?_ ?_ h5 ?_ ?_
      · exact ⟨h4 ▸ b1, (congrArg Bus.mfe hb).trans b2⟩
      · rw [h2]; exact a2
      · refine ⟨by rw [← hnx, ← h2], a2 n hmem, ?_⟩
        show decide (n.dir ≠ d.dir) = firstOfRun u.seq.ops (u.seq.i + 1) 0 n.dir
        rw [h2]
        simp [firstOfRun, runStartsAt, d1, eq_comm]
      · exact (congrArg Bus.act hb).trans ha
      · intro hp
        have hp : n.dir = d.dir := by simpa using hp
        refine (congrArg Bus.eng hb).trans (he.trans ?_)
        unfold engAfter lastGlobal
        rw [if_neg, hp]
        simp only [Bool.and_eq_true, decide_eq_true_eq, not_and]
        have := (List.getElem?_eq_some_iff.1 hnx).1
        omega

/-- SEQ takes a result in order. -/
theorem seqComplete_ordered {s : State} (h : s.Ordered) (hw : s.seq.st = .wait) {r : Code} (hr : s.ex.result = some r) :
    (seqComplete r s).Ordered := by
  obtain ⟨ho, d, hd, hf⟩ := h.waiting hw
  have hst : s.ex.st = .idle := by
    unfold State.exFollows at hf
    cases hst : s.ex.st <;> rw [hst] at hf
    case settle => rw [hf.2.2.1] at hr; cases hr
    case poll => rw [hf.2.2.1] at hr; cases hr
    case waitc => rw [hf.2.1] at hr; cases hr
    case nstopSettle => rw [hf.2] at hr; cases hr
    case nstopPoll => rw [hf.2.1] at hr; cases hr
  have ha := exFollows_act hf (.inl hst)
  unfold State.exFollows at hf
  rw [hst] at hf
  obtain ⟨-, ⟨-, hq, -⟩ | ⟨hq, r', hr', hok⟩⟩ := hf
  · rw [hq] at hr; cases hr
  have hx : s.takeResult.exRests := ⟨hst, hq, rfl⟩
  cases r
  case ok =>
    rw [seqComplete_ok hd.1]
    have : r' = .ok := by rw [hr] at hr'; injection hr' with hr'; exact hr'.symm
    obtain ⟨he, -⟩ := hok this
    obtain ⟨n, hfr⟩ := storeReceived_frame s.takeResult d
    refine advance_ordered h hw hd ha he ?_ ?_ ?_ ?_ ?_ <;> rw [hfr]
    · rfl
    · rfl
    · rfl
    · rfl
    · exact hx
  all_goals exact State.Ordered.idle (fun _ => h.bound ho) rfl hx (fun _ => ha)

/-- SEQ's move has a next state in order. -/
theorem seqMove_ordered {s : State} (hs : s.Sound) (h : s.Ordered) : ∃ t, seqMove s = .next t ∧ t.Ordered := by
  cases hst : s.seq.st with
  | issue => exact issue_ordered hs h hst
  | idle =>
    refine ⟨s, ?_, h⟩
    unfold seqMove State.fetchSeq; rw [hst]; simp
  | wait =>
    have hf : s.fetchSeq = none := by unfold State.fetchSeq; rw [hst]; simp
    unfold seqMove
    rw [hf, hst]
    cases hr : s.ex.result with
    | none => exact ⟨s, rfl, h⟩
    | some r => exact ⟨_, rfl, seqComplete_ordered h hst hr⟩

/-! ## The engine's, the detector's and the environment's steps -/

/-- The bound instance's action goes on or ends; nothing else of the order changes. -/
theorem ordered_of_action {s t : State} (h : s.Ordered) (hact : (s.bus s.inst).act.isSome = true)
    (h1 : t.ex = s.ex) (h2 : t.seq = s.seq) (h3 : t.owned = s.owned) (h4 : t.inst = s.inst)
    (hm : (t.bus s.inst).mfe = (s.bus s.inst).mfe)
    (hgo : ∀ d, s.cycleGoesOn d → t.cycleGoesOn d)
    (hl : (s.bus s.inst).lag = false → (t.bus s.inst).lag = false) : t.Ordered := by
  cases hst : s.seq.st with
  | idle =>
    have hi := h.idle_rests hst
    cases ho : s.owned with
    | true => have := hi.2 ho; rw [this] at hact; cases hact
    | false =>
      refine State.Ordered.idle (fun h => ?_) (by rw [h2]; exact hst) ?_ (fun h => ?_)
      · rw [h3, ho] at h; cases h
      · unfold State.exRests; rw [h1]; exact hi.1
      · rw [h3, ho] at h; cases h
  | issue => obtain ⟨-, d, -, -, ha, -⟩ := h.issuing hst; rw [ha] at hact; cases hact
  | wait =>
    obtain ⟨ho, d, hd, hf⟩ := h.waiting hst
    refine h.goesOn hst hd hm h2 h3 h4 ?_
    have hcy : t.cycleOf d = s.cycleOf d := by unfold State.cycleOf; rw [h2]
    unfold State.exFollows at hf ⊢
    rw [h1, hcy, h4]
    cases hx : s.ex.st <;> rw [hx] at hf
    case idle => have := hf.1; rw [this] at hact; cases hact
    case settle => exact ⟨hf.1, hf.2.1, hf.2.2.1, hgo d hf.2.2.2⟩
    case poll => exact ⟨hf.1, hf.2.1, hf.2.2.1, hgo d hf.2.2.2.1, hl hf.2.2.2.2⟩
    case waitc => have := hf.2.2.1; rw [this] at hact; cases hact
    case nstopSettle => exact hf
    case nstopPoll => exact ⟨hf.1, hf.2.1, hl hf.2.2⟩

theorem visible_ordered {s : State} (hs : s.Sound) (h : s.Ordered) {k : Nat} (hl : (s.bus k).lag = true) :
    (s.setBus k (s.bus k).becomeVisible).Ordered := by
  by_cases hk : s.inst = k
  · subst hk
    refine ordered_of_action h (by rw [(hs.bus_sound _).act_while_occupied]; simp [Bus.occupied, hl]) rfl rfl rfl rfl
      (by rw [bus_setBus_self]; rfl) (fun d hd => ?_) (fun h => by rw [hl] at h; cases h)
    unfold State.cycleGoesOn State.byteDone at hd ⊢
    rw [setBus_inst, bus_setBus_self]
    exact hd
  · exact h.of_eq (bus_setBus_ne s _ hk) rfl rfl rfl rfl

/-- After a completion the cycle went well where the outcome is none. -/
theorem completed_goes {s t : State} (hs : s.Sound) {o : EnvOutcome} {a : Action} {d : Desc} {w : Word} {e : Byte}
    (ha : (s.bus s.inst).act = some a) (ht : t.bus t.inst = (s.bus s.inst).completed a o w e) (h2 : t.seq = s.seq)
    (h : s.cycleGoesOn d) : t.cycleGoesOn d := by
  unfold State.cycleGoesOn at h ⊢
  rw [ha] at h
  rw [ht, (completed_frame (s.bus s.inst) a o w e).2.1]
  obtain ⟨hn, hr⟩ := h
  intro hok
  unfold State.byteDone
  rw [h2, ht]
  cases o with
  | ok b =>
    refine ⟨hn, fun hd => ?_⟩
    unfold Bus.completed
    simp only [receive_of_receives _ b true (hr hd)]
    rfl
  | addrNack held =>
    obtain ⟨c1, c2, c3, c4, c5⟩ := (hs.bus_sound s.inst).clear_while_acting (by rw [ha]; rfl)
    simp [Bus.completed, Bus.outcome, classifyBits, c5, c4] at hok
  | dataNack held =>
    obtain ⟨c1, c2, c3, c4, c5⟩ := (hs.bus_sound s.inst).clear_while_acting (by rw [ha]; rfl)
    simp [Bus.completed, Bus.outcome, classifyBits, c5, c4, c2] at hok
  | arbLost =>
    obtain ⟨c1, c2, c3, c4, c5⟩ := (hs.bus_sound s.inst).clear_while_acting (by rw [ha]; rfl)
    obtain ⟨d', v', hrec⟩ := receive_frame ((s.bus s.inst).flagArbLost w) a e false
    simp [Bus.completed, hrec, Bus.outcome, classifyBits, c5] at hok

theorem complete_ordered {s : State} (hs : s.Sound) (h : s.Ordered) {k : Nat} {o : EnvOutcome}
    (hc : (s.bus k).canComplete o = true) : (s.complete k o).Ordered := by
  obtain ⟨hb, hl, a, ha, -⟩ := canComplete_iff.1 hc
  obtain ⟨n, hn⟩ := complete_some (o := o) ha
  rw [hn]
  have hcf := completed_frame (s.bus k) a o s.anyWord s.anyByte
  by_cases hk : s.inst = k
  · subst hk
    have hbus : State.bus { s.setBus s.inst ((s.bus s.inst).completed a o s.anyWord s.anyByte) with freeCtr := n } s.inst =
        (s.bus s.inst).completed a o s.anyWord s.anyByte := bus_setBus_self s s.inst _
    refine ordered_of_action h (by rw [ha]; rfl) rfl rfl rfl rfl (by rw [hbus]; exact hcf.2.2.2.2.1)
      (fun d hd => completed_goes hs ha hbus rfl hd) (fun h => by rw [hbus]; exact hcf.2.2.2.1.trans h)
  · exact h.of_eq (bus_setBus_ne s _ hk) rfl rfl rfl rfl

theorem expire_ordered {s : State} (hs : s.Sound) (h : s.Ordered) {k : Nat} (hc : (s.bus k).canExpire = true) :
    (s.expire k).Ordered := by
  obtain ⟨c1, c2, c3⟩ := canExpire_iff.1 hc
  have hef := expired_frame (s.bus k) s.anyWord s.anyByte s.anyEng
  by_cases hk : s.inst = k
  · subst hk
    have hbus : (s.expire s.inst).bus s.inst = (s.bus s.inst).expired s.anyWord s.anyByte s.anyEng := bus_setBus_self s s.inst _
    refine ordered_of_action h ((hs.bus_sound _).armed_while_acting c1) rfl rfl rfl rfl (by rw [hbus]; exact hef.2.2.2.2.1)
      (fun d _ => ?_) (fun h => by rw [hbus]; exact hef.2.2.2.1.trans h)
    unfold State.cycleGoesOn
    rw [show (s.expire s.inst).inst = s.inst from rfl, hbus, hef.2.1]
    intro hok
    unfold Bus.outcome classifyBits at hok
    rw [hef.2.2.2.2.2.1] at hok
    cases hok
  · exact h.of_eq (bus_setBus_ne s _ hk) rfl rfl rfl rfl

/-! ## The host's steps -/

theorem decode_transaction {p : Packet} {addr : BitVec 7} {ops : List Desc} (h : decode p = .ok (.transaction addr ops)) :
    opsAdmitted ops = true := by
  obtain ⟨port, ws⟩ := p
  cases port <;> simp only [decode] at h
  case request =>
    unfold decodeRequest at h
    split at h
    · cases h
    · cases h
    · split at h
      · split at h
        · split at h
          · next hw => cases h; exact hw
          · cases h
        · cases h
      · cases h
    · cases h
    · cases h
  case regWord =>
    unfold decodeAccess at h
    split at h
    · split at h
      · have := readAt_isRead (accessAt_ok h); cases this
      · cases h
    · split at h
      · have := writeAt_onRegister (accessAt_ok h); cases this
      · cases h
    · cases h
  case cmdWord =>
    unfold decodeCommand at h
    split at h
    · split at h
      · split at h
        · next hi => injection h with h; subst h; have := commandOf_onRegister hi; cases this
        · cases h
      · cases h
    · cases h
  case descriptor => unfold decodeDescriptor at h; (repeat' split at h) <;> cases h
  case executor => unfold decodeCycle at h; (repeat' split at h) <;> cases h
  case recovery => unfold decodeRecovery at h; split at h <;> cases h
  case classifier => unfold decodeSnapshot at h; (repeat' split at h) <;> cases h
  case detector => unfold decodeDetector at h; split at h <;> cases h
  case rst => unfold decodeRst at h; split at h <;> cases h
  all_goals cases h

theorem hosted_ordered {p : Packet} {i : Instr} {s t : State} (hs : s.Sound) (h : s.Ordered) (hp : decode p = .ok i)
    (hi : Instr.Hosted p i) (he : exec i s = .next t) : t.Ordered := by
  rcases hi with hi | hi | ⟨a, b, c, rfl⟩ | ⟨a, o, rfl⟩ | rfl | ⟨rfl, -⟩
  · obtain ⟨r, c, l, n, rfl⟩ := exec_isRead hi he; exact h.of_eq rfl rfl rfl rfl rfl
  · obtain ⟨⟨-, -, hr⟩, rfl | ⟨c, hc, rfl⟩⟩ := exec_onRegister hi he
    · exact h
    · by_cases hk : s.inst = s.sel
      · cases ho : s.owned with
        | true => exact absurd ⟨ho, hk⟩ hr
        | false =>
          have hst : s.seq.st = .idle := by
            by_contra hn; have := h.active_owned hn; rw [ho] at this; cases this
          exact State.Ordered.idle (fun h => by rw [setBus_owned, ho] at h; cases h) hst (h.idle_rests hst).1
            (fun h => by rw [setBus_owned, ho] at h; cases h)
      · exact h.of_eq (bus_setBus_ne s _ hk) rfl rfl rfl rfl
  · obtain ⟨ho, hst, hlt, c', hc, hm, rfl⟩ := execConfigure_next he
    refine State.Ordered.idle (fun _ => ⟨hlt, ?_⟩) hst (h.idle_rests hst).1 (fun _ => ?_)
    · show ((s.setBus a c').bus a).mfe = true
      rw [bus_setBus_self]; exact hm
    · show ((s.setBus a c').bus a).act = none
      rw [bus_setBus_self]
      have hsc := (hs.bus_sound a).writes hc
      obtain ⟨hf, -, m, sa, rs, dr, rv, tpr, toc, rfl⟩ := hc
      have := (hs.bus_sound a).act_while_occupied
      rw [hf] at this
      simpa using this
  · obtain ⟨ho, hst, q, v, c, rfl, hq⟩ := execTransaction_next he
    obtain ⟨hx, ha⟩ := h.idle_rests hst
    rcases hq with hq | ⟨rfl, hne, hlen⟩
    · exact State.Ordered.idle h.bound hq hx ha
    · obtain ⟨d, ds, rfl⟩ := List.exists_cons_of_ne_nil hne
      exact State.Ordered.issue (d := d) ho (h.bound ho) rfl hlen ⟨rfl, hlen d (by simp), rfl⟩ hx (ha ho)
        (fun h => by cases h)
  · obtain ⟨ho, hst, rfl⟩ := execRelease_next he
    exact State.Ordered.idle (fun h => by cases h) hst (h.idle_rests hst).1 (fun h => by cases h)
  · injection he with he; subst he
    exact State.Ordered.idle (fun h => by cases h) rfl ⟨rfl, rfl, rfl⟩ (fun h => by cases h)

end Sys2Proof.Machine
end

