-- ==== Sys2Proof/Laws/PerInstr.lean ====
section
/-! SUPPORT. The per-instruction family `Format`: the packet of every instruction has the shape of its format (R74, R87 to
R92, R136, R141, R149, R197). -/

namespace Sys2Proof.Laws.Format

/-- The words of `encode i` have the shape its port's format gives them. -/
def Statement (i : Instr) : Prop :=
  match encode i with
  | ⟨.regWord, ws⟩ =>
    ∃ acc, acc % 4 = 0 ∧ ((acc < 0x1000 ∧ ws = [acc]) ∨ (0x1000 ≤ acc ∧ acc < 0x2000 ∧ ∃ d, d < 2 ^ 32 ∧ ws = [acc, d]))
  | ⟨.cmdWord, ws⟩    => ∃ v, v < 16 ∧ ws = [v]
  | ⟨.request, ws⟩    => ∃ c rest, 1 ≤ c ∧ c ≤ 3 ∧ ws = c :: rest
  | ⟨.descriptor, ws⟩ => ∃ d len base, d ≤ 1 ∧ ws = [d, len, base]
  | ⟨.executor, ws⟩   => ∃ c w, c < 2 ^ 32 ∧ w ≤ 1 ∧ ws = [c, w]
  | ⟨.recovery, ws⟩   => ws = [4]
  | ⟨.classifier, ws⟩ => ∃ w, w < 2 ^ 32 ∧ ws = [w]
  | ⟨.detector, ws⟩   => ws = []
  | ⟨.rst, ws⟩        => ws = [1]
  | ⟨.regHalf, _⟩     => False
  | ⟨.regByte, _⟩     => False

theorem rdSa : Statement .rdSa := ⟨_, by decide, .inl ⟨by decide, rfl⟩⟩
theorem rdStat : Statement .rdStat := ⟨_, by decide, .inl ⟨by decide, rfl⟩⟩
theorem rdDr : Statement .rdDr := ⟨_, by decide, .inl ⟨by decide, rfl⟩⟩
theorem rdTpr : Statement .rdTpr := ⟨_, by decide, .inl ⟨by decide, rfl⟩⟩
theorem rdCr : Statement .rdCr := ⟨_, by decide, .inl ⟨by decide, rfl⟩⟩
theorem rdToc : Statement .rdToc := ⟨_, by decide, .inl ⟨by decide, rfl⟩⟩

theorem wrSa (w : Word) : Statement (.wrSa w) := ⟨_, by decide, .inr ⟨by decide, by decide, _, w.isLt, rfl⟩⟩
theorem wrDr (w : Word) : Statement (.wrDr w) := ⟨_, by decide, .inr ⟨by decide, by decide, _, w.isLt, rfl⟩⟩
theorem wrTpr (w : Word) : Statement (.wrTpr w) := ⟨_, by decide, .inr ⟨by decide, by decide, _, w.isLt, rfl⟩⟩
theorem wrCr (w : Word) : Statement (.wrCr w) := ⟨_, by decide, .inr ⟨by decide, by decide, _, w.isLt, rfl⟩⟩
theorem wrToc (w : Word) : Statement (.wrToc w) := ⟨_, by decide, .inr ⟨by decide, by decide, _, w.isLt, rfl⟩⟩
theorem wrCmd (w : Word) : Statement (.wrCmd w) := ⟨_, by decide, .inr ⟨by decide, by decide, _, w.isLt, rfl⟩⟩

theorem cmdNone : Statement .cmdNone := ⟨_, by decide, rfl⟩
theorem cmdRun : Statement .cmdRun := ⟨_, by decide, rfl⟩
theorem cmdStart : Statement .cmdStart := ⟨_, by decide, rfl⟩
theorem cmdStartRun : Statement .cmdStartRun := ⟨_, by decide, rfl⟩
theorem cmdStop : Statement .cmdStop := ⟨_, by decide, rfl⟩
theorem cmdRunStop : Statement .cmdRunStop := ⟨_, by decide, rfl⟩
theorem cmdStartStop : Statement .cmdStartStop := ⟨_, by decide, rfl⟩
theorem cmdStartRunStop : Statement .cmdStartRunStop := ⟨_, by decide, rfl⟩
theorem cmdAck : Statement .cmdAck := ⟨_, by decide, rfl⟩
theorem cmdAckRun : Statement .cmdAckRun := ⟨_, by decide, rfl⟩
theorem cmdAckStart : Statement .cmdAckStart := ⟨_, by decide, rfl⟩
theorem cmdAckStartRun : Statement .cmdAckStartRun := ⟨_, by decide, rfl⟩
theorem cmdAckStop : Statement .cmdAckStop := ⟨_, by decide, rfl⟩
theorem cmdAckRunStop : Statement .cmdAckRunStop := ⟨_, by decide, rfl⟩
theorem cmdAckStartStop : Statement .cmdAckStartStop := ⟨_, by decide, rfl⟩
theorem cmdAckStartRunStop : Statement .cmdAckStartRunStop := ⟨_, by decide, rfl⟩

theorem configure (inst sysclk freq : Nat) : Statement (.configure inst sysclk freq) := ⟨_, _, by decide, by decide, rfl⟩
theorem transaction (addr : BitVec 7) (ops : List Desc) : Statement (.transaction addr ops) :=
  ⟨_, _, by decide, by decide, rfl⟩
theorem release : Statement .release := ⟨_, _, by decide, by decide, rfl⟩
theorem opWrite (len base : Nat) : Statement (.opWrite len base) := ⟨_, _, _, Nat.zero_le 1, rfl⟩
theorem opRead (len base : Nat) : Statement (.opRead len base) := ⟨_, _, _, Nat.le_refl 1, rfl⟩
theorem execute (cmd : Word) (wc : WaitCond) : Statement (.execute cmd wc) :=
  ⟨_, _, cmd.isLt, by cases wc <;> decide, rfl⟩
theorem nackStop : Statement .nackStop := rfl
theorem classify (snapshot : Word) : Statement (.classify snapshot) := ⟨_, snapshot.isLt, rfl⟩
theorem timeoutExpire : Statement .timeoutExpire := rfl
theorem reset : Statement .reset := rfl

end Sys2Proof.Laws.Format
end

