-- ==== Sys2Proof/Laws/Plan.lean ====
section
/-! SUPPORT. The command bits of a byte and of a whole transaction (R157, R159, R172); the divisor word (R174). -/

namespace Sys2Proof.Machine

/-! ## The command table on START commands -/

theorem startVerdict_action (eng : Eng) (rs ack stop : Bool) (h : ack = true → stop = false) :
    ∃ a, startVerdict eng rs ack stop = .action a ∧ a.start = (if eng = .idle then .s else .sr) := by
  cases rs <;> cases stop <;> cases ack <;> first | exact ⟨_, rfl, rfl⟩ | simp at h

/-- A START command's action has the direction of `SA.RS`. -/
theorem startVerdict_rs {eng : Eng} {rs ack stop : Bool} {a : Action} (h : startVerdict eng rs ack stop = .action a) :
    a.rs = rs := by
  cases rs <;> cases stop <;> cases ack <;> cases h <;> rfl

theorem engDecode_start {eng : Eng} {rs : Bool} {w : Word} (h0 : w.getLsbD 0 = true) (h1 : w.getLsbD 1 = true) :
    engDecode eng rs (w.extractLsb' 0 4) = startVerdict eng rs (w.getLsbD 3) (w.getLsbD 2) := by
  unfold engDecode
  simp only [BitVec.getLsbD_extractLsb', Nat.zero_add, h0, h1]
  rfl

/-! ## Counting the commands of a transaction -/

theorem range_filter_last {n : Nat} (h : 0 < n) : ((List.range n).filter (fun j => decide (j + 1 = n))).length = 1 := by
  obtain ⟨m, rfl⟩ := Nat.exists_eq_succ_of_ne_zero (by omega : n ≠ 0)
  rw [List.range_succ, List.filter_append]
  have : (List.range m).filter (fun j => decide (j + 1 = m.succ)) = [] := by
    rw [List.filter_eq_nil_iff]; intro a ha; simp at ha ⊢; omega
  rw [this]; simp

theorem range_filter_first {n : Nat} (h : 0 < n) : ((List.range n).filter (fun j => decide (j = 0))).length = 1 := by
  obtain ⟨m, rfl⟩ := Nat.exists_eq_succ_of_ne_zero (by omega : n ≠ 0)
  rw [List.range_succ_eq_map]
  have : (List.map Nat.succ (List.range m)).filter (fun j => decide (j = 0)) = [] := by
    rw [List.filter_eq_nil_iff]; simp
  simp [this]

variable (p : Config.AckPolicy)

theorem planFrom_length (ops : List Desc) (i : Nat) (ds : List Desc) : (planFrom p ops i ds).length = (ds.map Desc.len).sum := by
  induction ds generalizing i with
  | nil => rfl
  | cons d ds ih => simp [planFrom, ih]

/-- The plan's entry for byte `j` of the operation at `k`, after the bytes of the operations before. -/
theorem planFrom_getElem? (ops : List Desc) (i : Nat) (ds : List Desc) {k j : Nat} {d : Desc} (hd : ds[k]? = some d)
    (hj : j < d.len) : (planFrom p ops i ds)[((ds.take k).map Desc.len).sum + j]? =
      some (cmdAt p ops (i + k) j d.len d.dir (firstOfRun ops (i + k) j d.dir)) := by
  induction ds generalizing i k with
  | nil => cases hd
  | cons e es ih =>
    cases k with
    | zero =>
      cases hd
      rw [planFrom, List.getElem?_append_left (by simpa using hj)]
      simp [hj]
    | succ k =>
      have := ih (i + 1) (k := k) (by simpa using hd)
      rw [planFrom, List.getElem?_append_right (by simp; omega)]
      simp only [List.take_succ_cons, List.map_cons, List.sum_cons, List.length_map, List.length_range]
      rw [show e.len + ((es.take k).map Desc.len).sum + j - e.len = ((es.take k).map Desc.len).sum + j by omega, this,
        show i + 1 + k = i + (k + 1) by omega]

theorem planFrom_run (ops : List Desc) (i : Nat) (ds : List Desc) : ∀ w ∈ planFrom p ops i ds, w.getLsbD 0 = true := by
  induction ds generalizing i with
  | nil => intro w h; cases h
  | cons d ds ih =>
    intro w h
    rcases List.mem_append.1 h with h | h
    · obtain ⟨j, -, rfl⟩ := List.mem_map.1 h
      exact (cmdAt_bits _ _ _ _ _ _ _).1
    · exact ih _ w h

theorem filter_map_cmd (ops : List Desc) (i : Nat) (d : Desc) (b : Nat) (f : Nat → Bool)
    (h : ∀ j, (cmdAt p ops i j d.len d.dir (firstOfRun ops i j d.dir)).getLsbD b = f j) :
    (((List.range d.len).map (fun j => cmdAt p ops i j d.len d.dir (firstOfRun ops i j d.dir))).filter (fun w => w.getLsbD b)).length
      = ((List.range d.len).filter f).length := by
  rw [List.filter_map, List.length_map]
  congr 1
  congr 1
  funext j
  exact h j

theorem planFrom_stops (ops : List Desc) (i : Nat) (ds : List Desc) (hl : i + ds.length = ops.length) (hd : ∀ d ∈ ds, 0 < d.len) (hn : ds ≠ []) :
    ((planFrom p ops i ds).filter (fun w => w.getLsbD 2)).length = 1 := by
  induction ds generalizing i with
  | nil => exact absurd rfl hn
  | cons d ds ih =>
    rw [planFrom, List.filter_append, List.length_append, filter_map_cmd p ops i d 2 (fun j => lastGlobal ops i j d.len) (fun j => (cmdAt_bits _ _ _ _ _ _ _).2.2.1)]
    have hd0 := hd d (by simp)
    simp only [List.length_cons] at hl
    cases ds with
    | nil =>
      simp only [List.length_nil] at hl
      have : (fun j => lastGlobal ops i j d.len) = fun j => decide (j + 1 = d.len) := by
        funext j; simp [lastGlobal]; intro _; omega
      rw [this, range_filter_last hd0]; rfl
    | cons e es =>
      have : (List.range d.len).filter (fun j => lastGlobal ops i j d.len) = [] := by
        rw [List.filter_eq_nil_iff]; intro a _; simp [lastGlobal]; intro _; simp at hl; omega
      rw [this, ih (i + 1) (by omega) (fun x hx => hd x (by simp [hx])) (by simp)]
      rfl

theorem planFrom_last (ops : List Desc) (i : Nat) (ds : List Desc) (hl : i + ds.length = ops.length) (hd : ∀ d ∈ ds, 0 < d.len) (hn : ds ≠ []) :
    ∃ w, (planFrom p ops i ds).getLast? = some w ∧ w.getLsbD 2 = true := by
  induction ds generalizing i with
  | nil => exact absurd rfl hn
  | cons d ds ih =>
    simp only [List.length_cons] at hl
    cases ds with
    | nil =>
      have hd0 := hd d (by simp)
      obtain ⟨m, hm⟩ := Nat.exists_eq_succ_of_ne_zero (by omega : d.len ≠ 0)
      refine ⟨cmdAt p ops i m d.len d.dir (firstOfRun ops i m d.dir), ?_, ?_⟩
      · simp only [planFrom, List.append_nil, hm]
        rw [List.range_succ]; simp
      · rw [(cmdAt_bits _ _ _ _ _ _ _).2.2.1]; simp [lastGlobal, hm]; simpa using hl
    | cons e es =>
      obtain ⟨w, h1, h2⟩ := ih (i + 1) (by omega) (fun x hx => hd x (by simp [hx])) (by simp)
      refine ⟨w, ?_, h2⟩
      rw [planFrom, List.getLast?_append, h1]; rfl

theorem planFrom_starts (ops : List Desc) (i : Nat) (prv : Desc) (ds : List Desc) (hp : ops[i]? = some prv) (hd : ∀ d ∈ ds, 0 < d.len)
    (ht : ∀ k d, ds[k]? = some d → ops[i + 1 + k]? = some d) :
    1 + ((planFrom p ops (i + 1) ds).filter (fun w => w.getLsbD 1)).length = runCount (prv :: ds) := by
  induction ds generalizing i prv with
  | nil => rfl
  | cons d ds ih =>
    have hd0 := hd d (by simp)
    rw [planFrom, List.filter_append, List.length_append, filter_map_cmd p ops (i+1) d 1 (fun j => firstOfRun ops (i+1) j d.dir) (fun j => (cmdAt_bits _ _ _ _ _ _ _).2.1)]
    have h := ih (i + 1) d (by simpa using ht 0 d rfl) (fun x hx => hd x (by simp [hx]))
      (fun k x hx => by have := ht (k + 1) x (by simpa using hx); rw [← this]; congr 1; omega)
    rw [runCount, ← h]
    by_cases e : prv.dir = d.dir
    · have : (List.range d.len).filter (fun j => firstOfRun ops (i+1) j d.dir) = [] := by
        rw [List.filter_eq_nil_iff]; intro a _; simp [firstOfRun, runStartsAt, hp, e]
      rw [this, if_pos e]; try simp
    · have : (fun j => firstOfRun ops (i+1) j d.dir) = fun j => decide (j = 0) := by
        funext j; simp [firstOfRun, runStartsAt, hp, e]
      rw [this, if_neg e, range_filter_first hd0]

/-! ## The divisor word -/

theorem tprWord_field (t : Int) (h0 : 0 ≤ t) (h1 : t ≤ 127) :
    (tprWord t.toNat) &&& ~~~(0x7F : Word) = 0 ∧ (tprWord t.toNat).extractLsb' 0 7 = BitVec.ofInt 7 t := by
  obtain ⟨n, rfl⟩ := Int.eq_ofNat_of_zero_le h0
  constructor
  · rw [mask7_eq_zero]; unfold tprWord; rw [BitVec.toNat_ofNat]; omega
  · apply BitVec.eq_of_toNat_eq
    simp [tprWord]

end Sys2Proof.Machine
end

