-- ==== Sys2Proof/Tests/Slice0.lean ====
section
/-! SUPPORT. Tests: ill-formed terms are refused, words of the spec decode as they should, one step of each instruction gives
what spec/95_test_vectors.md (or the rule named) says, and every statement's hypotheses are met by a concrete state. -/

namespace Sys2Proof.Tests

open Sys2Proof Sys2Proof.Machine

/-! ## Small states -/

/-- The state after reset with instance 0 as `b`. -/
def on (b : Bus) : State := State.reset.setBus 0 b

/-- Master mode on, the engine idle. -/
def ready : Bus := { Bus.reset with mfe := true }

def inMt : Bus := { ready with eng := .mt }

def inMr : Bus := { ready with eng := .mr }

/-- An accepted START and transmit, in the busy lag. -/
def lagging : Bus := ready.accept ⟨.s, false, .tx, false, .mt⟩

/-- The same, visible. -/
def running : Bus := lagging.becomeVisible

/-- The same with an armed detector. -/
def armed : Bus := { running with toArmed := true }

/-- A receiving action, visible. -/
def receiving : Bus := ({ inMr with saRs := true }.accept ⟨.no, false, .rxAck, false, .mr⟩).becomeVisible

/-- An address NACK after which the engine still owns the bus. -/
def nacked : Bus := { inMt with error := true, adrack := true }

/-- Instance 0 as `b`, bound to a handle. -/
def held (b : Bus) : State := { on b with owned := true }

/-- Bound and busy with the transaction `ops` to 0x50, at its first byte, EX as `x` and SEQ as `st`. -/
def atWork (b : Bus) (ops : List Desc) (st : Sqs) (x : Ex) : State :=
  { held b with seq := ⟨st, 0x50, ops, 0, 0, true⟩, ex := x }

/-- EX with a cycle requested. -/
def exAt (st : Exs) (cmd : Word) (wc : WaitCond) : Ex := { Ex.reset with st := st, wc := wc, req := some (cmd, wc) }

/-- Instance 0 after an outcome. -/
def bus0 (o : Out) : Option Bus := (nextState? o).map fun t => t.bus 0

/-! ## WellFormed: each check refuses an ill-formed term -/

theorem test_wf_read_overlaps_write : (Instr.transaction 0x50 [⟨.read, 2, 0⟩, ⟨.write, 1, 1⟩]).wellFormed = false := by
  have h : buffersCompatible [⟨.read, 2, 0⟩, ⟨.write, 1, 1⟩] = false := by decide
  simp [Instr.wellFormed, opsAdmitted, h]

theorem test_wf_reads_overlap : (Instr.transaction 0x50 [⟨.read, 2, 0⟩, ⟨.read, 1, 1⟩]).wellFormed = false := by
  have h : buffersCompatible [⟨.read, 2, 0⟩, ⟨.read, 1, 1⟩] = false := by decide
  simp [Instr.wellFormed, opsAdmitted, h]

theorem test_wf_writes_may_overlap : buffersCompatible [⟨.write, 2, 0⟩, ⟨.write, 2, 1⟩] = true := by decide

theorem test_wf_too_many_operations (ops : List Desc) (h : Config.maxOps < ops.length) :
    (Instr.transaction 0x50 ops).wellFormed = false := by
  have h0 : ops ≠ [] := fun h1 => by subst h1; exact absurd h (Nat.not_lt_zero _)
  simp [Instr.wellFormed, opsAdmitted, h, h0]

theorem test_wf_length_too_wide : (Instr.opWrite (2 ^ Config.lenW) 0).wellFormed = false := by
  simp [Instr.wellFormed, Desc.fits, fitsWidth]

theorem test_wf_base_too_wide : (Instr.opRead 0 (2 ^ Config.bufAw)).wellFormed = false := by
  simp [Instr.wellFormed, Desc.fits, fitsWidth]

theorem test_wf_buffer_leaves_space : (Instr.opRead 1 (2 ^ Config.bufAw)).wellFormed = false := by
  have h1 : ¬(2 ^ Config.bufAw + 1 ≤ 2 ^ Config.bufAw) := by omega
  have h2 : (2 ^ Config.bufAw + 1 == 0) = false := by simp
  simp [Instr.wellFormed, Desc.fits, h2]

theorem test_wf_command_reserved_bits : (Instr.execute 0x10 .always).wellFormed = false := by decide

theorem test_wf_command_last : (Instr.execute 0xF .busbsyClear).wellFormed = true := by decide

/-- A one-byte buffer at 0 fits where a length field has a bit. -/
theorem fits_one (hw : Config.lenW ≠ 0) (d : Dir) : Desc.fits ⟨d, 1, 0⟩ = true := by
  have h : 1 < 2 ^ Config.lenW := Nat.one_lt_two_pow hw
  simp [Desc.fits, fitsWidth, h, Nat.one_le_two_pow]

/-! ## Decoding, from the encodings of 30_encoding.md -/

/-- R87, R88: `ACC = {W, offset}`, W = 0. -/
theorem test_decode_reads :
    decode ⟨.regWord, [0b0000000000000]⟩ = .ok .rdSa ∧ decode ⟨.regWord, [0b0000000000100]⟩ = .ok .rdStat ∧
    decode ⟨.regWord, [0b0000000001000]⟩ = .ok .rdDr ∧ decode ⟨.regWord, [0b0000000001100]⟩ = .ok .rdTpr ∧
    decode ⟨.regWord, [0b0000000100000]⟩ = .ok .rdCr ∧ decode ⟨.regWord, [0b0000000100100]⟩ = .ok .rdToc :=
  ⟨rfl, rfl, rfl, rfl, rfl, rfl⟩

/-- R87, R88: `ACC = {W, offset}`, W = 1. -/
theorem test_decode_writes :
    decode ⟨.regWord, [0b1000000000000, 0xA1]⟩ = .ok (.wrSa 0xA1) ∧
    decode ⟨.regWord, [0b1000000001000, 0xAB]⟩ = .ok (.wrDr 0xAB) ∧
    decode ⟨.regWord, [0b1000000001100, 0x7F]⟩ = .ok (.wrTpr 0x7F) ∧
    decode ⟨.regWord, [0b1000000100000, 0x10]⟩ = .ok (.wrCr 0x10) ∧
    decode ⟨.regWord, [0b1000000100100, 0xFF]⟩ = .ok (.wrToc 0xFF) ∧
    decode ⟨.regWord, [0b1000000000100, 0xFFFFFFFF]⟩ = .ok (.wrCmd 0xFFFFFFFF) := ⟨rfl, rfl, rfl, rfl, rfl, rfl⟩

/-- R89: `CMD = {0, ACK, STOP, START, RUN}`. -/
theorem test_decode_commands :
    decode ⟨.cmdWord, [0b0000]⟩ = .ok .cmdNone ∧ decode ⟨.cmdWord, [0b0001]⟩ = .ok .cmdRun ∧
    decode ⟨.cmdWord, [0b0010]⟩ = .ok .cmdStart ∧ decode ⟨.cmdWord, [0b0011]⟩ = .ok .cmdStartRun ∧
    decode ⟨.cmdWord, [0b0100]⟩ = .ok .cmdStop ∧ decode ⟨.cmdWord, [0b0101]⟩ = .ok .cmdRunStop ∧
    decode ⟨.cmdWord, [0b0110]⟩ = .ok .cmdStartStop ∧ decode ⟨.cmdWord, [0b0111]⟩ = .ok .cmdStartRunStop ∧
    decode ⟨.cmdWord, [0b1000]⟩ = .ok .cmdAck ∧ decode ⟨.cmdWord, [0b1001]⟩ = .ok .cmdAckRun ∧
    decode ⟨.cmdWord, [0b1010]⟩ = .ok .cmdAckStart ∧ decode ⟨.cmdWord, [0b1011]⟩ = .ok .cmdAckStartRun ∧
    decode ⟨.cmdWord, [0b1100]⟩ = .ok .cmdAckStop ∧ decode ⟨.cmdWord, [0b1101]⟩ = .ok .cmdAckRunStop ∧
    decode ⟨.cmdWord, [0b1110]⟩ = .ok .cmdAckStartStop ∧ decode ⟨.cmdWord, [0b1111]⟩ = .ok .cmdAckStartRunStop :=
  ⟨rfl, rfl, rfl, rfl, rfl, rfl, rfl, rfl, rfl, rfl, rfl, rfl, rfl, rfl, rfl, rfl⟩

/-- R90, R92, R136, R141, R149, R197. -/
theorem test_decode_requests_and_steps :
    decode ⟨.request, [1, 0, 16000000, 100000]⟩ = .ok (.configure 0 16000000 100000) ∧
    decode ⟨.request, [2, 0x7F]⟩ = .ok (.transaction 0x7F []) ∧ decode ⟨.request, [3]⟩ = .ok .release ∧
    decode ⟨.executor, [0x7, 1]⟩ = .ok (.execute 0x7 .busbsyClear) ∧ decode ⟨.recovery, [0x4]⟩ = .ok .nackStop ∧
    decode ⟨.classifier, [0x16]⟩ = .ok (.classify 0x16) ∧ decode ⟨.detector, []⟩ = .ok .timeoutExpire ∧
    decode ⟨.rst, [1]⟩ = .ok .reset := ⟨rfl, rfl, rfl, rfl, rfl, rfl, rfl, rfl⟩

/-- R90: descriptor bit `dir`, then `len`, then `base`. -/
theorem test_decode_empty_descriptors :
    decode ⟨.descriptor, [0, 0, 0]⟩ = .ok (.opWrite 0 0) ∧ decode ⟨.descriptor, [1, 0, 0]⟩ = .ok (.opRead 0 0) := ⟨rfl, rfl⟩

/-- R90: the length stands in the second word and the base in the third, where the widths hold them. -/
theorem test_decode_descriptors (hw : Config.lenW ≠ 0) :
    decode ⟨.descriptor, [0, 1, 0]⟩ = .ok (.opWrite 1 0) ∧ decode ⟨.descriptor, [1, 1, 0]⟩ = .ok (.opRead 1 0) := by
  constructor <;> simp [decode, decodeDescriptor, dirOfBit, fits_one hw]

/-- A one-byte Write (R92), where the configuration admits one. -/
theorem test_decode_transaction (hw : Config.lenW ≠ 0) (h : 1 ≤ Config.maxOps) :
    decode ⟨.request, [2, 0x50, 0, 1, 0]⟩ = .ok (.transaction 0x50 [⟨.write, 1, 0⟩]) := by
  have : opsAdmitted [⟨.write, 1, 0⟩] = true := by
    simp [opsAdmitted, buffersCompatible, fits_one hw, h]
  simp [decode, decodeRequest, descsOf, dirOfBit, this]

/-- R60 to R62, R89, R185: rejections, by name and in their order. -/
theorem test_decode_rejections :
    decode ⟨.regByte, [0x002]⟩ = .error .subwordAccess ∧ decode ⟨.regHalf, [0x1000, 0]⟩ = .error .subwordAccess ∧
    decode ⟨.regWord, [0x002]⟩ = .error .misalignedAccess ∧ decode ⟨.regWord, [0x1006, 0]⟩ = .error .misalignedAccess ∧
    decode ⟨.regWord, [0x010]⟩ = .error .unmappedOffset ∧ decode ⟨.regWord, [0x1028, 0]⟩ = .error .unmappedOffset ∧
    decode ⟨.regWord, [0xFFC]⟩ = .error .unmappedOffset ∧ decode ⟨.cmdWord, [0x10]⟩ = .error .reservedCommandBits ∧
    decode ⟨.request, [0]⟩ = .error .atRest := ⟨rfl, rfl, rfl, rfl, rfl, rfl, rfl, rfl, rfl⟩

/-! ## Register reads (95_test_vectors.md section 4) -/

theorem test_rdSa : ∃ t, exec .rdSa (on { ready with saAddr := 0x50, saRs := true }) = .next t ∧
    t.regRdata.extractLsb' 0 8 = 0xA1 :=
  ⟨_, rfl, (readDefined_field _ 0xFF _ 0 8 (by decide)).trans (by decide)⟩

theorem test_rdStat_running : ∃ t, exec .rdStat (on running) = .next t ∧
    t.regRdata.extractLsb' 0 5 = 0x01 ∧ t.regRdata.extractLsb' 6 2 = 0b01 :=
  ⟨_, rfl, (readDefined_field _ statMask _ 0 5 (by decide)).trans (by decide),
    (readDefined_field _ statMask _ 6 2 (by decide)).trans (by decide)⟩

theorem test_rdStat_idle_draw : ∃ t, exec .rdStat { on ready with busDraws := [true, false] } = .next t ∧
    t.regRdata.getLsbD 6 = true ∧ t.busDraws = [false] :=
  ⟨_, rfl, (readDefined_bit _ statMask _ 6 (by decide)).trans (by decide), by decide⟩

theorem test_rdDr_received : ∃ t, exec .rdDr (on { ready with drData := 0x5A, rxValid := true }) = .next t ∧
    t.regRdata.extractLsb' 0 8 = 0x5A :=
  ⟨_, rfl, (readDefined_field _ 0xFF _ 0 8 (by decide)).trans (by decide)⟩

theorem test_rdTpr_reset : ∃ t, exec .rdTpr State.reset = .next t ∧ t.regRdata.extractLsb' 0 7 = 1 :=
  ⟨_, rfl, (readDefined_field _ 0x7F _ 0 7 (by decide)).trans (by decide)⟩

theorem test_rdCr : ∃ t, exec .rdCr (on ready) = .next t ∧ t.regRdata.getLsbD 4 = true :=
  ⟨_, rfl, (readDefined_bit _ 0x10 _ 4 (by decide)).trans (by decide)⟩

theorem test_rdToc : ∃ t, exec .rdToc (on { ready with tocCnt := 0xFF }) = .next t ∧ t.regRdata.extractLsb' 0 8 = 0xFF :=
  ⟨_, rfl, (readDefined_field _ 0xFF _ 0 8 (by decide)).trans (by decide)⟩

/-! ## Register writes (section 4) -/

theorem test_wrSa : (bus0 (exec (.wrSa 0xA1) (on ready))).map (fun b => (b.saAddr, b.saRs)) = some (0x50, true) := by decide

theorem test_wrSa_reserved_before_busy : faultOf? (exec (.wrSa 0x100) (on running)) = some .reservedBitSet := by decide

theorem test_wrDr : (bus0 (exec (.wrDr 0x5A) (on { ready with rxValid := true }))).map (fun b => (b.drData, b.rxValid)) =
    some (0x5A, false) := by decide

theorem test_wrDr_lag : faultOf? (exec (.wrDr 0x55) (on lagging)) = some .writeWhileBusy := by decide

theorem test_wrTpr : (bus0 (exec (.wrTpr 0x7F) (on ready))).map Bus.tpr = some 0x7F := by decide

theorem test_wrTpr_reserved : faultOf? (exec (.wrTpr 0x80) (on ready)) = some .reservedBitSet := by decide

theorem test_wrCr_owning : faultOf? (exec (.wrCr 0x00) (on inMt)) = some .disableWhileOwningBus := by decide

theorem test_wrCr_reserved : faultOf? (exec (.wrCr 0x30) (on ready)) = some .reservedBitSet := by decide

theorem test_wrToc : (bus0 (exec (.wrToc 0xFF) (on ready))).map Bus.tocCnt = some 0xFF := by decide

theorem test_wrToc_reserved : faultOf? (exec (.wrToc 0x100) (on ready)) = some .reservedBitSet := by decide

/-- Section 3.2: a NOP value in the lag faults all the same. -/
theorem test_wrCmd_lag : faultOf? (exec (.wrCmd 0) (on lagging)) = some .commandWhileBusy := by decide

/-- Section 3.2: acceptance clears the flags and arms no detector with a budget of 0. -/
theorem test_wrCmd_accept : bus0 (exec (.wrCmd 3) (on { ready with error := true, adrack := true })) = some lagging := by decide

/-! ## Commands (section 3.1) -/

theorem test_cmdNone : nextState? (exec .cmdNone (on inMr)) = some (on inMr) := by decide

theorem test_cmdRun : (bus0 (exec .cmdRun (on inMt))).bind Bus.act = some ⟨.no, false, .tx, false, .mt⟩ := by decide

theorem test_cmdRun_2 : (bus0 (exec .cmdRun (on inMr))).bind Bus.act = some ⟨.no, false, .rxNack, false, .mr⟩ := by decide

theorem test_cmdStart : nextState? (exec .cmdStart (on ready)) = some (on ready) := by decide

theorem test_cmdStartRun : (bus0 (exec .cmdStartRun (on ready))).bind Bus.act = some ⟨.s, false, .tx, false, .mt⟩ := by decide

theorem test_cmdStartRun_2 : (bus0 (exec .cmdStartRun (on { inMt with saRs := true }))).bind Bus.act = some ⟨.sr, true, .rxNack, false, .mr⟩ := by decide

theorem test_cmdStop : (bus0 (exec .cmdStop (on inMr))).bind Bus.act = some ⟨.no, false, .no, true, .idle⟩ := by decide

theorem test_cmdStop_2 : nextState? (exec .cmdStop (on { ready with error := true, adrack := true })) = some (on { ready with error := true, adrack := true }) := by decide

theorem test_cmdRunStop : (bus0 (exec .cmdRunStop (on inMt))).bind Bus.act = some ⟨.no, false, .tx, true, .idle⟩ := by decide

theorem test_cmdRunStop_2 : (bus0 (exec .cmdRunStop (on inMr))).bind Bus.act = some ⟨.no, false, .rxNack, true, .idle⟩ := by decide

theorem test_cmdStartStop : nextState? (exec .cmdStartStop (on inMt)) = some (on inMt) := by decide

theorem test_cmdStartRunStop : (bus0 (exec .cmdStartRunStop (on ready))).bind Bus.act = some ⟨.s, false, .tx, true, .idle⟩ := by decide

theorem test_cmdStartRunStop_2 : (bus0 (exec .cmdStartRunStop (on { inMr with saRs := true }))).bind Bus.act = some ⟨.sr, true, .rxNack, true, .idle⟩ := by decide

theorem test_cmdAck : nextState? (exec .cmdAck (on inMr)) = some (on inMr) := by decide

theorem test_cmdAckRun : (bus0 (exec .cmdAckRun (on inMt))).bind Bus.act = some ⟨.no, false, .tx, false, .mt⟩ := by decide

theorem test_cmdAckRun_2 : (bus0 (exec .cmdAckRun (on inMr))).bind Bus.act = some ⟨.no, false, .rxAck, false, .mr⟩ := by decide

theorem test_cmdAckStart : nextState? (exec .cmdAckStart (on inMt)) = some (on inMt) := by decide

theorem test_cmdAckStartRun : (bus0 (exec .cmdAckStartRun (on inMr))).bind Bus.act = some ⟨.sr, false, .tx, false, .mt⟩ := by decide

theorem test_cmdAckStartRun_2 : (bus0 (exec .cmdAckStartRun (on { ready with saRs := true }))).bind Bus.act = some ⟨.s, true, .rxAck, false, .mr⟩ := by decide

theorem test_cmdAckStop : (bus0 (exec .cmdAckStop (on inMt))).bind Bus.act = some ⟨.no, false, .no, true, .idle⟩ := by decide

theorem test_cmdAckStop_2 : nextState? (exec .cmdAckStop (on ready)) = some (on ready) := by decide

theorem test_cmdAckRunStop : (bus0 (exec .cmdAckRunStop (on inMt))).bind Bus.act = some ⟨.no, false, .tx, true, .idle⟩ := by decide

theorem test_cmdAckRunStop_2 : faultOf? (exec .cmdAckRunStop (on inMr)) = some .illegalCommand := by decide

theorem test_cmdAckStartStop : nextState? (exec .cmdAckStartStop (on inMr)) = some (on inMr) := by decide

theorem test_cmdAckStartRunStop : (bus0 (exec .cmdAckStartRunStop (on inMt))).bind Bus.act = some ⟨.sr, false, .tx, true, .idle⟩ := by decide

theorem test_cmdAckStartRunStop_2 : faultOf? (exec .cmdAckStartRunStop (on { ready with saRs := true })) = some .illegalCommand := by decide

/-! ## Completion and expiry (section 5) -/

theorem test_complete_received :
    (bus0 (step { on receiving with sched := [.complete 0 (.ok 0x12)] })).map (fun b => (b.drData, b.rxValid, b.eng)) =
      some (0x12, true, .mr) := by decide

theorem test_complete_addrNack_drawn_idle :
    (bus0 (step { on running with sched := [.complete 0 (.addrNack false)] })).map (fun b => (b.error, b.adrack, b.datack, b.eng)) =
      some (true, true, false, .idle) := by decide

theorem test_complete_not_admitted :
    (bus0 (step { on receiving with sched := [.complete 0 (.dataNack true)] })) = some receiving := by decide

theorem test_visible : bus0 (step { on lagging with sched := [.visible 0] }) = some running := by decide

theorem test_timeoutExpire :
    (bus0 (exec .timeoutExpire (on armed))).map (fun b => (b.clkto, b.busy, b.toArmed, b.act)) =
      some (true, false, false, none) := by decide

theorem test_timeoutExpire_unarmed : refusalOf? (exec .timeoutExpire (on running)) = some .stepNotEnabled := by decide

/-! ## Executor and classifier (section 6, section 2.3) -/

/-- X1: the command is written and EX settles. -/
theorem test_execute_start :
    (nextState? (exec (.execute 0x7 .busbsyClear) (atWork ready [] .wait (exAt .idle 0x7 .busbsyClear)))).map
      (fun t => (t.ex.st, (t.bus 0).act)) = some (.settle, some ⟨.s, false, .tx, true, .idle⟩) := by decide

/-- X3: a NACK with the engine still owning the bus: the outcome is held and the STOP is on its way. -/
theorem test_execute_nack :
    (nextState? (exec (.execute 0x3 .always) (atWork nacked [] .wait (exAt .poll 0x3 .always)))).map
      (fun t => (t.ex.st, t.ex.err, (t.bus 0).act)) =
        some (.nstopSettle, .address, some ⟨.no, false, .no, true, .idle⟩) := by decide

/-- X5: the STOP's own outcome is discarded. -/
theorem test_nackStop_result :
    (nextState? (exec .nackStop { atWork { ready with arblst := true } [] .wait (exAt .nstopPoll 0x1 .always) with
      ex := { exAt .nstopPoll 0x1 .always with err := .data } })).map (fun t => t.ex.result) = some (some .nackData) := by decide

/-- X4: with the engine idle the STOP is a NOP: the flags stay. -/
theorem test_nackStop_idle :
    (nextState? (exec .nackStop (atWork { ready with error := true, adrack := true } [] .wait (exAt .poll 0x3 .always)))).map
      (fun t => (t.ex.st, t.bus 0)) = some (.nstopSettle, { ready with error := true, adrack := true }) := by decide

theorem test_classify_arbitration_over_nack : (nextState? (exec (.classify 0x16) State.reset)).map State.clsCode =
    some .arbitrationLoss := by decide

theorem test_classify_address_over_data : (nextState? (exec (.classify 0x0E) State.reset)).map State.clsCode =
    some .nackAddress := by decide

/-! ## Requests and the sequencer (sections 7 and 8) -/

/-- P1: the only byte of a Write is issued with 0x7 to 0xA0. -/
theorem test_opWrite :
    (nextState? (exec (.opWrite 1 0x100)
      { atWork ready [⟨.write, 1, 0x100⟩] .issue Ex.reset with buf := [(0x100, 0xAB)] })).map
        (fun t => ((t.bus 0).drData, (t.bus 0).saAddr, (t.bus 0).saRs, t.ex.req)) =
      some (0xAB, 0x50, false, some (0x7, .busbsyClear)) := by decide

/-- The last byte of `[W(3)]`: 0x5, and `SA` is not written. -/
theorem test_opWrite_last :
    (nextState? (exec (.opWrite 3 0x100) { atWork inMt [] .issue Ex.reset with
      seq := ⟨.issue, 0x50, [⟨.write, 3, 0x100⟩], 0, 2, false⟩, buf := [(0x102, 0xCC)] })).map
        (fun t => ((t.bus 0).drData, (t.bus 0).saAddr, t.ex.req)) = some (0xCC, 0, some (0x5, .busbsyClear)) := by decide

/-- `[R(3)]`, first byte: 0xB to 0xA1. -/
theorem test_opRead :
    (nextState? (exec (.opRead 3 0x200) (atWork ready [⟨.read, 3, 0x200⟩] .issue Ex.reset))).map
        (fun t => ((t.bus 0).saAddr, (t.bus 0).saRs, t.ex.req)) = some (0x50, true, some (0xB, .always)) := by decide

/-- P2: the received byte is stored where its descriptor says. -/
theorem test_opRead_store :
    (nextState? (step { atWork { inMr with drData := 0x12, rxValid := true } [⟨.read, 2, 0x200⟩] .wait
      { Ex.reset with result := some .ok } with sched := [.seq] })).map (fun t => (t.buf, t.seq.st, t.seq.j)) =
        some ([(0x200, 0x12)], .issue, 1) := by decide

theorem test_transaction_empty :
    (nextState? (exec (.transaction 0x50 []) (held ready))).map (fun t => (t.rspValid, t.rspCode, t.buses)) =
      some (true, .ok, (held ready).buses) := by decide

theorem test_transaction_zero_length :
    (nextState? (exec (.transaction 0x50 [⟨.write, 1, 0⟩, ⟨.read, 0, 1⟩]) (held ready))).map
      (fun t => (t.rspValid, t.rspCode, t.seq.st)) = some (true, .invalidArgument, .idle) := by decide

/-- Section 8.1. -/
theorem test_divisors : tprOf 16000000 100000 = 7 ∧ tprOf 80000000 400000 = 9 ∧ tprOf 3000000 100000 = 1 ∧
    tprOf 51000000 20000 = 127 ∧ tprOf 52000000 20000 = 129 ∧ tprOf 16000000 2000000 = -1 ∧ tprOf 1 1 = -1 := by decide

theorem test_configure_divisor : faultOf? (exec (.configure 0 999999 100000) State.reset) = some .configOutOfRange := by decide

theorem test_release : (nextState? (exec .release (held inMt))).map (fun t => (t.owned, (t.bus 0).eng)) =
    some (false, .mt) := by decide

theorem test_release_unowned : refusalOf? (exec .release (on ready)) = some .requestNotAdmitted := by decide

theorem test_reset : (nextState? (exec .reset { held running with buf := [(3, 9)] })).map (fun t => (t.bus 0, t.owned, t.buf)) =
    some (Bus.reset, false, [(3, 9)]) := by decide

/-- A host access to the bound instance is no move (R63). -/
theorem test_bound_instance_refused : refusalOf? (exec .rdCr (held ready)) = some .ownedByHandle := by decide

/-- A bare command word with a reserved bit, at the bound instance and at a free one: ownership comes first, then the fault
(preamble of 40_register_interface.md, R89). -/
theorem test_bare_reserved_command :
    refusalOf? (runPacket ⟨.cmdWord, [0x10]⟩ (held ready)) = some .ownedByHandle ∧
    faultOf? (runPacket ⟨.cmdWord, [0x10]⟩ (on ready)) = some .reservedBitSet := by decide

/-- The sixteen commands and the placed word: after reset CMD 0x7 faults (section 9). -/
theorem test_placed_command : faultOf? (step (State.reset.withFetchWord 32 0x7)) = some .masterDisabled := by decide

/-! ## Witnesses: concrete states that meet the hypotheses of each statement -/

theorem reaches (b : Bus) : (on b).HostReaches 0 := ⟨rfl, Nat.succ_pos _, fun h => absurd h.1 (by decide : ¬(false = true))⟩

theorem reset_sound : State.reset.Sound := ⟨rfl, rfl, fun _ => Bus.reset_sound⟩

theorem on_sound {b : Bus} (h : b.Sound) : (on b).Sound := reset_sound.setBus 0 h

theorem ready_sound : ready.Sound := ⟨by decide, by decide, by decide, by decide, by decide, by decide⟩

theorem inMt_sound : inMt.Sound := ⟨by decide, by decide, by decide, by decide, by decide, by decide⟩

theorem lagging_sound : lagging.Sound := ⟨by decide, by decide, by decide, by decide, by decide, by decide⟩

theorem running_sound : running.Sound := ⟨by decide, by decide, by decide, by decide, by decide, by decide⟩

theorem armed_sound : armed.Sound := ⟨by decide, by decide, by decide, by decide, by decide, by decide⟩

/-- The conditions under which the engine states, the busy lag and an action are met by the host's register accesses. -/
theorem witness_hostReaches : (on ready).HostReaches 0 ∧ (on inMt).HostReaches 0 ∧ (on inMr).HostReaches 0 ∧
    (on running).HostReaches 0 ∧ (on lagging).HostReaches 0 ∧ (on Bus.reset).HostReaches 0 :=
  ⟨reaches _, reaches _, reaches _, reaches _, reaches _, reaches _⟩

theorem witness_DecodeUndoesEncode : (Instr.wrCmd 0xFFFFFFFF).wellFormed = true ∧ (Instr.opRead 0 0).wellFormed = true ∧
    (Instr.execute 0xF .busbsyClear).wellFormed = true := ⟨rfl, rfl, by decide⟩

theorem witness_EncodeUndoesDecode : decode ⟨.regWord, [0x1024, 0xFFFFFFFF]⟩ = .ok (.wrToc 0xFFFFFFFF) ∧
    decode ⟨.executor, [0xF, 1]⟩ = .ok (.execute 0xF .busbsyClear) := ⟨rfl, rfl⟩

theorem witness_RejectedAccessesFault :
    ({ State.reset with sched := [.port 0 ⟨.regByte, [2]⟩] } : State).sched = [.port 0 ⟨.regByte, [2]⟩] ∧
    ({ State.reset with sched := [.port 0 ⟨.regHalf, [0x1000, 0]⟩] } : State).sched = [.port 0 ⟨.regHalf, [0x1000, 0]⟩] ∧
    ({ State.reset with sched := [.port 0 ⟨.regWord, [0xFFF]⟩] } : State).sched = [.port 0 ⟨.regWord, [0xFFF]⟩] ∧
    0xFFF < 0x1000 ∧ 0xFFF % 4 ≠ 0 ∧ 0x001 % 4 ≠ 0 ∧
    0xFFC % 4 = 0 ∧ 0xFFC ∉ [0x000, 0x004, 0x008, 0x00C, 0x020, 0x024] ∧
    0x010 % 4 = 0 ∧ 0x010 ∉ [0x000, 0x004, 0x008, 0x00C, 0x020, 0x024] ∧ 2 ^ 32 - 1 < 2 ^ 32 := by decide

theorem witness_StepRunsPresentedInstruction :
    ({ State.reset with sched := [.port 0 ⟨.regWord, [0x20]⟩] } : State).sched = [.port 0 ⟨.regWord, [0x20]⟩] ∧
    Port.external .regWord = true ∧ decode ⟨.regWord, [0x20]⟩ = .ok .rdCr ∧
    tablePacket 32 0xF = some ⟨.cmdWord, [0xF]⟩ ∧ Port.external .cmdWord = true ∧
    decode ⟨.cmdWord, [0xF]⟩ = .ok .cmdAckStartRunStop := ⟨rfl, rfl, rfl, rfl, rfl, rfl⟩

/-- The last offset of the first window, and an address above every window. -/
theorem witness_StepRunsPresentedInstruction_addresses :
    (0 < Config.nInstances ∧ 0xFFF < Config.windowBytes ∧ Config.base 0 + 0xFFF = Config.base 0 + 0xFFF) ∧
    ∃ addr, ∀ k, k < Config.nInstances → addr < Config.base k ∨ Config.base k + Config.windowBytes ≤ addr := by
  refine ⟨⟨Nat.succ_pos _, by decide, rfl⟩, ?_⟩
  generalize Config.nInstances = n
  have h : ∃ addr, ∀ k, k < n → Config.base k + Config.windowBytes ≤ addr := by
    induction n with
    | zero => exact ⟨0, fun k h => absurd h (Nat.not_lt_zero k)⟩
    | succ n ih =>
      obtain ⟨a, ha⟩ := ih
      refine ⟨a + (Config.base n + Config.windowBytes), fun k hk => ?_⟩
      rcases Nat.lt_succ_iff_lt_or_eq.1 hk with h | rfl
      · have := ha k h; omega
      · omega
  obtain ⟨a, ha⟩ := h
  exact ⟨a, fun k hk => .inr (ha k hk)⟩

/-- R92: no request is presented, and the step leaves the machine as it is. -/
theorem test_port_at_rest :
    step { State.reset with sched := [.port 0 ⟨.request, [0]⟩, .port 0 ⟨.rst, [0]⟩] } =
      .next { State.reset with sched := [.port 0 ⟨.rst, [0]⟩] } := rfl

/-- Bound, at the first byte of a one-byte Write. -/
def issuing : State := { atWork ready [⟨.write, 1, 0⟩] .issue Ex.reset with sched := [.seq] }

/-- Bound, at an operation of no byte. -/
def issuingEmpty : State := { atWork ready [⟨.write, 0, 0⟩] .issue Ex.reset with sched := [.seq] }

theorem witness_StepRunsInternalInstruction :
    (issuingEmpty.sched = [.seq] ∧ issuingEmpty.seq.st = .issue ∧ issuingEmpty.ex.st = .idle ∧
      issuingEmpty.seq.ops[issuingEmpty.seq.i]? = some ⟨.write, 0, 0⟩ ∧
      decode ⟨.descriptor, Desc.words ⟨.write, 0, 0⟩⟩ = .ok (.opWrite 0 0)) ∧
    ((exAt .idle 0xF .always).req = some (0xF, .always) ∧ (0xF : Word).toNat < 16 ∧
      (exAt .idle 0xF .always).st ≠ .nstopSettle ∧ (exAt .idle 0xF .always).st ≠ .nstopPoll) ∧
    ((exAt .nstopSettle 0x3 .always).st = .nstopSettle ∧ (exAt .nstopPoll 0x3 .always).st = .nstopPoll) ∧
    ((on armed).bus 0).canExpire = true :=
  ⟨⟨rfl, rfl, rfl, rfl, rfl⟩, ⟨rfl, by decide, by decide, by decide⟩, ⟨rfl, rfl⟩, by decide⟩

theorem witness_DisabledStepsAreHeld :
    ((on ready).bus 0).lag = false ∧ ((on ready).bus 0).busy = false ∧ ((on lagging).bus 0).lag = true ∧
    ((on receiving).bus 0).act = some ⟨.no, false, .rxAck, false, .mr⟩ ∧
    Action.admits ⟨.no, false, .rxAck, false, .mr⟩ (.dataNack true) = false ∧
    ((on running).bus 0).toArmed = false ∧ State.reset.ex.st = .idle ∧ State.reset.ex.req = none ∧
    State.reset.seq.st = .idle ∧ (atWork running [] .wait (exAt .poll 0x3 .always)).seq.st = .wait ∧
    (atWork running [] .wait (exAt .poll 0x3 .always)).ex.result = none := by decide

theorem witness_FairStepsGoOn :
    ((on lagging).sched = [] ∧ (on lagging).Sound ∧ ((on lagging).bus 0).lag = true) ∧
    ((on armed).sched = [] ∧ (on armed).Sound ∧ ((on armed).bus 0).canExpire = true ∧ ∀ k, ((on armed).bus k).lag = false) ∧
    ((on ready).sched = [] ∧ (on ready).Sound ∧ (on ready).fetchEx = none ∧
      ∀ k, ((on ready).bus k).lag = false ∧ ((on ready).bus k).canExpire = false) ∧
    ({ on ready with ex := exAt .settle 0x7 .always } : State).fetchEx = some ⟨.executor, [7, 0]⟩ := by
  refine ⟨⟨rfl, on_sound lagging_sound, by decide⟩, ⟨rfl, on_sound armed_sound, by decide, fun k => ?_⟩,
    ⟨rfl, on_sound ready_sound, by decide, fun k => ?_⟩, by decide⟩
  · rcases bus_setBus_or State.reset 0 k armed with h | ⟨-, h⟩ <;> rw [on, h] <;> rfl
  · rcases bus_setBus_or State.reset 0 k ready with h | ⟨-, h⟩ <;> rw [on, h] <;> exact ⟨rfl, rfl⟩

theorem witness_StatusReadShowsFlags :
    ((on ready).HostReaches 0 ∧ ((on ready).bus 0).lag = false ∧ ((on ready).bus 0).eng = .idle ∧
      ((on ready).bus 0).busy = false ∧ ({ on ready with busDraws := [true] } : State).busDraws = [true]) ∧
    ((on inMt).HostReaches 0 ∧ ((on inMt).bus 0).eng ≠ .idle) ∧
    ((on running).HostReaches 0 ∧ ((on running).bus 0).busy = true) :=
  ⟨⟨reaches _, by decide, by decide, by decide, rfl⟩, ⟨reaches _, by decide⟩, ⟨reaches _, by decide⟩⟩

/-- An instance that holds a received byte. -/
def received : Bus := { ready with drData := 0x5A, rxValid := true }

theorem witness_DataReadShowsReceivedByte : (on received).HostReaches 0 ∧ ((on received).bus 0).busy = false ∧
    ((on received).bus 0).lag = false ∧ ((on received).bus 0).rxValid = true :=
  ⟨reaches _, by decide, by decide, by decide⟩

theorem witness_ReadsChangeNoState : Instr.rdToc ∈ [Instr.rdSa, .rdStat, .rdDr, .rdTpr, .rdCr, .rdToc] ∧
    ∃ t, exec .rdToc (on ready) = .next t := ⟨by decide, _, rfl⟩

theorem witness_OperandWrites_and_TimingWrites :
    (on ready).HostReaches 0 ∧ ((on ready).bus 0).busy = false ∧ ((on ready).bus 0).lag = false ∧
    ((on running).bus 0).busy = true ∧ ((on lagging).bus 0).lag = true ∧
    256 ≤ (0x100 : Word).toNat ∧ (0xFF : Word).toNat < 256 ∧ 128 ≤ (0x80 : Word).toNat ∧ (0x7F : Word).toNat < 128 :=
  ⟨reaches _, by decide, by decide, by decide, by decide, by decide, by decide, by decide, by decide⟩

theorem witness_ControlWrite : (on ready).HostReaches 0 ∧ (0x11 : Word) ≠ 0 ∧ (0x11 : Word) ≠ 0x10 ∧
    ((on running).bus 0).busy = true ∧ ((on lagging).bus 0).lag = true ∧ ((on inMt).bus 0).busy = false ∧
    ((on inMt).bus 0).lag = false ∧ ((on inMt).bus 0).eng ≠ .idle ∧ ((on ready).bus 0).eng = .idle :=
  ⟨reaches _, by decide, by decide, by decide, by decide, by decide, by decide, by decide, by decide⟩

theorem witness_CommandStrobe :
    (on ready).HostReaches 0 ∧ 16 ≤ (0x10 : Word).toNat ∧ (0xF : Word).toNat < 16 ∧ (State.reset.bus 0).mfe = false ∧
    ((on running).bus 0).mfe = true ∧ ((on running).bus 0).busy = true ∧ ((on lagging).bus 0).lag = true ∧
    ((on ready).bus 0).mfe = true ∧ ((on ready).bus 0).busy = false ∧ ((on ready).bus 0).lag = false :=
  ⟨reaches _, by decide, by decide, by decide, by decide, by decide, by decide, by decide, by decide, by decide⟩

theorem witness_CommandTable :
    (0b0111 : BitVec 4).getLsbD 1 = true ∧ (0b0111 : BitVec 4).getLsbD 0 = true ∧ (0b0111 : BitVec 4).getLsbD 2 = true ∧
    (0b0111 : BitVec 4).getLsbD 3 = false := by decide

/-- For IllegalCommandsExactly and for the command statements: every engine state and both directions. -/
theorem witness_commands :
    (on ready).HostReaches 0 ∧ ((on ready).bus 0).mfe = true ∧ ((on ready).bus 0).busy = false ∧
    ((on ready).bus 0).lag = false ∧ ((on ready).bus 0).eng = .idle ∧ ((on ready).bus 0).saRs = false ∧
    (on inMt).HostReaches 0 ∧ ((on inMt).bus 0).eng = .mt ∧ ((on inMt).bus 0).mfe = true ∧
    (on inMr).HostReaches 0 ∧ ((on inMr).bus 0).eng = .mr ∧ ((on inMr).bus 0).mfe = true ∧
    ((on { inMr with saRs := true }).bus 0).saRs = true :=
  ⟨reaches _, by decide, by decide, by decide, by decide, by decide, reaches _, by decide, by decide, reaches _, by decide,
    by decide, by decide⟩

theorem witness_AcceptanceThenVisibility : ({ ready with tocCnt := 1 } : Bus).tocCnt ≠ 0 ∧ ready.tocCnt = 0 ∧
    ({ on lagging with sched := [.visible 0] } : State).sched = [.visible 0] ∧ ((on lagging).bus 0).lag = true := by decide

theorem witness_CommandsTouchOneEngine : ∃ t, exec (.wrCmd 3) (on ready) = .next t := ⟨_, rfl⟩

theorem witness_CompletionOk :
    ({ on running with sched := [.complete 0 (.ok 0)] } : State).sched = [.complete 0 (.ok 0)] ∧
    ((on running).bus 0).busy = true ∧ ((on running).bus 0).lag = false ∧
    ((on running).bus 0).act = some ⟨.s, false, .tx, false, .mt⟩ ∧
    ((on receiving).bus 0).act = some ⟨.no, false, .rxAck, false, .mr⟩ ∧ ((on receiving).bus 0).busy = true := by decide

theorem witness_CompletionOk_sound : ((on running).bus 0).Sound := (on_sound running_sound).bus_sound 0

theorem witness_CompletionNack :
    ({ on running with sched := [.complete 0 (.addrNack true)] } : State).sched = [.complete 0 (.addrNack true)] ∧
    ({ on running with sched := [.complete 0 (.dataNack false)] } : State).sched = [.complete 0 (.dataNack false)] ∧
    ((on running).bus 0).busy = true ∧ ((on running).bus 0).lag = false ∧
    ((on running).bus 0).act = some ⟨.s, false, .tx, false, .mt⟩ := by decide

theorem witness_CompletionArbitrationLost :
    ({ on receiving with sched := [.complete 0 .arbLost] } : State).sched = [.complete 0 .arbLost] ∧
    ((on receiving).bus 0).busy = true ∧ ((on receiving).bus 0).lag = false ∧
    ((on receiving).bus 0).act = some ⟨.no, false, .rxAck, false, .mr⟩ := by decide

theorem witness_TimeoutExpiry : ((on armed).bus (on armed).sel).toArmed = true ∧ ((on armed).bus (on armed).sel).busy = true ∧
    ((on armed).bus (on armed).sel).lag = false ∧
    ((on armed).bus (on armed).sel).act = some ⟨.s, false, .tx, false, .mt⟩ := by decide

theorem witness_OnlyZeroBudgetIsUnbounded : ready.tocCnt = 0 ∧ (on running).bus (on running).sel =
    (ready.accept ⟨.s, false, .tx, false, .mt⟩).becomeVisible ∧
    ({ ready with tocCnt := 1 } : Bus).tocCnt ≠ 0 := ⟨rfl, by decide, by decide⟩

/-- Waiting for a one-byte Write, EX as `x`, instance 0 as `b`. -/
def waiting (b : Bus) (x : Ex) : State := atWork b [⟨.write, 1, 0⟩] .wait x

theorem witness_ExecuteStartsAndSettles :
    ((waiting ready (exAt .idle 0xF .always)).ex.req = some (0xF, .always) ∧
      (waiting ready (exAt .idle 0xF .always)).ex.st = .idle ∧ (0xF : Word).toNat < 16 ∧
      ((waiting ready (exAt .idle 0xF .always)).bus 0).mfe = true ∧
      ((waiting ready (exAt .idle 0xF .always)).bus 0).busy = false ∧
      ((waiting ready (exAt .idle 0xF .always)).bus 0).lag = false) ∧
    engDecode .idle false ((0xF : Word).extractLsb' 0 4) = .action ⟨.s, false, .tx, true, .idle⟩ ∧
    engDecode .idle false ((0x0 : Word).extractLsb' 0 4) = .nop ∧
    ((waiting lagging (exAt .settle 0x3 .always)).ex.st = .settle ∧
      ((waiting lagging (exAt .settle 0x3 .always)).bus 0).lag = true ∧
      ((waiting running (exAt .settle 0x3 .always)).bus 0).lag = false) := by decide

theorem witness_ExecutePolls :
    ((waiting running (exAt .poll 0x3 .always)).ex.st = .poll ∧
      (waiting running (exAt .poll 0x3 .always)).ex.req = some (0x3, .always) ∧
      ((waiting running (exAt .poll 0x3 .always)).bus 0).lag = false ∧
      ((waiting running (exAt .poll 0x3 .always)).bus 0).mfe = true ∧
      ((waiting running (exAt .poll 0x3 .always)).bus 0).busy = true) ∧
    ((waiting nacked (exAt .poll 0x3 .always)).bus 0).busy = false ∧ nacked.outcome = .nackAddress ∧
    ({ inMt with error := true, datack := true } : Bus).outcome = .nackData ∧
    ({ ready with clkto := true } : Bus).outcome = .timeout ∧ ({ ready with arblst := true } : Bus).outcome = .arbitrationLoss ∧
    inMt.outcome = .ok ∧ (exAt .poll 0x3 .always).wc = .always ∧ (exAt .poll 0x7 .busbsyClear).wc = .busbsyClear := by decide

theorem witness_ExecuteWaits :
    (waiting ready (exAt .waitc 0x7 .busbsyClear)).ex.st = .waitc ∧
    (waiting ready (exAt .waitc 0x7 .busbsyClear)).ex.req = some (0x7, .busbsyClear) ∧
    ((waiting ready (exAt .waitc 0x7 .busbsyClear)).bus 0).lag = false ∧
    ((waiting ready (exAt .waitc 0x7 .busbsyClear)).bus 0).busy = false ∧
    ((waiting ready (exAt .waitc 0x7 .busbsyClear)).bus 0).mfe = true ∧ ready.outcome = .ok ∧ ready.eng = .idle ∧
    inMt.outcome = .ok ∧ inMt.eng ≠ .idle ∧ nacked.outcome = .nackAddress ∧ nacked.busy = false ∧
    ({ ready with clkto := true } : Bus).outcome = .timeout ∧ ({ ready with arblst := true } : Bus).outcome = .arbitrationLoss ∧
    ({ inMt with error := true, datack := true } : Bus).outcome = .nackData ∧
    ({ waiting ready (exAt .waitc 0x7 .busbsyClear) with busDraws := [false] } : State).busDraws = [false] := by decide

theorem witness_ExecutorTouchesOneEngine :
    (∃ t, exec (.execute 0x3 .always) (waiting ready (exAt .idle 0x3 .always)) = .next t) ∧
    ∃ t, exec .nackStop (waiting nacked (exAt .nstopSettle 0x3 .always)) = .next t := ⟨⟨_, rfl⟩, ⟨_, rfl⟩⟩

theorem witness_RecoveryStop :
    ((waiting nacked (exAt .poll 0x3 .always)).ex.st = .poll ∧ (waiting nacked (exAt .waitc 0x3 .always)).ex.st = .waitc ∧
      ((waiting nacked (exAt .poll 0x3 .always)).bus 0).mfe = true ∧
      ((waiting nacked (exAt .poll 0x3 .always)).bus 0).busy = false ∧
      ((waiting nacked (exAt .poll 0x3 .always)).bus 0).lag = false ∧ nacked.eng ≠ .idle ∧ ready.eng = .idle) ∧
    ((waiting lagging (exAt .nstopSettle 0x3 .always)).ex.st = .nstopSettle ∧ lagging.lag = true ∧ running.lag = false) ∧
    ((waiting running (exAt .nstopPoll 0x3 .always)).ex.st = .nstopPoll ∧ running.busy = true ∧ ready.busy = false ∧
      (waiting ready (exAt .nstopPoll 0x3 .always)).ex.err = .address ∧
      ({ exAt .nstopPoll 0x3 .always with err := .data } : Ex).err = .data) := by decide

theorem witness_ClassifierPriority :
    (0x80 : Word).getLsbD 7 = true ∧ (0x16 : Word).getLsbD 7 = false ∧ (0x16 : Word).getLsbD 4 = true ∧
    (0x06 : Word).getLsbD 4 = false ∧ (0x06 : Word).getLsbD 1 = true ∧ (0x06 : Word).getLsbD 2 = true ∧
    (0x0A : Word).getLsbD 1 = true ∧ (0x0A : Word).getLsbD 2 = false ∧ (0x0A : Word).getLsbD 3 = true ∧
    (0x0C : Word).getLsbD 1 = false := by decide

theorem witness_EngineOutcomesClassified : running.Sound ∧ running.act = some ⟨.s, false, .tx, false, .mt⟩ :=
  ⟨running_sound, rfl⟩

theorem witness_TransactionAcceptance :
    (held ready).owned = true ∧ (held ready).seq.st = .idle ∧ ([⟨.write, 1, 0⟩] : List Desc) ≠ [] ∧
    (∀ d ∈ ([⟨.write, 1, 0⟩] : List Desc), d.len ≠ 0) ∧ (∃ d ∈ ([⟨.read, 0, 0⟩] : List Desc), d.len = 0) ∧
    (on ready).owned = false ∧ (waiting ready Ex.reset).seq.st ≠ .idle := by decide

theorem witness_WriteByteIssued :
    issuing.seq.st = .issue ∧ issuing.ex.st = .idle ∧ issuing.seq.ops[issuing.seq.i]? = some ⟨.write, 1, 0⟩ ∧
    issuing.seq.j < 1 ∧ (issuing.bus issuing.inst).busy = false ∧ (issuing.bus issuing.inst).lag = false := by decide

theorem witness_ReadByteIssued :
    (atWork ready [⟨.read, 1, 0⟩] .issue Ex.reset).seq.st = .issue ∧
    (atWork ready [⟨.read, 1, 0⟩] .issue Ex.reset).ex.st = .idle ∧
    (atWork ready [⟨.read, 1, 0⟩] .issue Ex.reset).seq.ops[0]? = some ⟨.read, 1, 0⟩ ∧
    (atWork ready [⟨.read, 1, 0⟩] .issue Ex.reset).seq.j < 1 ∧
    ((atWork ready [⟨.read, 1, 0⟩] .issue Ex.reset).bus 0).busy = false ∧
    ((atWork ready [⟨.read, 1, 0⟩] .issue Ex.reset).bus 0).lag = false := by decide

/-- A result waits for SEQ. -/
def finished (b : Bus) (ops : List Desc) (r : Code) : State :=
  { atWork b ops .wait { Ex.reset with result := some r } with sched := [.seq] }

theorem witness_ByteCompleted :
    (finished ready [⟨.write, 1, 0⟩] .timeout).sched = [.seq] ∧ (finished ready [⟨.write, 1, 0⟩] .timeout).seq.st = .wait ∧
    (finished ready [⟨.write, 1, 0⟩] .timeout).ex.result = some .timeout ∧
    (finished ready [⟨.write, 1, 0⟩] .ok).seq.ops[0]? = some ⟨.write, 1, 0⟩ ∧
    (1 ≤ (finished ready [⟨.write, 1, 0⟩] .ok).seq.j + 1) ∧ (finished ready [⟨.write, 1, 0⟩] .ok).seq.ops[1]? = none ∧
    (finished inMt [⟨.write, 2, 0⟩] .ok).seq.j + 1 < 2 ∧
    (finished inMt [⟨.write, 1, 0⟩, ⟨.read, 1, 4⟩] .ok).seq.ops[1]? = some ⟨.read, 1, 4⟩ ∧
    ((finished received [⟨.read, 1, 4⟩] .ok).bus 0).rxValid = true ∧
    ((finished received [⟨.read, 1, 4⟩] .ok).bus 0).busy = false ∧
    ((finished received [⟨.read, 1, 4⟩] .ok).bus 0).lag = false := by decide

theorem witness_CommandSelection : lastGlobal [⟨.write, 1, 0⟩, ⟨.read, 2, 4⟩] 1 1 2 = true ∧
    lastGlobal [⟨.write, 1, 0⟩, ⟨.read, 2, 4⟩] 1 0 2 = false := by decide

theorem witness_DirectionChangeRepeatsStart : ([⟨.write, 1, 0⟩, ⟨.read, 1, 4⟩] : List Desc)[0]? = some ⟨.write, 1, 0⟩ ∧
    ([⟨.write, 1, 0⟩, ⟨.read, 1, 4⟩] : List Desc)[0 + 1]? = some ⟨.read, 1, 4⟩ ∧
    (Dir.write ≠ Dir.read) ∧ (Eng.mt ≠ Eng.idle) := by decide

theorem witness_CommandCounts : ([⟨.write, 1, 0⟩] : List Desc) ≠ [] ∧ (∀ d ∈ ([⟨.write, 1, 0⟩] : List Desc), 0 < d.len) ∧
    issuing.seq.st = .issue ∧ issuing.ex.st = .idle ∧ issuing.seq.ops = [⟨.write, 1, 0⟩] ∧ issuing.atByte ⟨.write, 1, 0⟩ ∧
    ∃ t, seqMove issuing = .next t :=
  ⟨by decide, by decide, rfl, rfl, rfl, ⟨rfl, by decide, by decide⟩, ⟨_, rfl⟩⟩

theorem witness_ConfigureBindsInstance :
    State.reset.owned = false ∧ State.reset.seq.st = .idle ∧ 0 < Config.nInstances ∧
    tprOf 999999 100000 < 0 ∧ 127 < tprOf 52000000 20000 ∧ 0 ≤ tprOf 1000000 100000 ∧ tprOf 51200000 20000 ≤ 127 ∧
    (State.reset.bus 0).busy = false ∧ (State.reset.bus 0).lag = false ∧ ((on running).bus 0).busy = true ∧
    (on running).owned = false ∧ Config.nInstances ≤ Config.nInstances :=
  ⟨rfl, rfl, Nat.succ_pos _, by decide, by decide, by decide, by decide, rfl, rfl, by decide, rfl, Nat.le_refl _⟩

theorem witness_DivisorRoundsHalfUp : (1 : Nat) ≠ 0 ∧ (100000 : Nat) ≠ 0 := by decide

theorem witness_ReleaseFreesHandle : (held ready).owned = true ∧ (held ready).seq.st = .idle ∧ (on ready).owned = false ∧
    (waiting ready Ex.reset).seq.st ≠ .idle := by decide

/-- The machine waiting for a one-byte Write just accepted is in order. -/
theorem settling_ordered : (waiting ({ ready with tocCnt := 1 }.accept ⟨.s, false, .tx, true, .idle⟩)
    (exAt .settle 0x7 .busbsyClear)).Ordered := by
  refine State.Ordered.wait (d := ⟨.write, 1, 0⟩) rfl ⟨Nat.succ_pos _, by decide⟩ rfl (by decide)
    ⟨rfl, by decide, by decide⟩ ⟨by decide, rfl, rfl, ?_⟩
  · exact ⟨by decide, fun h => by cases h⟩

theorem settling_sound : (waiting ({ ready with tocCnt := 1 }.accept ⟨.s, false, .tx, true, .idle⟩)
    (exAt .settle 0x7 .busbsyClear)).Sound :=
  (on_sound (b := { ready with tocCnt := 1 }.accept ⟨.s, false, .tx, true, .idle⟩)
    ((ready_sound.writes (c := { ready with tocCnt := 1 })
      ⟨by decide, by decide, true, 0, false, 0, false, 1, 1, by decide⟩).accepted (by decide) (by decide) _)).of_eq rfl rfl

/-- For StepKeepsSound, StepKeepsOrdered, ControllerNeverFaults. -/
theorem witness_invariants : State.reset.Sound ∧ (on lagging).Sound ∧
    (waiting ({ ready with tocCnt := 1 }.accept ⟨.s, false, .tx, true, .idle⟩) (exAt .settle 0x7 .busbsyClear)).Sound ∧
    (waiting ({ ready with tocCnt := 1 }.accept ⟨.s, false, .tx, true, .idle⟩) (exAt .settle 0x7 .busbsyClear)).Ordered ∧
    (∃ t, step (on lagging) = .next t) ∧ (on lagging).sched = [] ∧
    (∃ t, step (waiting ({ ready with tocCnt := 1 }.accept ⟨.s, false, .tx, true, .idle⟩) (exAt .settle 0x7 .busbsyClear)) = .next t) :=
  ⟨reset_sound, on_sound lagging_sound, settling_sound, settling_ordered, ⟨_, rfl⟩, rfl, ⟨_, rfl⟩⟩

/-- For StepKeepsOperationsAdmitted. -/
theorem witness_StepKeepsOperationsAdmitted : opsAdmitted (on lagging).seq.ops = true ∧ ∃ t, step (on lagging) = .next t :=
  ⟨rfl, ⟨_, rfl⟩⟩

theorem witness_SequencerCommandsAreActions :
    (waiting ready (exAt .idle 0x7 .busbsyClear)).Sound ∧ (waiting ready (exAt .idle 0x7 .busbsyClear)).Ordered ∧
    (waiting ready (exAt .idle 0x7 .busbsyClear)).seq.st = .wait ∧
    (waiting ready (exAt .idle 0x7 .busbsyClear)).atByte ⟨.write, 1, 0⟩ ∧
    (waiting ready (exAt .idle 0x7 .busbsyClear)).ex.st = .idle ∧
    (waiting ready (exAt .idle 0x7 .busbsyClear)).ex.req = some (0x7, .busbsyClear) := by
  refine ⟨(on_sound ready_sound).of_eq rfl rfl, ?_, rfl, ⟨rfl, by decide, by decide⟩, rfl, rfl⟩
  refine State.Ordered.wait (d := ⟨.write, 1, 0⟩) rfl ⟨Nat.succ_pos _, by decide⟩ rfl (by decide)
    ⟨rfl, by decide, by decide⟩ ⟨by decide, .inl ⟨by decide, rfl, ?_, ?_⟩⟩
  · intro h; cases h
  · intro _; decide

theorem witness_BufferChangesOnlyByReadBytes :
    ∃ t, step { State.reset with sched := [.hostStore 0 5] } = .next t ∧ t.memRead 0 ≠ State.reset.memRead 0 :=
  ⟨_, rfl, by decide⟩

theorem witness_EngineStateChangesOnlyBy :
    ∃ t, step { on running with sched := [.complete 0 (.ok 0)] } = .next t ∧ (t.bus 0).eng ≠ ((on running).bus 0).eng :=
  ⟨_, rfl, by decide⟩

theorem witness_BusyAndTimeoutSetOnlyBy :
    (∃ t, step { on lagging with sched := [.visible 0] } = .next t ∧ ((on lagging).bus 0).busy = false ∧ (t.bus 0).busy = true) ∧
    ∃ t, step { on armed with sched := [.expire 0] } = .next t ∧ ((on armed).bus 0).clkto = false ∧ (t.bus 0).clkto = true :=
  ⟨⟨_, rfl, by decide, by decide⟩, ⟨_, rfl, by decide, by decide⟩⟩

theorem witness_HandleExcludesHost :
    (held ready).owned = true ∧ (⟨.classifier, [0x16]⟩ : Packet) ≠ ⟨.rst, [1]⟩ ∧
    (∃ t, step { held ready with sched := [.port 0 ⟨.classifier, [0x16]⟩] } = .next t) ∧
    (∃ t, step { waiting ready Ex.reset with sched := [.port 0 ⟨.classifier, [0x16]⟩] } = .next t) ∧
    (waiting ready Ex.reset).seq.st ≠ .idle := ⟨rfl, by decide, ⟨_, rfl⟩, ⟨_, rfl⟩, by decide⟩

/-- The start of a one-byte Write whose environment answers `OK` and then an idle bus. -/
def writeStart : State :=
  { atWork ready [⟨.write, 1, 0⟩] .issue Ex.reset with
    busDraws := [true, false]
    sched := [.seq, .ex, .visible 0, .ex, .ex, .complete 0 (.ok 0), .ex, .ex, .seq] }

theorem witness_OneByteWriteRun :
    writeStart.Sound ∧ writeStart.owned = true ∧ writeStart.seq = ⟨.issue, 0x50, [⟨.write, 1, 0⟩], 0, 0, true⟩ ∧
    writeStart.exRests ∧ (writeStart.bus writeStart.inst).act = none ∧ (writeStart.bus writeStart.inst).mfe = true ∧
    (writeStart.bus writeStart.inst).eng = .idle ∧ writeStart.busDraws = true :: false :: [] ∧
    writeStart.sched = [.seq, .ex, .visible writeStart.inst, .ex, .ex, .complete writeStart.inst (.ok 0), .ex, .ex, .seq] ++ [] :=
  ⟨(on_sound ready_sound).of_eq rfl rfl, rfl, rfl, ⟨rfl, rfl, rfl⟩, by decide, by decide, by decide, rfl, rfl⟩

theorem witness_StuckCycleTimesOut :
    (waiting ({ ready with tocCnt := 1 }.accept ⟨.s, false, .tx, true, .idle⟩) (exAt .settle 0x7 .busbsyClear)).sched = [] ∧
    (({ ready with tocCnt := 1 } : Bus).accept ⟨.s, false, .tx, true, .idle⟩).toArmed = true ∧
    (({ ready with tocCnt := 1 } : Bus).accept ⟨.s, false, .tx, true, .idle⟩).lag = true ∧
    (({ ready with tocCnt := 1 } : Bus).accept ⟨.s, false, .tx, true, .idle⟩).act = some ⟨.s, false, .tx, true, .idle⟩ ∧
    ∀ k, k ≠ 0 → ((waiting ({ ready with tocCnt := 1 }.accept ⟨.s, false, .tx, true, .idle⟩)
      (exAt .settle 0x7 .busbsyClear)).bus k).occupied = false := by
  refine ⟨rfl, by decide, by decide, by decide, fun k hk => ?_⟩
  show (((on ({ ready with tocCnt := 1 }.accept ⟨.s, false, .tx, true, .idle⟩))).bus k).occupied = false
  rw [on, bus_setBus_ne _ _ hk]
  rfl

end Sys2Proof.Tests
end

/-! # Memory: accesses the register space rejects (R60, R61, R62) -/

/-! ## What decoding answers to a whole-word access -/

namespace Sys2Proof

/-- The offsets of the register map (R59). -/
def mappedOffsets : List Nat := [0x000, 0x004, 0x008, 0x00C, 0x020, 0x024]

theorem readAt_unmapped {n : Nat} (h : n ∉ mappedOffsets) : readAt n = none := by
  unfold readAt
  split
  case h_7 => rfl
  all_goals exact absurd (by decide) h

theorem writeAt_unmapped {n : Nat} (h : n ∉ mappedOffsets) (w : Word) : writeAt w n = none := by
  unfold writeAt
  split
  case h_7 => rfl
  all_goals exact absurd (by decide) h

theorem accessAt_misaligned {offset : Nat} (h : offset % 4 ≠ 0) (found : Option Instr) :
    accessAt offset found = .error .misalignedAccess := if_pos h

theorem accessAt_unmapped {offset : Nat} (h : offset % 4 = 0) : accessAt offset none = .error .unmappedOffset :=
  if_neg (not_not_intro h)

theorem decode_wordRead {offset : Nat} (h : offset < 0x1000) :
    decode ⟨.regWord, [offset]⟩ = accessAt offset (readAt offset) := if_pos h

theorem decode_wordWrite {offset data : Nat} (h : offset < 0x1000) (hd : data < 2 ^ 32) :
    decode ⟨.regWord, [0x1000 + offset, data]⟩ = accessAt offset (writeAt (BitVec.ofNat 32 data) offset) := by
  have hacc : 0x1000 ≤ 0x1000 + offset ∧ 0x1000 + offset < 0x2000 ∧ data < 2 ^ 32 := ⟨by omega, by omega, hd⟩
  simp only [decode, decodeAccess, if_pos hacc, Nat.add_sub_cancel_left]

end Sys2Proof

/-! ## What a step answers to a rejected packet -/

namespace Sys2Proof.Machine

theorem runPacket_error {p : Packet} {e : DecodeError} (h : decode p = .error e) (s : State) :
    runPacket p s = rejected e s := by
  unfold runPacket; rw [h]

theorem step_port_rejected {s : State} {k : Nat} {p : Packet} {rest : List Move} {e : DecodeError}
    (hs : s.sched = .port k p :: rest) (hp : Port.external p.port = true) (h : decode p = .error e) :
    step s = rejected e { s with sched := rest, sel := k } := by
  rw [step_of_cons hs]
  exact (if_pos hp).trans (runPacket_error h _)

/-- R61 before R62: a whole-word access, whatever the map holds at its offset, is checked for alignment first. -/
theorem step_wordAccess_faults {s : State} {k offset : Nat} {ws : List Nat} {rest : List Move} {found : Option Instr}
    (hs : s.sched = .port k ⟨.regWord, ws⟩ :: rest) (hd : decode ⟨.regWord, ws⟩ = accessAt offset found)
    (hfound : offset ∉ mappedOffsets → found = none) :
    (offset % 4 ≠ 0 → step s = .fault .misalignedAccess) ∧
    (offset % 4 = 0 → offset ∉ mappedOffsets → step s = .fault .unmappedOffset) := by
  constructor
  · intro hmis
    exact step_port_rejected hs rfl (hd.trans (accessAt_misaligned hmis found))
  · intro hal hun
    rw [hfound hun] at hd
    exact step_port_rejected hs rfl (hd.trans (accessAt_unmapped hal))

/-- Settles O4: a subword port decodes to its fault whatever its words, and a word read and a word write both come down to
`accessAt` at the offset, which checks alignment before the map. -/
theorem rejectedAccessesFault : Obligations.RejectedAccessesFault := by
  intro s k rest
  constructor
  · rintro ws (hs | hs)
    · exact step_port_rejected hs rfl rfl
    · exact step_port_rejected hs rfl rfl
  · rintro offset data hoff hdata (hs | hs)
    · exact step_wordAccess_faults hs (decode_wordRead hoff) readAt_unmapped
    · exact step_wordAccess_faults hs (decode_wordWrite hoff hdata) fun hun => writeAt_unmapped hun _

end Sys2Proof.Machine

/-! # Encoding: the command values that fault as illegal (R94) -/

/-! ## Which rows of the command table are illegal (R111) -/

namespace Sys2Proof.Machine

theorem startVerdict_eq_illegal_iff {eng : Eng} {rs ack stop : Bool} :
    startVerdict eng rs ack stop = .illegal ↔ ack = true ∧ stop = true ∧ rs = true := by
  cases rs <;> cases stop <;> cases ack <;> simp [startVerdict]

theorem continueVerdict_eq_illegal_iff {eng : Eng} {ack stop run : Bool} :
    continueVerdict eng ack stop run = .illegal ↔ ack = true ∧ stop = true ∧ run = true ∧ eng = .mr := by
  cases eng <;> cases run <;> cases stop <;> cases ack <;> simp [continueVerdict]

/-- A command value is its four bits `{ACK, STOP, START, RUN}`. -/
theorem commandValue_eq_iff : ∀ v u : BitVec 4, v = u ↔
    v.getLsbD 3 = u.getLsbD 3 ∧ v.getLsbD 2 = u.getLsbD 2 ∧ v.getLsbD 1 = u.getLsbD 1 ∧ v.getLsbD 0 = u.getLsbD 0 := by
  decide

/-- The split is on `START`, then on `RUN`: both illegal values have `RUN` = 1, and `START` tells the one that depends on
`SA.RS` from the one that depends on the engine's state. -/
theorem engDecode_eq_illegal_iff {eng : Eng} {rs : Bool} {v : BitVec 4} :
    engDecode eng rs v = .illegal ↔ (v = 0xF ∧ rs = true) ∨ (v = 0xD ∧ eng = .mr) := by
  rw [commandValue_eq_iff v 0xF, commandValue_eq_iff v 0xD]
  unfold engDecode
  cases v.getLsbD 1 with
  | true =>
    cases v.getLsbD 0 with
    | true => simp [startVerdict_eq_illegal_iff, and_assoc]
    | false => simp
  | false => simp [continueVerdict_eq_illegal_iff, and_assoc]

/-! ## The command strobe of one value -/

theorem command_toNat (v : BitVec 4) : (v.setWidth 32 : Word).toNat < 16 := by
  rw [BitVec.toNat_setWidth]; omega

theorem command_field (v : BitVec 4) : (v.setWidth 32 : Word).extractLsb' 0 4 = v := by
  rw [← BitVec.setWidth_eq_extractLsb' (by decide), BitVec.setWidth_setWidth_of_le v (by decide), BitVec.setWidth_eq]

theorem exec_wrCmd_reaches {s : State} {k : Nat} (h : s.HostReaches k) (w : Word) :
    exec (.wrCmd w) s = writeCmd k w s := hostAccess_reaches h fun k => writeCmd k w s

/-- Settles O18: past the other checks the strobe answers the table's verdict, so the claim is about which verdicts are
illegal. -/
theorem illegalCommandsExactly : Obligations.IllegalCommandsExactly := by
  intro s k v hr hm hb hl
  have hx : exec (.wrCmd (v.setWidth 32)) s = _ :=
    (exec_wrCmd_reaches hr _).trans (writeCmd_admitted (command_toNat v) hm (occupied_eq_false.2 ⟨hb, hl⟩))
  rw [command_field] at hx
  rw [← engDecode_eq_illegal_iff, hx]
  cases engDecode (s.bus k).eng (s.bus k).saRs v with
  | illegal => exact ⟨iff_of_true rfl rfl, fun h => absurd rfl h⟩
  | nop => exact ⟨iff_of_false nofun nofun, fun _ => .inl ⟨rfl, rfl⟩⟩
  | action a => exact ⟨iff_of_false nofun nofun, fun _ => .inr ⟨a, rfl, rfl⟩⟩

end Sys2Proof.Machine

/-! # Register interface: what a host write of a register answers (R105 to R110) -/

/-! ## The guarded writes: reserved bits, then an action in progress, then the field is stored -/

namespace Sys2Proof.Machine

/-- The three answers of a register write whose data word is admitted exactly where `P` holds. -/
theorem guardedWrite_answers {o : Out} {k : Nat} {w m : Word} {s : State} {f : Bus → Out} {P : Prop}
    (ho : o = guardedWrite k w m s f) (hP : w &&& ~~~m = 0 ↔ P) :
    (¬P → o = .fault .reservedBitSet) ∧
    (P → (s.bus k).busy = true ∨ (s.bus k).lag = true → o = .fault .writeWhileBusy) ∧
    (P → (s.bus k).busy = false → (s.bus k).lag = false → o = f (s.bus k)) := by
  subst ho
  exact ⟨fun h => guardedWrite_reserved (mt hP.1 h),
    fun h hbusy => guardedWrite_occupied (hP.2 h) (occupied_eq_true.2 hbusy),
    fun h hb hl => guardedWrite_free (hP.2 h) (occupied_eq_false.2 ⟨hb, hl⟩)⟩

theorem exec_wrSa_reaches {s : State} {k : Nat} (h : s.HostReaches k) (w : Word) :
    exec (.wrSa w) s = writeSa k w s := hostAccess_reaches h fun k => writeSa k w s

theorem exec_wrDr_reaches {s : State} {k : Nat} (h : s.HostReaches k) (w : Word) :
    exec (.wrDr w) s = writeDr k w s := hostAccess_reaches h fun k => writeDr k w s

theorem exec_wrTpr_reaches {s : State} {k : Nat} (h : s.HostReaches k) (w : Word) :
    exec (.wrTpr w) s = writeTpr k w s := hostAccess_reaches h fun k => writeTpr k w s

theorem exec_wrCr_reaches {s : State} {k : Nat} (h : s.HostReaches k) (w : Word) :
    exec (.wrCr w) s = writeCr k w s := hostAccess_reaches h fun k => writeCr k w s

theorem exec_wrToc_reaches {s : State} {k : Nat} (h : s.HostReaches k) (w : Word) :
    exec (.wrToc w) s = writeToc k w s := hostAccess_reaches h fun k => writeToc k w s

/-- Settles O13: both writes are guarded writes of the low eight bits. -/
theorem operandWrites : Obligations.OperandWrites := by
  intro s k w h
  obtain ⟨saReserved, saBusy, saFree⟩ := guardedWrite_answers (exec_wrSa_reaches h w) (mask8_eq_zero w)
  obtain ⟨drReserved, drBusy, drFree⟩ := guardedWrite_answers (exec_wrDr_reaches h w) (mask8_eq_zero w)
  exact ⟨fun hw => ⟨saReserved (Nat.not_lt.2 hw), drReserved (Nat.not_lt.2 hw)⟩,
    fun hw ho => ⟨saBusy hw ho, drBusy hw ho⟩,
    fun hw hb hl => ⟨saFree hw hb hl, drFree hw hb hl⟩⟩

/-- Settles O14: WR_TPR is a guarded write of the low seven bits, WR_TOC of the low eight. -/
theorem timingWrites : Obligations.TimingWrites := by
  intro s k w h
  obtain ⟨tprReserved, tprBusy, tprFree⟩ := guardedWrite_answers (exec_wrTpr_reaches h w) (mask7_eq_zero w)
  obtain ⟨tocReserved, tocBusy, tocFree⟩ := guardedWrite_answers (exec_wrToc_reaches h w) (mask8_eq_zero w)
  exact ⟨fun hw => tprReserved (Nat.not_lt.2 hw), fun hw => tocReserved (Nat.not_lt.2 hw),
    fun ho => ⟨fun hw => tprBusy hw ho, fun hw => tocBusy hw ho⟩,
    fun hb hl => ⟨fun hw => tprFree hw hb hl, fun hw => tocFree hw hb hl⟩⟩

/-- Settles O15: WR_CR is a guarded write of bit 4, so the admitted words are `0` and `0x10`, and only `0` is checked
against the engine's state. -/
theorem controlWrite : Obligations.ControlWrite := by
  intro s k w h
  obtain ⟨reserved, busy, -⟩ := guardedWrite_answers (exec_wrCr_reaches h w) (maskMfe_eq_zero w)
  obtain ⟨-, -, setMfe⟩ := guardedWrite_answers (exec_wrCr_reaches h 0x10) (maskMfe_eq_zero 0x10)
  obtain ⟨-, -, clearMfe⟩ := guardedWrite_answers (exec_wrCr_reaches h 0) (maskMfe_eq_zero 0)
  refine ⟨fun h0 h16 => reserved (not_or.2 ⟨h0, h16⟩), busy, fun hb hl => ⟨?_, fun he => ?_, fun he => ?_⟩⟩
  · exact (setMfe (.inr rfl) hb hl).trans (if_neg fun hclear => absurd hclear.1 (by decide))
  · exact (clearMfe (.inl rfl) hb hl).trans (if_pos ⟨rfl, he⟩)
  · exact (clearMfe (.inl rfl) hb hl).trans (if_neg fun hne => hne.2 he)

/-! ## The command strobe: its checks in order -/

theorem writeCmd_disabled {k : Nat} {w : Word} {s : State} (hw : w.toNat < 16) (hm : (s.bus k).mfe = false) :
    writeCmd k w s = .fault .masterDisabled := by
  unfold writeCmd
  rw [if_neg (by simpa using (mask4_eq_zero w).2 hw), if_pos hm]

theorem writeCmd_occupied {k : Nat} {w : Word} {s : State} (hw : w.toNat < 16) (hm : (s.bus k).mfe = true)
    (ho : (s.bus k).occupied = true) : writeCmd k w s = .fault .commandWhileBusy := by
  unfold writeCmd
  rw [if_neg (by simpa using (mask4_eq_zero w).2 hw), if_neg (by simp [hm]), if_pos ho]

/-- Settles O16: one lemma about the strobe per check, and past the checks the table's verdict. -/
theorem commandStrobe : Obligations.CommandStrobe := by
  intro s k w hr
  rw [exec_wrCmd_reaches hr w]
  refine ⟨fun hw => writeCmd_reserved hw k s, writeCmd_disabled,
    fun hw hm ho => writeCmd_occupied hw hm (occupied_eq_true.2 ho), fun hw hm hb hl => ?_⟩
  rw [writeCmd_admitted hw hm (occupied_eq_false.2 ⟨hb, hl⟩)]
  cases engDecode (s.bus k).eng (s.bus k).saRs (w.extractLsb' 0 4) with
  | illegal => rfl
  | nop => rfl
  | action a => rfl

end Sys2Proof.Machine

/-! # The command table and the sixteen command values (R111, R120 to R135) -/

/-! ## The table by `START` and `RUN` -/

namespace Sys2Proof.Machine

section TableByBits

variable {v : BitVec 4} {ack stop run : Bool}

theorem engDecode_startRun (hack : v.getLsbD 3 = ack) (hstop : v.getLsbD 2 = stop) (hstart : v.getLsbD 1 = true)
    (hrun : v.getLsbD 0 = true) (eng : Eng) (rs : Bool) : engDecode eng rs v = startVerdict eng rs ack stop := by
  unfold engDecode
  rw [hstart, hrun, hack, hstop]

theorem engDecode_startOnly (hstart : v.getLsbD 1 = true) (hrun : v.getLsbD 0 = false) (eng : Eng) (rs : Bool) :
    engDecode eng rs v = .nop := by
  unfold engDecode
  rw [hstart, hrun]

theorem engDecode_continue (hack : v.getLsbD 3 = ack) (hstop : v.getLsbD 2 = stop) (hstart : v.getLsbD 1 = false)
    (hrun : v.getLsbD 0 = run) (eng : Eng) (rs : Bool) : engDecode eng rs v = continueVerdict eng ack stop run := by
  unfold engDecode
  rw [hstart, hrun, hack, hstop]

end TableByBits

theorem continueVerdict_neither (eng : Eng) (ack : Bool) : continueVerdict eng ack false false = .nop := by
  cases eng <;> rfl

theorem continueVerdict_stopOnly {eng : Eng} (h : eng ≠ .idle) (ack : Bool) :
    continueVerdict eng ack true false = .action ⟨.no, false, .no, true, .idle⟩ := by
  cases eng with
  | idle => exact absurd rfl h
  | mt => rfl
  | mr => rfl

/-- Settles O17: `START` and `RUN` choose the half of the table, where each row is one equation; the `rs` of an action
without START is false. -/
theorem commandTable : Obligations.CommandTable := by
  intro eng rs ack stop start run v framing hack hstop hstart hrun hframing
  subst hframing
  have both (hs : start = true) (hr : run = true) : engDecode eng rs v = startVerdict eng rs ack stop :=
    engDecode_startRun hack hstop (hstart.trans hs) (hrun.trans hr) eng rs
  have go (hs : start = false) : engDecode eng rs v = continueVerdict eng ack stop run :=
    engDecode_continue hack hstop (hstart.trans hs) hrun eng rs
  simp only [Bool.not_eq_true]
  refine ⟨?_, ?_, ?_, ?_, ?_, ?_, ?_, ?_, ?_, ?_, ?_, ?_, ?_, ?_, ?_, ?_, ?_, ?_⟩
  -- START and RUN
  · rintro ⟨hs, hr, rfl, rfl⟩; exact both hs hr
  · rintro ⟨hs, hr, rfl, rfl⟩; exact both hs hr
  · rintro ⟨hs, hr, rfl, rfl, rfl⟩; exact both hs hr
  · rintro ⟨hs, hr, rfl, rfl, rfl⟩; exact both hs hr
  · rintro ⟨hs, hr, rfl, rfl, rfl⟩; exact both hs hr
  · rintro ⟨hs, hr, rfl, rfl, rfl⟩; exact both hs hr
  -- START without RUN, and IDLE without START
  · rintro ⟨hs, hr⟩; exact engDecode_startOnly (hstart.trans hs) (hrun.trans hr) eng rs
  · rintro ⟨rfl, hs⟩; exact go hs
  -- MT without START
  · rintro ⟨rfl, hs, rfl, rfl⟩; exact ⟨false, go hs⟩
  · rintro ⟨rfl, hs, rfl, rfl⟩; exact ⟨false, go hs⟩
  · rintro ⟨rfl, hs, rfl, rfl⟩; exact ⟨false, go hs⟩
  · rintro ⟨rfl, hs, rfl, rfl⟩; exact go hs
  -- MR without START
  · rintro ⟨rfl, hs, rfl, rfl, rfl⟩; exact ⟨false, go hs⟩
  · rintro ⟨rfl, hs, rfl, rfl, rfl⟩; exact ⟨false, go hs⟩
  · rintro ⟨rfl, hs, rfl, rfl, rfl⟩; exact ⟨false, go hs⟩
  · rintro ⟨rfl, hs, rfl, rfl, rfl⟩; exact go hs
  · rintro ⟨rfl, hs, rfl, rfl⟩; exact ⟨false, go hs⟩
  · rintro ⟨rfl, hs, rfl, rfl⟩; exact go hs

/-! ## A command instruction answers the table's verdict on its value -/

/-- The host's command to bus `k` passes every check before the table (R110). -/
structure State.AdmitsCommand (s : State) (k : Nat) : Prop where
  reaches : s.HostReaches k
  enabled : (s.bus k).mfe = true
  free : (s.bus k).occupied = false

theorem exec_commandOf {n : Nat} {i : Instr} (hi : commandOf n = some i) (s : State) :
    n < 16 ∧ exec i s = exec (.wrCmd (BitVec.ofNat 32 n)) s := by
  unfold commandOf at hi
  split at hi <;> cases hi <;> exact ⟨by decide, rfl⟩

section CommandVerdicts

variable {n k : Nat} {i : Instr} {s : State} {eng : Eng} {rs : Bool}

/-- The strobe of the value `n`, where the engine is in state `eng` and `SA.RS` is `rs`. -/
theorem exec_command (hi : commandOf n = some i) (h : s.AdmitsCommand k) (heng : (s.bus k).eng = eng)
    (hrs : (s.bus k).saRs = rs) :
    exec i s = match engDecode eng rs ((BitVec.ofNat 32 n).extractLsb' 0 4) with
      | .illegal  => .fault .illegalCommand
      | .nop      => .next s
      | .action a => .next (s.setBus k ((s.bus k).accept a)) := by
  obtain ⟨hn, hx⟩ := exec_commandOf hi s
  have hw : (BitVec.ofNat 32 n).toNat < 16 := by rw [BitVec.toNat_ofNat]; omega
  subst heng hrs
  exact hx.trans ((exec_wrCmd_reaches h.reaches _).trans (writeCmd_admitted hw h.enabled h.free))

theorem exec_command_nop (hi : commandOf n = some i) (h : s.AdmitsCommand k) (heng : (s.bus k).eng = eng)
    (hd : engDecode eng (s.bus k).saRs ((BitVec.ofNat 32 n).extractLsb' 0 4) = .nop) : exec i s = .next s := by
  rw [exec_command hi h heng rfl, hd]

theorem exec_command_action {a : Action} (hi : commandOf n = some i) (h : s.AdmitsCommand k)
    (heng : (s.bus k).eng = eng) (hrs : (s.bus k).saRs = rs)
    (hd : engDecode eng rs ((BitVec.ofNat 32 n).extractLsb' 0 4) = .action a) :
    exec i s = .next (s.setBus k ((s.bus k).accept a)) := by
  rw [exec_command hi h heng hrs, hd]

theorem exec_command_illegal (hi : commandOf n = some i) (h : s.AdmitsCommand k) (heng : (s.bus k).eng = eng)
    (hrs : (s.bus k).saRs = rs) (hd : engDecode eng rs ((BitVec.ofNat 32 n).extractLsb' 0 4) = .illegal) :
    exec i s = .fault .illegalCommand := by
  rw [exec_command hi h heng hrs, hd]

end CommandVerdicts

/-- Settles O20: four of the values have START without RUN, the other two none of START, RUN and STOP. -/
theorem nopCommandsChangeNothing : Obligations.NopCommandsChangeNothing := by
  intro s k hr hm hb hl
  have h : s.AdmitsCommand k := ⟨hr, hm, occupied_eq_false.2 ⟨hb, hl⟩⟩
  refine ⟨?none, ?start, ?startStop, ?ack, ?ackStart, ?ackStartStop⟩
  case none => exact exec_command_nop (n := 0x0) rfl h rfl (continueVerdict_neither _ _)
  case start => exact exec_command_nop (n := 0x2) rfl h rfl (engDecode_startOnly rfl rfl _ _)
  case startStop => exact exec_command_nop (n := 0x6) rfl h rfl (engDecode_startOnly rfl rfl _ _)
  case ack => exact exec_command_nop (n := 0x8) rfl h rfl (continueVerdict_neither _ _)
  case ackStart => exact exec_command_nop (n := 0xA) rfl h rfl (engDecode_startOnly rfl rfl _ _)
  case ackStartStop => exact exec_command_nop (n := 0xE) rfl h rfl (engDecode_startOnly rfl rfl _ _)

/-- Settles O21: in each engine state the verdict on each value is an entry of the table; STOP without RUN is one entry for
both owning states. -/
theorem continueCommands : Obligations.ContinueCommands := by
  intro s k hr hm hb hl
  have h : s.AdmitsCommand k := ⟨hr, hm, occupied_eq_false.2 ⟨hb, hl⟩⟩
  refine ⟨fun he => ⟨?_, ?_, ?_, ?_, ?_⟩, fun he => ⟨⟨false, ?_⟩, ⟨false, ?_⟩, false, ?_⟩,
    fun he => ⟨⟨false, ?_⟩, ⟨false, ?_⟩, false, ?_⟩, fun he => ⟨⟨false, ?_⟩, false, ?_⟩⟩
  -- IDLE
  · exact exec_command_nop (n := 0x1) rfl h he rfl
  · exact exec_command_nop (n := 0x4) rfl h he rfl
  · exact exec_command_nop (n := 0x5) rfl h he rfl
  · exact exec_command_nop (n := 0x9) rfl h he rfl
  · exact exec_command_nop (n := 0xC) rfl h he rfl
  -- MT
  · exact exec_command_action (n := 0x1) rfl h he rfl rfl
  · exact exec_command_action (n := 0x5) rfl h he rfl rfl
  · exact exec_command_action (n := 0x9) rfl h he rfl rfl
  -- MR
  · exact exec_command_action (n := 0x1) rfl h he rfl rfl
  · exact exec_command_action (n := 0x5) rfl h he rfl rfl
  · exact exec_command_action (n := 0x9) rfl h he rfl rfl
  -- STOP without RUN
  · exact exec_command_action (n := 0x4) rfl h rfl rfl (continueVerdict_stopOnly he _)
  · exact exec_command_action (n := 0xC) rfl h rfl rfl (continueVerdict_stopOnly he _)

/-- Settles O22: with START and RUN the verdict depends on `SA.RS`, and on the engine's state only through the framing. -/
theorem startCommands : Obligations.StartCommands := by
  intro s k hr hm hb hl framing hframing
  subst hframing
  have h : s.AdmitsCommand k := ⟨hr, hm, occupied_eq_false.2 ⟨hb, hl⟩⟩
  refine ⟨fun hrs => ⟨?_, ?_, ?_⟩, fun hrs => ⟨?_, ?_, ?_⟩⟩
  -- transmit
  · exact exec_command_action (n := 0x3) rfl h rfl hrs rfl
  · exact exec_command_action (n := 0x7) rfl h rfl hrs rfl
  · exact exec_command_action (n := 0xB) rfl h rfl hrs rfl
  -- receive
  · exact exec_command_action (n := 0x3) rfl h rfl hrs rfl
  · exact exec_command_action (n := 0x7) rfl h rfl hrs rfl
  · exact exec_command_action (n := 0xB) rfl h rfl hrs rfl

/-- Settles O23: without START the direction is the engine's state, with START it is `SA.RS`. -/
theorem ackStopByteCommands : Obligations.AckStopByteCommands := by
  intro s k hr hm hb hl
  have h : s.AdmitsCommand k := ⟨hr, hm, occupied_eq_false.2 ⟨hb, hl⟩⟩
  refine ⟨fun he => ?_, fun he => ⟨false, ?_⟩, fun he => ?_, fun hrs => ?_, fun hrs => ?_⟩
  · exact exec_command_nop (n := 0xD) rfl h he rfl
  · exact exec_command_action (n := 0xD) rfl h he rfl rfl
  · exact exec_command_illegal (n := 0xD) rfl h he rfl rfl
  · exact exec_command_action (n := 0xF) rfl h rfl hrs rfl
  · exact exec_command_illegal (n := 0xF) rfl h rfl hrs rfl

end Sys2Proof.Machine

/-! # The engine's own steps: acceptance, visibility and completion (R112, R113, R116 to R118) -/

namespace Sys2Proof.Machine

/-! ## Acceptance and visibility -/

theorem accept_armed {b : Bus} (h : b.tocCnt ≠ 0) (a : Action) :
    b.accept a = { b.clearFlags with act := some a, lag := true, toArmed := true,
                                     toCnt := b.tocCnt.toNat * Config.toScale } := by
  unfold Bus.accept
  rw [decide_eq_true h, if_pos h]

theorem accept_unarmed {b : Bus} (h : b.tocCnt = 0) (a : Action) :
    b.accept a = { b.clearFlags with act := some a, lag := true, toArmed := false } := by
  unfold Bus.accept
  rw [decide_eq_false (not_not_intro h), if_neg (not_not_intro h)]
  rfl

theorem step_visible {s : State} {k : Nat} {rest : List Move} (hs : s.sched = .visible k :: rest)
    (hl : (s.bus k).lag = true) : step s = .next ({ s with sched := rest }.setBus k (s.bus k).becomeVisible) :=
  (step_of_cons hs).trans (if_pos hl)

/-- Settles O19: the budget decides whether acceptance arms the detector. -/
theorem acceptanceThenVisibility : Obligations.AcceptanceThenVisibility :=
  ⟨fun _ a => ⟨fun h => accept_armed h a, fun h => accept_unarmed h a⟩, fun _ _ _ hs hl => step_visible hs hl⟩

/-! ## Completion -/

/-- The completion step with an outcome the action admits; only arbitration loss draws a free value. -/
theorem step_complete {s : State} {k : Nat} {o : EnvOutcome} {rest : List Move} {a : Action}
    (hs : s.sched = .complete k o :: rest) (hb : (s.bus k).busy = true) (hl : (s.bus k).lag = false)
    (ha : (s.bus k).act = some a) (hadm : a.admits o = true) (ho : o ≠ .arbLost) :
    step s = .next ({ s with sched := rest }.setBus k ((s.bus k).completed a o s.anyWord s.anyByte)) := by
  have hcan : (s.bus k).canComplete o = true := canComplete_iff.2 ⟨hb, hl, a, ha, hadm⟩
  have hcomplete : State.complete { s with sched := rest } k o =
      { s with sched := rest }.setBus k ((s.bus k).completed a o s.anyWord s.anyByte) := by
    unfold State.complete
    rw [show (State.bus { s with sched := rest } k).act = some a from ha]
    exact if_neg ho
  rw [step_of_cons hs, ← hcomplete]
  exact if_pos hcan

theorem receives_of_rx {a : Action} (h : a.data = .rxAck ∨ a.data = .rxNack) : a.receives = true := by
  simpa [Action.receives] using h

theorem not_receives_of_tx_or_no {a : Action} (h : a.data = .tx ∨ a.data = .no) : a.receives = false := by
  rcases h with h | h <;> simp [Action.receives, h]

/-- Settles O25: `OK` hands the byte to a receive phase and ends the action; no flag is touched, and the flags of a sound
bus are 0 while it acts. -/
theorem completionOk : Obligations.CompletionOk := by
  intro s k d rest a hs hb hl ha hsound
  refine ⟨_, step_complete hs hb hl ha rfl nofun, fun hrx => ?_, fun htx => ?_, ?_⟩
  · simp only [Bus.completed, receive_of_receives _ _ _ (receives_of_rx hrx)]
    rfl
  · simp only [Bus.completed, receive_of_not_receives _ _ _ (not_receives_of_tx_or_no htx)]
    rfl
  · simpa [Bus.completed] using hsound.clear_while_acting (by rw [ha]; rfl)

/-- Settles O26: the action admits an address NACK by its START and a data NACK by its transmit phase; neither outcome
touches the receive buffer. -/
theorem completionNack : Obligations.CompletionNack := by
  intro s k held rest a hb hl ha
  exact ⟨fun hs hstart => step_complete hs hb hl ha (decide_eq_true hstart) nofun,
    fun hs htx => step_complete hs hb hl ha (decide_eq_true htx) nofun⟩

end Sys2Proof.Machine

/-! # The error classifier (R149, R152) -/

namespace Sys2Proof.Machine

/-! ## The fixed priority on the five input bits, one verdict at a time -/

section Priority

variable {clkto arblst error adrack datack : Bool}

theorem classifyBits_timeout (hc : clkto = true) : classifyBits clkto arblst error adrack datack = .timeout := by
  simp [classifyBits, hc]

theorem classifyBits_arbitrationLoss (hc : clkto = false) (hl : arblst = true) :
    classifyBits clkto arblst error adrack datack = .arbitrationLoss := by
  simp [classifyBits, hc, hl]

theorem classifyBits_nackAddress (hc : clkto = false) (hl : arblst = false) (he : error = true) (ha : adrack = true) :
    classifyBits clkto arblst error adrack datack = .nackAddress := by
  simp [classifyBits, hc, hl, he, ha]

theorem classifyBits_nackData (hc : clkto = false) (hl : arblst = false) (he : error = true) (ha : adrack = false)
    (hd : datack = true) : classifyBits clkto arblst error adrack datack = .nackData := by
  simp [classifyBits, hc, hl, he, ha, hd]

/-- No outcome: without `ERROR` the NACK flags do not count, and `ERROR` alone names no fifth outcome (R151). -/
theorem classifyBits_ok (hc : clkto = false) (hl : arblst = false)
    (hn : error = false ∨ (adrack = false ∧ datack = false)) :
    classifyBits clkto arblst error adrack datack = .ok := by
  rcases hn with he | ⟨ha, hd⟩
  · simp [classifyBits, hc, hl, he]
  · simp [classifyBits, hc, hl, ha, hd]

end Priority

/-- The three gates of the code, split in the order of the priority. -/
theorem classifyBits_gates (clkto arblst error adrack datack : Bool) :
    (classifyBits clkto arblst error adrack datack).bits.getLsbD 0 =
      (clkto || (!clkto && !arblst && error && adrack)) ∧
    (classifyBits clkto arblst error adrack datack).bits.getLsbD 1 =
      ((!clkto && arblst) || (!clkto && !arblst && error && adrack)) ∧
    (classifyBits clkto arblst error adrack datack).bits.getLsbD 2 =
      (!clkto && !arblst && error && !adrack && datack) := by
  cases clkto with
  | true => simp [classifyBits_timeout, Code.bits]
  | false =>
    cases arblst with
    | true => simp [classifyBits_arbitrationLoss, Code.bits]
    | false =>
      cases error with
      | false => simp [classifyBits_ok, Code.bits]
      | true =>
        cases adrack with
        | true => simp [classifyBits_nackAddress, Code.bits]
        | false =>
          cases datack with
          | true => simp [classifyBits_nackData, Code.bits]
          | false => simp [classifyBits_ok, Code.bits]

/-- Settles O35: the code is `classifyBits` of the five bits of the snapshot, so each clause is one verdict of the
priority, and the last three are its gates. -/
theorem classifierPriority : Obligations.ClassifierPriority := fun w _ =>
  ⟨classifyWord w, rfl, classifyBits_timeout, classifyBits_arbitrationLoss, classifyBits_nackAddress,
    classifyBits_nackData, classifyBits_ok, classifyBits_gates _ _ _ _ _⟩

/-! ## What the classifier reads after the engine's steps -/

/-- The receive buffer is no flag. -/
@[simp] theorem receive_outcome (b : Bus) (a : Action) (d : Byte) (v : Bool) :
    (b.receive a d v).outcome = b.outcome := by
  obtain ⟨_, _, h⟩ := receive_frame b a d v
  rw [h]; rfl

/-- `CLKTO` has the highest priority, so the free values of R145 do not count. -/
theorem expired_outcome (b : Bus) (w : Word) (e : Byte) (eng : Eng) : (b.expired w e eng).outcome = .timeout := by
  obtain ⟨-, -, -, -, -, hclkto, -⟩ := expired_frame b w e eng
  exact classifyBits_timeout hclkto

/-- Settles O36: the flags of a sound instance are 0 while it acts, so after the step the priority sees the flags the
outcome sets and, for arbitration loss and expiry, free values of lower priority only. -/
theorem engineOutcomesClassified : Obligations.EngineOutcomesClassified := by
  intro b a w d e held eng hsound hact
  obtain ⟨herror, hadrack, -, harblst, hclkto⟩ := hsound.clear_while_acting (by rw [hact]; rfl)
  refine ⟨?ok, ?addrNack, ?dataNack, ?arbLost, ?expiry⟩
  case ok => exact (receive_outcome b a d true).trans (classifyBits_ok hclkto harblst (.inl herror))
  case addrNack => exact classifyBits_nackAddress hclkto harblst rfl rfl
  case dataNack => exact classifyBits_nackData hclkto harblst rfl hadrack rfl
  case arbLost => exact (receive_outcome (b.flagArbLost w) a e false).trans (classifyBits_arbitrationLoss hclkto rfl)
  case expiry => exact expired_outcome b w e eng

end Sys2Proof.Machine

/-! # The transaction engine: the command of a byte, the divisor, CONFIGURE (R159, R173 to R175) -/

namespace Sys2Proof.Machine

/-! ## CONFIGURE: three register writes on a bus without an action -/

theorem writeCr_enable {s : State} {k : Nat} (ho : (s.bus k).occupied = false) :
    writeCr k 0x10 s = .next (s.setBus k { s.bus k with mfe := true }) := by
  unfold writeCr
  rw [guardedWrite_free ((maskMfe_eq_zero _).2 (.inr rfl)) ho]
  exact if_neg fun hclear => absurd hclear.1 (by decide)

theorem writeTpr_tprWord {s : State} {k : Nat} {t : Int} (h0 : 0 ≤ t) (h1 : t ≤ 127) (ho : (s.bus k).occupied = false) :
    writeTpr k (tprWord t.toNat) s = .next (s.setBus k { s.bus k with tpr := BitVec.ofInt 7 t }) := by
  obtain ⟨hdefined, hfield⟩ := tprWord_field t h0 h1
  unfold writeTpr
  rw [guardedWrite_free hdefined ho, hfield]

theorem tocWord_eq_dataWord : tocWord = dataWord Config.timeoutInit := rfl

theorem writeToc_tocWord {s : State} {k : Nat} (ho : (s.bus k).occupied = false) :
    writeToc k tocWord s = .next (s.setBus k { s.bus k with tocCnt := Config.timeoutInit }) := by
  unfold writeToc
  rw [tocWord_eq_dataWord, guardedWrite_free (dataWord_defined _) ho, dataWord_field]

/-- The three writes leave the bus free, so the first one's check is the only one that can fail. -/
theorem configureWrites_free {s : State} {k : Nat} {t : Int} (h0 : 0 ≤ t) (h1 : t ≤ 127) (ho : (s.bus k).occupied = false) :
    (andThen (writeCr k 0x10 s) fun u =>
      andThen (writeTpr k (tprWord t.toNat) u) fun v => andThen (writeToc k tocWord v) fun w => .next w.bindHandle) =
    .next (s.setBus k { s.bus k with
      mfe := true, tpr := BitVec.ofInt 7 t, tocCnt := Config.timeoutInit }).bindHandle := by
  rw [writeCr_enable ho, andThen_of_next,
    writeTpr_tprWord h0 h1 (by rw [bus_setBus_self]; exact ho), andThen_of_next,
    writeToc_tocWord (by rw [bus_setBus_self, bus_setBus_self]; exact ho), andThen_of_next]
  simp only [bus_setBus_self, setBus_setBus]

theorem divisorInRange_iff {t : Int} : divisorInRange t = true ↔ 0 ≤ t ∧ t ≤ 127 := by
  simp [divisorInRange]

section Configure

variable {s : State} {inst sysclk freq : Nat} (hown : s.owned = false) (hseq : s.seq.st = .idle)
include hown hseq

theorem execConfigure_badTarget (h : Config.nInstances ≤ inst ∨ freq = 0) :
    execConfigure inst sysclk freq s = .fault .configOutOfRange := by
  unfold execConfigure
  rw [if_pos ⟨hown, hseq⟩, if_pos h]

theorem execConfigure_badDivisor (hi : inst < Config.nInstances) (hf : freq ≠ 0)
    (ht : divisorInRange (tprOf sysclk freq) = false) :
    execConfigure inst sysclk freq s = .fault .configOutOfRange := by
  unfold execConfigure
  rw [if_pos ⟨hown, hseq⟩, if_neg (not_or.2 ⟨Nat.not_le.2 hi, hf⟩), if_pos ht]

variable (hi : inst < Config.nInstances) (hf : freq ≠ 0) (ht : divisorInRange (tprOf sysclk freq) = true)
include hi hf ht

/-- Past its checks, CONFIGURE is its register writes in their order. -/
theorem execConfigure_writes :
    execConfigure inst sysclk freq s =
      andThen (writeCr inst 0x10 { s with rspValid := false, inst := inst }) fun t =>
        andThen (writeTpr inst (tprWord (tprOf sysclk freq).toNat) t) fun u =>
          andThen (writeToc inst tocWord u) fun v => .next v.bindHandle := by
  unfold execConfigure
  rw [if_pos ⟨hown, hseq⟩, if_neg (not_or.2 ⟨Nat.not_le.2 hi, hf⟩), if_neg (by simp [ht])]

theorem execConfigure_occupied (ho : (s.bus inst).occupied = true) :
    execConfigure inst sysclk freq s = .fault .writeWhileBusy := by
  have hfirst : writeCr inst 0x10 { s with rspValid := false, inst := inst } = .fault .writeWhileBusy :=
    guardedWrite_occupied ((maskMfe_eq_zero _).2 (.inr rfl)) ho
  rw [execConfigure_writes hown hseq hi hf ht, hfirst]
  rfl

theorem execConfigure_free (ho : (s.bus inst).occupied = false) :
    execConfigure inst sysclk freq s = .next ({ s with rspValid := false, inst := inst }.setBus inst
      { s.bus inst with
        mfe := true, tpr := BitVec.ofInt 7 (tprOf sysclk freq), tocCnt := Config.timeoutInit }).bindHandle :=
  have hrange := divisorInRange_iff.1 ht
  (execConfigure_writes hown hseq hi hf ht).trans
    (configureWrites_free (s := { s with rspValid := false, inst := inst }) hrange.1 hrange.2 ho)

end Configure

/-- Settles O44: one lemma about CONFIGURE per answer; an occupied bus faults at the first write, a free one takes
all three. -/
theorem configureBindsInstance : Obligations.ConfigureBindsInstance := by
  intro s inst sysclk freq hown hseq
  refine ⟨execConfigure_badTarget hown hseq, fun hi hf hout => ?_, fun hi hf h0 h127 => ?_⟩
  · refine execConfigure_badDivisor hown hseq hi hf (Bool.eq_false_iff.2 fun hin => ?_)
    have := divisorInRange_iff.1 hin
    omega
  · have ht := divisorInRange_iff.2 ⟨h0, h127⟩
    exact ⟨fun hbusy => execConfigure_occupied hown hseq hi hf ht (occupied_eq_true.2 hbusy),
      fun hb hl => execConfigure_free hown hseq hi hf ht (occupied_eq_false.2 ⟨hb, hl⟩)⟩

/-! ## The divisor (R174, R175) -/

/-- Half a unit added to `S / 20F`, over the common denominator `40F`. -/
theorem quotient_add_half {sysclk freq : Nat} (hf : freq ≠ 0) :
    (sysclk : ℚ) / (20 * freq) + 1 / 2 = ((2 * sysclk + 20 * freq : ℕ) : ℚ) / ((40 * freq : ℕ) : ℚ) := by
  push_cast
  field_simp
  ring

theorem tprOf_eq_floor {sysclk freq : Nat} (hf : freq ≠ 0) :
    tprOf sysclk freq = ⌊(sysclk : ℚ) / (20 * freq) + 1 / 2⌋ - 1 := by
  rw [quotient_add_half hf, Rat.floor_natCast_div_natCast]
  rfl

/-- The divisor fits its field exactly when the rounded quotient lies in 1 to 128. -/
theorem divisorInRange_tprOf_iff (sysclk freq : Nat) :
    divisorInRange (tprOf sysclk freq) = true ↔
      1 ≤ (2 * sysclk + 20 * freq) / (40 * freq) ∧ (2 * sysclk + 20 * freq) / (40 * freq) < 129 := by
  rw [divisorInRange_iff]
  unfold tprOf
  omega

/-- Settles O45: both quotients are one floor division by `40F`, and its bounds 1 and 129 are bounds of the dividend. -/
theorem divisorRoundsHalfUp : Obligations.DivisorRoundsHalfUp := by
  intro sysclk freq hf
  have hden : 0 < 40 * freq := by omega
  refine ⟨tprOf_eq_floor hf, ?_⟩
  rw [divisorInRange_tprOf_iff, Nat.le_div_iff_mul_le hden, Nat.div_lt_iff_lt_mul hden]
  omega

/-! ## The command of a byte (R159) -/

/-- The policies agree where the last byte of the run is the globally final one or neither is. -/
theorem ackBit_agreed (p : Config.AckPolicy) (b : Bool) : ackBit p b b = !b := if_pos rfl

theorem cmdSel_read_agreed (p : Config.AckPolicy) (f b : Bool) : cmdSel p .read f b b = cmdWord (!b) b f true := by
  rw [cmdSel, ackBit_agreed]

theorem cmdAt_ack_excludes_stop (p : Config.AckPolicy) (ops : List Desc) (i j len : Nat) (d : Dir) (f : Bool) :
    ¬((cmdAt p ops i j len d f).getLsbD 3 = true ∧ (cmdAt p ops i j len d f).getLsbD 2 = true) := by
  obtain ⟨-, -, hstop, hack, -⟩ := cmdAt_bits p ops i j len d f
  rintro ⟨h3, h2⟩
  rw [hack, ackBit_of_lastGlobal (hstop.symm.trans h2), Bool.and_false] at h3
  cases h3

/-- Settles O40: a Write row does not depend on the policy, nor does a Read row whose two attributes agree; the remaining
Read rows name the policy. -/
theorem commandSelection : Obligations.CommandSelection :=
  ⟨fun p _ => ⟨rfl, rfl, rfl, rfl, cmdSel_read_agreed p false false, cmdSel_read_agreed p true false,
      cmdSel_read_agreed p false true, cmdSel_read_agreed p true true⟩,
    rfl, rfl, rfl, rfl,
    fun p ops i j len d f => ⟨lastOfRun_of_lastGlobal d, cmdAt_ack_excludes_stop p ops i j len d f⟩⟩

end Sys2Proof.Machine

/-! # Encoding: decoder and encoder undo each other (30_encoding.md) -/

namespace Sys2Proof

/-! ## Decoding what the encoder gives -/

theorem accessAt_aligned {offset : Nat} (h : offset % 4 = 0) (i : Instr) : accessAt offset (some i) = .ok i :=
  if_neg (not_not_intro h)

theorem decode_registerWrite {offset : Nat} {w : Word} {i : Instr} (hi : writeAt w offset = some i)
    (ho : offset < 0x1000) (ha : offset % 4 = 0) : decode ⟨.regWord, [0x1000 + offset, w.toNat]⟩ = .ok i := by
  rw [decode_wordWrite ho w.isLt, BitVec.ofNat_toNat, BitVec.setWidth_eq, hi, accessAt_aligned ha]

theorem decode_transactionWords {ops : List Desc} (h : opsAdmitted ops = true) (addr : BitVec 7) :
    decode ⟨.request, 2 :: addr.toNat :: descWords ops⟩ = .ok (.transaction addr ops) := by
  simp only [decode, decodeRequest, if_pos addr.isLt, descsOf_descWords, if_pos h, BitVec.ofNat_toNat,
    BitVec.setWidth_eq]

theorem decode_snapshot (w : Word) : decode ⟨.classifier, [w.toNat]⟩ = .ok (.classify w) := by
  simp only [decode, decodeSnapshot, if_pos w.isLt, BitVec.ofNat_toNat, BitVec.setWidth_eq]

/-- Settles O1: only the packets that carry an operand word need more than a lookup: the operand is below its bound, and
its word gives it back. -/
theorem decodeUndoesEncode : Obligations.DecodeUndoesEncode := by
  intro i hwf
  cases i
  case wrSa w => exact decode_registerWrite (offset := 0x000) rfl (by decide) rfl
  case wrDr w => exact decode_registerWrite (offset := 0x008) rfl (by decide) rfl
  case wrTpr w => exact decode_registerWrite (offset := 0x00C) rfl (by decide) rfl
  case wrCr w => exact decode_registerWrite (offset := 0x020) rfl (by decide) rfl
  case wrToc w => exact decode_registerWrite (offset := 0x024) rfl (by decide) rfl
  case wrCmd w => exact decode_registerWrite (offset := 0x004) rfl (by decide) rfl
  case transaction addr ops => exact decode_transactionWords hwf addr
  case opWrite len base => exact Machine.decode_descriptor (d := ⟨.write, len, base⟩) hwf
  case opRead len base => exact Machine.decode_descriptor (d := ⟨.read, len, base⟩) hwf
  case execute cmd wc => exact Machine.decode_cycle (of_decide_eq_true hwf) wc
  case classify w => exact decode_snapshot w
  -- the packet is a literal, or CONFIGURE's operands as they stand
  all_goals rfl

/-! ## Encoding what the decoder gives, port by port -/

/-- The packet is the one of `i`, and `i` is well formed. -/
def Instr.Encodes (i : Instr) (p : Packet) : Prop := encode i = p ∧ i.wellFormed = true

theorem commandOf_enc {n : Nat} {i : Instr} (h : commandOf n = some i) : i.Encodes ⟨.cmdWord, [n]⟩ := by
  unfold commandOf at h
  split at h <;> cases h <;> exact ⟨rfl, rfl⟩

theorem dirOfBit_some {b : Nat} {d : Dir} (h : dirOfBit b = some d) : d.bit = b := by
  unfold dirOfBit at h
  split at h <;> cases h <;> rfl

theorem waitCondOfCode_some {c : Nat} {wc : WaitCond} (h : waitCondOfCode c = some wc) : wc.code = c := by
  unfold waitCondOfCode at h
  split at h <;> cases h <;> rfl

section Ports

variable {ws : List Nat} {i : Instr}

theorem decodeAccess_enc (h : decodeAccess ws = .ok i) : i.Encodes ⟨.regWord, ws⟩ := by
  unfold decodeAccess at h
  split at h
  · split at h
    · exact readAt_enc (Machine.accessAt_ok h)
    · cases h
  · next acc data =>
    split at h
    · next hb =>
      obtain ⟨hlow, -, hdata⟩ := hb
      obtain ⟨henc, hwf⟩ := writeAt_enc (Machine.accessAt_ok h)
      rw [Nat.add_sub_cancel' hlow, BitVec.toNat_ofNat, Nat.mod_eq_of_lt hdata] at henc
      exact ⟨henc, hwf⟩
    · cases h
  · cases h

theorem decodeCommand_enc (h : decodeCommand ws = .ok i) : i.Encodes ⟨.cmdWord, ws⟩ := by
  unfold decodeCommand at h
  split at h
  · split at h
    · split at h
      · next hi => cases h; exact commandOf_enc hi
      · cases h
    · cases h
  · cases h

theorem decodeRequest_enc (h : decodeRequest ws = .ok i) : i.Encodes ⟨.request, ws⟩ := by
  unfold decodeRequest at h
  split at h
  · cases h
  · cases h; exact ⟨rfl, rfl⟩
  · next addr rest =>
    split at h
    · next haddr =>
      split at h
      · next ops hops =>
        split at h
        · next hadm =>
          cases h
          refine ⟨?_, hadm⟩
          simp only [encode, BitVec.toNat_ofNat, Nat.mod_eq_of_lt haddr, descsOf_some hops]
        · cases h
      · cases h
    · cases h
  · cases h; exact ⟨rfl, rfl⟩
  · cases h

theorem decodeDescriptor_enc (h : decodeDescriptor ws = .ok i) : i.Encodes ⟨.descriptor, ws⟩ := by
  unfold decodeDescriptor at h
  split at h
  · next b len base =>
    split at h
    · next hb =>
      split at h
      · next hfits => cases h; exact ⟨by rw [← dirOfBit_some hb]; rfl, hfits⟩
      · cases h
    · next hb =>
      split at h
      · next hfits => cases h; exact ⟨by rw [← dirOfBit_some hb]; rfl, hfits⟩
      · cases h
    · cases h
  · cases h

theorem decodeCycle_enc (h : decodeCycle ws = .ok i) : i.Encodes ⟨.executor, ws⟩ := by
  unfold decodeCycle at h
  split at h
  · next cmd c =>
    split at h
    · next hcmd =>
      split at h
      · next wc hwc =>
        split at h
        · next h16 =>
          cases h
          have hword : (BitVec.ofNat 32 cmd).toNat = cmd := by rw [BitVec.toNat_ofNat, Nat.mod_eq_of_lt hcmd]
          exact ⟨by simp only [encode, hword, waitCondOfCode_some hwc],
            by simpa only [Instr.wellFormed, hword, decide_eq_true_eq]⟩
        · cases h
      · cases h
    · cases h
  · cases h

theorem decodeSnapshot_enc (h : decodeSnapshot ws = .ok i) : i.Encodes ⟨.classifier, ws⟩ := by
  unfold decodeSnapshot at h
  split at h
  · split at h
    · next hw => cases h; exact ⟨by simp only [encode, BitVec.toNat_ofNat, Nat.mod_eq_of_lt hw], rfl⟩
    · cases h
  · cases h

theorem decodeRecovery_enc (h : decodeRecovery ws = .ok i) : i.Encodes ⟨.recovery, ws⟩ := by
  unfold decodeRecovery at h
  split at h <;> cases h
  exact ⟨rfl, rfl⟩

theorem decodeDetector_enc (h : decodeDetector ws = .ok i) : i.Encodes ⟨.detector, ws⟩ := by
  unfold decodeDetector at h
  split at h <;> cases h
  exact ⟨rfl, rfl⟩

theorem decodeRst_enc (h : decodeRst ws = .ok i) : i.Encodes ⟨.rst, ws⟩ := by
  unfold decodeRst at h
  split at h <;> cases h
  exact ⟨rfl, rfl⟩

end Ports

/-- Settles O2: each port's decoder accepts only words that the encoder gives back; the subword ports accept none. -/
theorem encodeUndoesDecode : Obligations.EncodeUndoesDecode := by
  rintro ⟨port, ws⟩ i h
  cases port with
  | regWord => exact decodeAccess_enc h
  | regHalf => cases h
  | regByte => cases h
  | cmdWord => exact decodeCommand_enc h
  | request => exact decodeRequest_enc h
  | descriptor => exact decodeDescriptor_enc h
  | executor => exact decodeCycle_enc h
  | recovery => exact decodeRecovery_enc h
  | classifier => exact decodeSnapshot_enc h
  | detector => exact decodeDetector_enc h
  | rst => exact decodeRst_enc h

/-- Settles O3: the words are literals, and the decoder computes on them. -/
theorem specWordsDecode : Obligations.SpecWordsDecode :=
  ⟨rfl, rfl, rfl, rfl, rfl, rfl, rfl, rfl, rfl, rfl, rfl, rfl, rfl, rfl⟩

end Sys2Proof

/-! # Every step keeps the invariants (R41, R53, R63, R168, R177) -/

namespace Sys2Proof.Machine

/-! ## What each agent's move can be -/

theorem hostStoreMove_next {a : Nat} {b : Byte} {s t : State} (h : hostStoreMove a b s = .next t) : t = s.memWrite a b := by
  unfold hostStoreMove at h
  split at h
  · cases h
  · split at h <;> cases h
    rfl

theorem completeMove_next {k : Nat} {o : EnvOutcome} {s t : State} (h : completeMove k o s = .next t) :
    t = s ∨ ((s.bus k).canComplete o = true ∧ t = s.complete k o) := by
  unfold completeMove at h
  split at h <;> cases h
  · next hc => exact .inr ⟨hc, rfl⟩
  · exact .inl rfl

theorem visibleMove_next {k : Nat} {s t : State} (h : visibleMove k s = .next t) :
    t = s ∨ ((s.bus k).lag = true ∧ t = s.setBus k (s.bus k).becomeVisible) := by
  unfold visibleMove at h
  split at h <;> cases h
  · next hl => exact .inr ⟨hl, rfl⟩
  · exact .inl rfl

/-! ## Soundness, move by move -/

section Soundness

variable {s t : State} (hs : s.Sound)
include hs

theorem portMove_sound {k : Nat} {p : Packet} (h : portMove k p s = .next t) : t.Sound := by
  have hsel : State.Sound { s with sel := k } := hs.of_eq rfl rfl
  rcases portMove_next h with rfl | ⟨i, -, hexec, hi⟩
  · exact hsel
  · exact hosted_sound hsel hi hexec

theorem completeMove_sound {k : Nat} {o : EnvOutcome} (h : completeMove k o s = .next t) : t.Sound := by
  rcases completeMove_next h with rfl | ⟨hc, rfl⟩
  · exact hs
  · exact hs.complete hc

theorem visibleMove_sound {k : Nat} (h : visibleMove k s = .next t) : t.Sound := by
  rcases visibleMove_next h with rfl | ⟨hl, rfl⟩
  · exact hs
  · exact hs.setBus k ((hs.bus_sound k).visible hl)

theorem expireMove_sound {k : Nat} (h : expireMove k s = .next t) : t.Sound := by
  rcases expireMove_next h with ⟨-, rfl⟩ | ⟨hc, rfl⟩
  · exact hs
  · exact State.Sound.expire (s := { s with sel := k }) (hs.of_eq rfl rfl) hc

theorem exMove_sound (h : exMove s = .next t) : t.Sound := by
  rcases exMove_next h with ⟨rfl, -⟩ | ⟨cmd, wc, -, hx⟩ | ⟨-, hx⟩
  · exact hs
  · exact hs.ofFrame (execExecute_frame hx)
  · exact hs.ofFrame (execNackStop_frame hx)

theorem seqMove_sound (h : seqMove s = .next t) : t.Sound := by
  have hissue {c : Bus} (hc : (s.bus s.inst).Writes c) (d : Desc) : ((s.setBus s.inst c).requestCycle d).Sound :=
    (hs.setBus s.inst ((hs.bus_sound s.inst).writes hc)).of_eq rfl rfl
  rcases seqMove_next h with rfl | ⟨d, -, -, hx⟩ | ⟨d, -, -, hx⟩ | ⟨-, r, -, rfl⟩
  · exact hs
  · obtain ⟨-, c, hc, rfl⟩ := execOpWrite_next hx
    exact hissue hc _
  · obtain ⟨-, rfl | ⟨c, hc, rfl⟩⟩ := execOpRead_next hx
    · exact hs.of_eq rfl rfl
    · exact hissue hc _
  · exact seqComplete_sound hs r

end Soundness

/-- Settles O50, agent by agent: each move is a register write, an accepted command, or a step of an action, and each of
these keeps one bus sound and the others untouched. -/
theorem stepKeepsSound : Obligations.StepKeepsSound := by
  intro s t hsound hstep
  have hs : s.popped.Sound := hsound.of_eq rfl rfl
  rcases step_next hstep with ⟨k, p, rest, -, h⟩ | ⟨a, b, rest, -, h⟩ | ⟨k, o, rest, -, h⟩ |
    ⟨k, h⟩ | ⟨k, -, h⟩ | h | h
  · exact portMove_sound hs h
  · exact hostStoreMove_next h ▸ hs.memWrite a b
  · exact completeMove_sound hs h
  · exact visibleMove_sound hs h
  · exact expireMove_sound hs h
  · exact exMove_sound hs h
  · exact seqMove_sound hs h

/-! ## Order, move by move -/

section Order

variable {s t : State} (hs : s.Sound) (ho : s.Ordered)
include hs ho

theorem portMove_ordered {k : Nat} {p : Packet} (h : portMove k p s = .next t) : t.Ordered := by
  have hsel : State.Ordered { s with sel := k } := ho.of_eq rfl rfl rfl rfl rfl
  rcases portMove_next h with rfl | ⟨i, hdec, hexec, hi⟩
  · exact hsel
  · exact hosted_ordered (s := { s with sel := k }) (hs.of_eq rfl rfl) hsel hdec hi hexec

theorem completeMove_ordered {k : Nat} {o : EnvOutcome} (h : completeMove k o s = .next t) : t.Ordered := by
  rcases completeMove_next h with rfl | ⟨hc, rfl⟩
  · exact ho
  · exact complete_ordered hs ho hc

theorem visibleMove_ordered {k : Nat} (h : visibleMove k s = .next t) : t.Ordered := by
  rcases visibleMove_next h with rfl | ⟨hl, rfl⟩
  · exact ho
  · exact visible_ordered hs ho hl

theorem expireMove_ordered {k : Nat} (h : expireMove k s = .next t) : t.Ordered := by
  rcases expireMove_next h with ⟨-, rfl⟩ | ⟨hc, rfl⟩
  · exact ho
  · exact expire_ordered (s := { s with sel := k }) (hs.of_eq rfl rfl) (ho.of_eq rfl rfl rfl rfl rfl) hc

end Order

/-- A meaning that has a next state in order answers nothing else. -/
theorem ordered_of_answer {o : Out} {t : State} (h : ∃ u, o = .next u ∧ u.Ordered) (ht : o = .next t) : t.Ordered := by
  obtain ⟨u, hu, hord⟩ := h
  cases hu.symm.trans ht
  exact hord

/-- Settles O51, agent by agent: SEQ and EX hand the byte's cycle on as R168 orders it, the engine's own steps keep where
the action leads, and the host reaches neither the bound bus nor a working sequencer. -/
theorem stepKeepsOrdered : Obligations.StepKeepsOrdered := by
  intro s t hsound hordered hstep
  have hs : s.popped.Sound := hsound.of_eq rfl rfl
  have ho : s.popped.Ordered := hordered.of_eq rfl rfl rfl rfl rfl
  rcases step_next hstep with ⟨k, p, rest, -, h⟩ | ⟨a, b, rest, -, h⟩ | ⟨k, o, rest, -, h⟩ |
    ⟨k, h⟩ | ⟨k, -, h⟩ | h | h
  · exact portMove_ordered hs ho h
  · exact hostStoreMove_next h ▸ ho.of_eq rfl rfl rfl rfl rfl
  · exact completeMove_ordered hs ho h
  · exact visibleMove_ordered hs ho h
  · exact expireMove_ordered hs ho h
  · exact ordered_of_answer (exMove_ordered hs ho) h
  · exact ordered_of_answer (seqMove_ordered hs ho) h

/-! ## The controller's own steps always have a next state (R168, R183) -/

theorem visibleMove_total (k : Nat) (s : State) : ∃ t, visibleMove k s = .next t := by
  unfold visibleMove
  split <;> exact ⟨_, rfl⟩

theorem completeMove_total (k : Nat) (o : EnvOutcome) (s : State) : ∃ t, completeMove k o s = .next t := by
  unfold completeMove
  split <;> exact ⟨_, rfl⟩

/-- The expiry step, where it is enabled (R145). -/
theorem expireMove_enabled {k : Nat} {s : State} (h : (s.bus k).canExpire = true) :
    expireMove k s = .next ({ s with sel := k }.expire k) := by
  unfold expireMove
  rw [if_pos h, runPacket_ok decode_detector]
  exact if_pos h

theorem expireMove_total (k : Nat) (s : State) : ∃ t, expireMove k s = .next t := by
  by_cases h : (s.bus k).canExpire = true
  · exact ⟨_, expireMove_enabled h⟩
  · exact ⟨s, if_neg h⟩

theorem exMove_fetched {s : State} {p : Packet} (h : s.fetchEx = some p) : exMove s = runPacket p s := by
  unfold exMove; rw [h]

theorem exMove_total {s : State} (hs : s.Sound) (ho : s.Ordered) : ∃ t, exMove s = .next t :=
  (exMove_ordered hs ho).imp fun _ h => h.1

theorem seqMove_total {s : State} (hs : s.Sound) (ho : s.Ordered) : ∃ t, seqMove s = .next t :=
  (seqMove_ordered hs ho).imp fun _ h => h.1

theorem fairStep_total {s : State} (hs : s.Sound) (ho : s.Ordered) : ∃ t, fairStep s = .next t := by
  unfold fairStep
  split
  · next k _ => exact visibleMove_total k s
  split
  · next k _ => exact expireMove_total k s
  split
  · next p hp => exact exMove_fetched hp ▸ exMove_total hs ho
  · exact seqMove_total hs ho

/-- Settles O53: the engine, the detector and the environment are held in place where they cannot step, and in an ordered
state every cycle SEQ hands to EX is one that EX accepts. -/
theorem controllerNeverFaults : Obligations.ControllerNeverFaults := by
  intro s hs ho hmove
  cases hsched : s.sched with
  | nil => exact step_of_nil hsched ▸ fairStep_total hs ho
  | cons m rest =>
    have hs' : State.Sound { s with sched := rest } := hs.of_eq rfl rfl
    have ho' : State.Ordered { s with sched := rest } := ho.of_eq rfl rfl rfl rfl rfl
    have hm := hmove m rest hsched
    rw [step_of_cons hsched]
    cases m with
    | port k p => cases hm
    | access a z d => cases hm
    | hostStore a b => cases hm
    | visible k => exact visibleMove_total k _
    | complete k o => exact completeMove_total k o _
    | expire k => exact expireMove_total k _
    | ex => exact exMove_total hs' ho'
    | seq => exact seqMove_total hs' ho'

/-- Settles O54: while EX has not started, an ordered state has the engine in the byte's direction or `SA.RS` set to it
under a pending START, which is all that the command table asks. -/
theorem sequencerCommandsAreActions : Obligations.SequencerCommandsAreActions := by
  intro s d cmd wc _ ho hwait hbyte hidle hreq
  have hfollows := ho.wait_follows d hwait hbyte
  unfold State.exFollows at hfollows
  rw [hidle] at hfollows
  rcases hfollows with ⟨-, ⟨hcycle, -, hcontinue, hstart⟩ | ⟨hnone, -⟩⟩
  · cases hcycle.symm.trans hreq
    obtain ⟨a, hdecode, -, hstop, hpend, htx, hrx⟩ := command_action Config.ackBeforeRestart s.seq.ops s.seq.i s.seq.j d
      s.seq.pend (s.bus s.inst).eng (s.bus s.inst).saRs hcontinue hstart
    exact ⟨a, hdecode, htx, hrx, hstop, hpend⟩
  · cases hnone.symm.trans hreq

/-! ## The operations SEQ holds (R177) -/

theorem hosted_ops {p : Packet} {i : Instr} {s t : State} (hdec : decode p = .ok i) (hi : Instr.Hosted p i)
    (h : exec i s = .next t) : t.seq.ops = s.seq.ops ∨ opsAdmitted t.seq.ops = true := by
  rcases hi with hi | hi | ⟨a, b, c, rfl⟩ | ⟨a, o, rfl⟩ | rfl | ⟨rfl, -⟩
  · obtain ⟨r, c, l, n, rfl⟩ := exec_isRead hi h
    exact .inl rfl
  · obtain ⟨-, rfl | ⟨c, -, rfl⟩⟩ := exec_onRegister hi h
    · exact .inl rfl
    · exact .inl rfl
  · obtain ⟨-, -, -, c, -, -, rfl⟩ := execConfigure_next h
    exact .inl rfl
  · exact .inr ((execTransaction_ops h).symm ▸ decode_transaction hdec)
  · obtain ⟨-, -, rfl⟩ := execRelease_next h
    exact .inl rfl
  · cases h
    exact .inr rfl

theorem seqComplete_ops (r : Code) (s : State) : (seqComplete r s).seq.ops = s.seq.ops := by
  cases r
  case ok =>
    unfold seqComplete
    dsimp only
    split
    · next d hd =>
      obtain ⟨n, hstore⟩ := storeReceived_frame s.takeResult d
      rw [advance_ops, hstore]
      rfl
    · rfl
  all_goals rfl

/-- A step of SEQ moves its position only. -/
theorem seqMove_ops {s t : State} (h : seqMove s = .next t) : t.seq.ops = s.seq.ops := by
  rcases seqMove_next h with rfl | ⟨d, -, -, hx⟩ | ⟨d, -, -, hx⟩ | ⟨-, r, -, rfl⟩
  · rfl
  · obtain ⟨-, c, -, rfl⟩ := execOpWrite_next hx
    rfl
  · obtain ⟨-, rfl | ⟨c, -, rfl⟩⟩ := execOpRead_next hx
    · rfl
    · rfl
  · exact seqComplete_ops r s

theorem exMove_frame {s t : State} (h : exMove s = .next t) : exFrame s t := by
  rcases exMove_next h with ⟨rfl, -⟩ | ⟨cmd, wc, -, hx⟩ | ⟨-, hx⟩
  · exact exFrame_refl _
  · exact execExecute_frame hx
  · exact execNackStop_frame hx

/-- The engine's and the environment's steps touch one bus and the count of free values. -/
theorem complete_frame (s : State) (k : Nat) (o : EnvOutcome) :
    ∃ l n, s.complete k o = { s with buses := l, freeCtr := n } := by
  cases ha : (s.bus k).act with
  | none => exact ⟨s.buses, s.freeCtr, by unfold State.complete; rw [ha]⟩
  | some a =>
    obtain ⟨n, hn⟩ := complete_some (o := o) ha
    exact ⟨_, n, hn⟩

theorem completeMove_frame {k : Nat} {o : EnvOutcome} {s t : State} (h : completeMove k o s = .next t) :
    ∃ l n, t = { s with buses := l, freeCtr := n } := by
  rcases completeMove_next h with rfl | ⟨-, rfl⟩
  · exact ⟨_, _, rfl⟩
  · exact complete_frame s k o

theorem visibleMove_frame {k : Nat} {s t : State} (h : visibleMove k s = .next t) : ∃ l, t = { s with buses := l } := by
  rcases visibleMove_next h with rfl | ⟨-, rfl⟩
  · exact ⟨_, rfl⟩
  · exact ⟨_, rfl⟩

theorem expireMove_frame {k : Nat} {s t : State} (h : expireMove k s = .next t) :
    ∃ l n m, t = { s with buses := l, freeCtr := n, sel := m } := by
  rcases expireMove_next h with ⟨-, rfl⟩ | ⟨-, rfl⟩
  · exact ⟨_, _, _, rfl⟩
  · exact ⟨_, _, _, rfl⟩

/-- Settles O52: only a TRANSACTION latches operations, and its packet decodes only within the bounds of R177. -/
theorem stepKeepsOperationsAdmitted : Obligations.StepKeepsOperationsAdmitted := by
  refine ⟨rfl, fun s t hadm hstep => ?_⟩
  have hkept : t.seq.ops = s.seq.ops ∨ opsAdmitted t.seq.ops = true := by
    rcases step_next hstep with ⟨k, p, rest, -, h⟩ | ⟨a, b, rest, -, h⟩ | ⟨k, o, rest, -, h⟩ |
      ⟨k, h⟩ | ⟨k, -, h⟩ | h | h
    · rcases portMove_next h with rfl | ⟨i, hdec, hexec, hi⟩
      · exact .inl rfl
      · exact hosted_ops (s := { s.popped with sel := k }) hdec hi hexec
    · exact .inl (hostStoreMove_next h ▸ rfl)
    · obtain ⟨l, n, rfl⟩ := completeMove_frame h
      exact .inl rfl
    · obtain ⟨l, rfl⟩ := visibleMove_frame h
      exact .inl rfl
    · obtain ⟨l, n, m, rfl⟩ := expireMove_frame h
      exact .inl rfl
    · rw [(exMove_frame h).1]
      exact .inl rfl
    · exact .inl (seqMove_ops (s := s.popped) h)
  rcases hkept with hsame | hnew
  · rw [hsame]; exact hadm
  · exact hnew

/-! ## Buffer memory (R53, R170) -/

theorem memRead_of_buf {s t : State} (h : t.buf = s.buf) (a : Nat) : t.memRead a = s.memRead a := by
  unfold State.memRead; rw [h]

theorem hosted_buf {p : Packet} {i : Instr} {s t : State} (hi : Instr.Hosted p i) (h : exec i s = .next t) :
    t.buf = s.buf := by
  rcases hi with hi | hi | ⟨a, b, c, rfl⟩ | ⟨a, o, rfl⟩ | rfl | ⟨rfl, -⟩
  · obtain ⟨r, c, l, n, rfl⟩ := exec_isRead hi h
    rfl
  · obtain ⟨-, rfl | ⟨c, -, rfl⟩⟩ := exec_onRegister hi h
    · rfl
    · rfl
  · obtain ⟨-, -, -, c, -, -, rfl⟩ := execConfigure_next h
    rfl
  · obtain ⟨-, -, q, v, c, rfl, -⟩ := execTransaction_next h
    rfl
  · obtain ⟨-, -, rfl⟩ := execRelease_next h
    rfl
  · cases h
    rfl

theorem portMove_buf {k : Nat} {p : Packet} {s t : State} (h : portMove k p s = .next t) : t.buf = s.buf := by
  rcases portMove_next h with rfl | ⟨i, -, hexec, hi⟩
  · rfl
  · exact hosted_buf (s := { s with sel := k }) hi hexec

theorem advance_buf (s : State) (d : Desc) : (s.advance d).buf = s.buf := by
  obtain ⟨q, c, v, h⟩ := advance_frame s d
  rw [h]

/-- A received byte is stored at the position of a Read only (R163). -/
theorem storeReceived_memRead {s : State} {d : Desc} {a : Nat} (h : (s.storeReceived d).memRead a ≠ s.memRead a) :
    d.dir = .read ∧ a = d.base + s.seq.j := by
  cases hdir : d.dir with
  | write => exact absurd (by rw [storeReceived_write hdir]) h
  | read =>
    refine ⟨rfl, by_contra fun hne => h ?_⟩
    have hread : (s.receivedRead s.inst).memRead a = s.memRead a := by
      unfold State.receivedRead
      split <;> rfl
    unfold State.storeReceived
    simp only [hdir, memRead_memWrite, if_neg hne, hread]

theorem seqComplete_memRead {r : Code} {s : State} {a : Nat} (h : (seqComplete r s).memRead a ≠ s.memRead a) :
    r = .ok ∧ ∃ d, s.seq.ops[s.seq.i]? = some d ∧ d.dir = .read ∧ a = d.base + s.seq.j := by
  cases r
  case ok =>
    cases hd : s.seq.ops[s.seq.i]? with
    | none => exact absurd (by simp only [seqComplete, hd]) h
    | some d =>
      rw [seqComplete_ok hd, memRead_of_buf (advance_buf _ d)] at h
      exact ⟨rfl, d, rfl, storeReceived_memRead (s := s.takeResult) h⟩
  all_goals exact absurd rfl h

/-- Settles O55: past the host's store, only SEQ's completion step writes buffer memory. -/
theorem bufferChangesOnlyByReadBytes : Obligations.BufferChangesOnlyByReadBytes := by
  intro s t a hstep hchange
  have hkept (h : t.buf = s.buf) : t.memRead a = s.memRead a := memRead_of_buf h a
  rcases step_next hstep with ⟨k, p, rest, -, h⟩ | ⟨c, b, rest, hsched, h⟩ | ⟨k, o, rest, -, h⟩ |
    ⟨k, h⟩ | ⟨k, -, h⟩ | h | h
  · exact absurd (hkept (portMove_buf (s := s.popped) h)) hchange
  · left
    rw [hostStoreMove_next h, memRead_memWrite] at hchange
    split at hchange
    · next hac => exact ⟨b, rest, hac ▸ hsched⟩
    · exact absurd rfl hchange
  · obtain ⟨l, n, rfl⟩ := completeMove_frame h
    exact absurd (hkept rfl) hchange
  · obtain ⟨l, rfl⟩ := visibleMove_frame h
    exact absurd (hkept rfl) hchange
  · obtain ⟨l, n, m, rfl⟩ := expireMove_frame h
    exact absurd (hkept rfl) hchange
  · exact absurd (hkept (by rw [(exMove_frame h).1]; rfl)) hchange
  · right
    rcases seqMove_next h with rfl | ⟨d, -, -, hx⟩ | ⟨d, -, -, hx⟩ | ⟨hwait, r, hr, rfl⟩
    · exact absurd (hkept rfl) hchange
    · obtain ⟨-, c, -, rfl⟩ := execOpWrite_next hx
      exact absurd (hkept rfl) hchange
    · obtain ⟨-, rfl | ⟨c, -, rfl⟩⟩ := execOpRead_next hx
      · exact absurd (hkept rfl) hchange
      · exact absurd (hkept rfl) hchange
    · obtain ⟨rfl, d, hd, hread, ha⟩ := seqComplete_memRead (s := s.popped) hchange
      exact ⟨d, hwait, hr, hd, hread, ha⟩

/-! ## The engine state, `BUSY` and `CLKTO` (R33, R39, R41) -/

/-- Register writes and accepted commands touch neither the engine state nor `BUSY`, and set no error flag. -/
theorem Bus.Changes.keeps {b c : Bus} (h : b.Changes c) :
    c.eng = b.eng ∧ c.busy = b.busy ∧ (c.clkto = true → b.clkto = true) := by
  rcases h with ⟨-, -, mfe, sa, rs, dr, rv, tpr, toc, rfl⟩ | ⟨-, -, a, rfl⟩
  · exact ⟨rfl, rfl, id⟩
  · exact ⟨rfl, rfl, nofun⟩

/-- Settles O56: of the ways a step can touch a bus, only completion, expiry and reset move the engine. -/
theorem engineStateChangesOnlyBy : Obligations.EngineStateChangesOnlyBy := by
  intro s t k hstep hchange
  rcases step_bus hstep k with h | h | ⟨-, h⟩ | ⟨o, rest, a, w, e, hsched, hcan, -, -⟩ | hexpire | ⟨hreset, -⟩
  · exact absurd (congrArg Bus.eng h) hchange
  · exact absurd h.keeps.1 hchange
  · exact absurd (congrArg Bus.eng h) hchange
  · exact .inl ⟨o, rest, hsched, hcan⟩
  · exact .inr (.inl hexpire)
  · exact .inr (.inr hreset)

theorem busy_set_by_visibility {s t : State} {k : Nat} (hstep : step s = .next t) (hclear : (s.bus k).busy = false)
    (hset : (t.bus k).busy = true) : (s.bus k).lag = true ∧ t.bus k = (s.bus k).becomeVisible := by
  rcases step_bus hstep k with h | h | h | ⟨o, rest, a, w, e, -, -, -, h⟩ | ⟨-, -, w, e, g, h⟩ | ⟨-, h⟩
  · rw [h, hclear] at hset; cases hset
  · rw [h.keeps.2.1, hclear] at hset; cases hset
  · exact h
  · rw [h, (completed_frame _ a o w e).1] at hset; cases hset
  · rw [h, (expired_frame _ w e g).1] at hset; cases hset
  · rw [h] at hset; cases hset

theorem clkto_set_by_expiry {s t : State} {k : Nat} (hstep : step s = .next t) (hclear : (s.bus k).clkto = false)
    (hset : (t.bus k).clkto = true) : ((∃ rest, s.sched = .expire k :: rest) ∨ s.sched = []) ∧
      (s.bus k).canExpire = true ∧ ∃ w e g, t.bus k = (s.bus k).expired w e g := by
  rcases step_bus hstep k with h | h | ⟨-, h⟩ | ⟨o, rest, a, w, e, -, -, -, h⟩ | h | ⟨-, h⟩
  · rw [h, hclear] at hset; cases hset
  · rw [h.keeps.2.2 hset] at hclear; cases hclear
  · rw [h, becomeVisible_clkto, hclear] at hset; cases hset
  · obtain ⟨-, -, -, -, -, hclkto, -⟩ := completed_frame (s.bus k) a o w e
    rw [h, hclkto, hclear] at hset; cases hset
  · exact h
  · rw [h] at hset; cases hset

/-- Settles O57: of the ways a step can touch a bus, one sets `BUSY` and one sets `CLKTO`. -/
theorem busyAndTimeoutSetOnlyBy : Obligations.BusyAndTimeoutSetOnlyBy := by
  intro s t k hstep
  refine ⟨busy_set_by_visibility hstep, fun hclear hset => ?_⟩
  obtain ⟨hsched, hcan, hexpired⟩ := clkto_set_by_expiry hstep hclear hset
  obtain ⟨harmed, hbusy, hlag⟩ := canExpire_iff.1 hcan
  exact ⟨hsched, harmed, hbusy, hlag, hexpired⟩

/-! ## What a bound handle keeps from the host (R63, R189) -/

/-- The bound bus, `INST` and the executor are as before, and a working sequencer and its handle too. -/
def State.KeepsBound (s t : State) : Prop :=
  t.bus s.inst = s.bus s.inst ∧ t.inst = s.inst ∧ t.ex = s.ex ∧ (s.seq.st ≠ .idle → t.seq = s.seq ∧ t.owned = true)

theorem hosted_keepsBound {p : Packet} {i : Instr} {s t : State} (hown : s.owned = true) (hi : Instr.Hosted p i)
    (hp : p ≠ ⟨.rst, [1]⟩) (h : exec i s = .next t) : s.KeepsBound t := by
  rcases hi with hi | hi | ⟨a, b, c, rfl⟩ | ⟨a, o, rfl⟩ | rfl | ⟨-, hrst⟩
  · obtain ⟨r, c, l, n, rfl⟩ := exec_isRead hi h
    exact ⟨rfl, rfl, rfl, fun _ => ⟨rfl, hown⟩⟩
  · obtain ⟨⟨-, -, hfree⟩, rfl | ⟨c, -, rfl⟩⟩ := exec_onRegister hi h
    · exact ⟨rfl, rfl, rfl, fun _ => ⟨rfl, hown⟩⟩
    · exact ⟨bus_setBus_ne s c fun heq => hfree ⟨hown, heq⟩, rfl, rfl, fun _ => ⟨rfl, hown⟩⟩
  · obtain ⟨hfree, -⟩ := execConfigure_next h
    cases hfree.symm.trans hown
  · obtain ⟨-, hidle, q, v, c, rfl, -⟩ := execTransaction_next h
    exact ⟨rfl, rfl, rfl, fun hwork => absurd hidle hwork⟩
  · obtain ⟨-, hidle, rfl⟩ := execRelease_next h
    exact ⟨rfl, rfl, rfl, fun hwork => absurd hidle hwork⟩
  · exact absurd hrst hp

/-- Settles O58: a register access to the bound bus is refused, CONFIGURE finds the handle taken, and the other requests
wait for an idle sequencer. -/
theorem handleExcludesHost : Obligations.HandleExcludesHost := by
  intro s t k p rest hown hsched hp hstep
  rw [step_of_cons hsched] at hstep
  rcases portMove_next hstep with rfl | ⟨i, -, hexec, hi⟩
  · exact ⟨rfl, rfl, rfl, fun _ => ⟨rfl, hown⟩⟩
  · exact hosted_keepsBound (s := { s with sched := rest, sel := k }) hown hi hp hexec

end Sys2Proof.Machine

/-! # What one step runs (R14, R22, R52, R92, R211) -/

namespace Sys2Proof.Machine

/-! ## The host's packets and accesses -/

theorem step_port_ok {s : State} {k : Nat} {p : Packet} {rest : List Move} {i : Instr} (hs : s.sched = .port k p :: rest)
    (hp : Port.external p.port = true) (hi : decode p = .ok i) : step s = exec i { s with sched := rest, sel := k } := by
  rw [step_of_cons hs, ← runPacket_ok hi]
  exact if_pos hp

/-- A packet of the host's is placed first in the schedule. -/
theorem withPacket_external {p : Packet} (h : Port.external p.port = true) (s : State) :
    s.withPacket p = { s with sched := .port s.sel p :: s.sched } := by
  obtain ⟨port, ws⟩ := p
  cases port with
  | descriptor | executor | recovery | detector => cases h
  | _ => rfl

theorem step_withFetchWord {s : State} {nbits w : Nat} {p : Packet} {i : Instr} (ht : tablePacket nbits w = some p)
    (hp : Port.external p.port = true) (hi : decode p = .ok i) : step (s.withFetchWord nbits w) = exec i s := by
  have hplaced : s.withFetchWord nbits w = { s with sched := .port s.sel p :: s.sched } := by
    rw [← withPacket_external hp, State.withFetchWord, ht]
  rw [hplaced]
  exact step_port_ok (s := { s with sched := .port s.sel p :: s.sched }) rfl hp hi

section Access

variable {s : State} {addr : Nat} {size : AccessSize} {data : Option Nat} {rest : List Move}
  (hs : s.sched = .access addr size data :: rest)
include hs

theorem step_access_window {k offset : Nat} (hk : k < Config.nInstances) (ho : offset < Config.windowBytes)
    (ha : addr = Config.base k + offset) :
    step s = step { s with sched := .port k (accessPacket size offset data) :: rest } := by
  have hwindow : windowAt addr = some (k, offset) := ha ▸ windowAt_regAddress hk ho
  rw [step_of_cons hs, step_of_cons (s := { s with sched := .port k (accessPacket size offset data) :: rest }) rfl]
  simp only [runMove, accessMove, hwindow]

theorem step_access_outside
    (h : ∀ k, k < Config.nInstances → addr < Config.base k ∨ Config.base k + Config.windowBytes ≤ addr) :
    step s = .refused .noSuchInstance := by
  rw [step_of_cons hs]
  simp only [runMove, accessMove, windowAt_none h]

end Access

/-- Settles O5: a packet of the host's is decoded and run; an access is a packet at the port of the window that holds its
address; at a port at rest the rejection changes nothing. -/
theorem stepRunsPresentedInstruction : Obligations.StepRunsPresentedInstruction := by
  refine ⟨fun s k p rest i hs hp hi => step_port_ok hs hp hi, fun s nbits w p i ht hp hi => step_withFetchWord ht hp hi,
    fun s addr size data rest hs => ⟨fun k offset hk ho ha => step_access_window hs hk ho ha, step_access_outside hs⟩, ?_⟩
  rintro s k rest (hs | hs)
  · exact step_port_rejected hs rfl rfl
  · exact step_port_rejected hs rfl rfl

/-! ## What the internal agents run -/

theorem decode_words_ok {d : Desc} {i : Instr} (h : decode ⟨.descriptor, d.words⟩ = .ok i) : i = issueInstr d := by
  obtain ⟨dir, len, base⟩ := d
  cases dir
  case write =>
    change (if Desc.fits ⟨.write, len, base⟩ then Except.ok _ else .error _) = _ at h
    split at h <;> cases h
    rfl
  case read =>
    change (if Desc.fits ⟨.read, len, base⟩ then Except.ok _ else .error _) = _ at h
    split at h <;> cases h
    rfl

theorem fetchEx_recovery {s : State} (h : s.ex.st = .nstopSettle ∨ s.ex.st = .nstopPoll) :
    s.fetchEx = some ⟨.recovery, [4]⟩ := by
  unfold State.fetchEx
  rcases h with h | h <;> rw [h]

theorem fetchEx_cycle {s : State} (h1 : s.ex.st ≠ .nstopSettle) (h2 : s.ex.st ≠ .nstopPoll) :
    s.fetchEx = s.ex.req.map fun c => ⟨.executor, [c.1.toNat, c.2.code]⟩ := by
  unfold State.fetchEx
  cases hst : s.ex.st with
  | nstopSettle => exact absurd hst h1
  | nstopPoll => exact absurd hst h2
  | _ => cases s.ex.req <;> rfl

theorem exMove_cycle {s : State} {cmd : Word} {wc : WaitCond} (hr : s.ex.req = some (cmd, wc)) (hc : cmd.toNat < 16)
    (h1 : s.ex.st ≠ .nstopSettle) (h2 : s.ex.st ≠ .nstopPoll) : exMove s = exec (.execute cmd wc) s := by
  have hfetch := fetchEx_cycle h1 h2
  rw [hr] at hfetch
  rw [exMove_fetched hfetch]
  exact runPacket_ok (decode_cycle hc wc) s

theorem exMove_recovery {s : State} (h : s.ex.st = .nstopSettle ∨ s.ex.st = .nstopPoll) :
    exMove s = exec .nackStop s := by
  rw [exMove_fetched (fetchEx_recovery h), runPacket_ok decode_recovery]

/-- Settles O6: what each internal agent fetches decodes to the instruction named. -/
theorem stepRunsInternalInstruction : Obligations.StepRunsInternalInstruction := by
  refine fun s rest => ⟨fun d i hs hissue hidle hd hi => ?_, fun cmd wc hs hr hc h1 h2 => ?_, fun hs hst => ?_,
    fun _ hs hcan => ?_⟩
  · rw [step_of_cons hs, decode_words_ok hi]
    exact seqMove_issue (s := { s with sched := rest }) hissue hidle hd
  · rw [step_of_cons hs]
    exact exMove_cycle (s := { s with sched := rest }) hr hc h1 h2
  · rw [step_of_cons hs]
    exact exMove_recovery (s := { s with sched := rest }) hst
  · rw [step_of_cons hs, ← runPacket_ok decode_detector]
    exact if_pos hcan

/-! ## Steps that are not enabled -/

theorem visibleMove_held {k : Nat} {s : State} (h : (s.bus k).lag = false) : visibleMove k s = .next s :=
  if_neg (by simp [h])

theorem completeMove_held {k : Nat} {o : EnvOutcome} {s : State} (h : (s.bus k).busy = false ∨ (s.bus k).lag = true ∨
    ∀ a, (s.bus k).act = some a → a.admits o = false) : completeMove k o s = .next s := by
  refine if_neg fun hcan => ?_
  obtain ⟨hbusy, hlag, a, ha, hadm⟩ := canComplete_iff.1 hcan
  rcases h with h | h | h
  · cases h.symm.trans hbusy
  · cases h.symm.trans hlag
  · cases (h a ha).symm.trans hadm

theorem expireMove_held {k : Nat} {s : State} (h : (s.bus k).toArmed = false ∨ (s.bus k).busy = false ∨
    (s.bus k).lag = true) : expireMove k s = .next s := by
  refine if_neg fun hcan => ?_
  obtain ⟨harmed, hbusy, hlag⟩ := canExpire_iff.1 hcan
  rcases h with h | h | h
  · cases h.symm.trans harmed
  · cases h.symm.trans hbusy
  · cases h.symm.trans hlag

theorem exMove_held {s : State} (hst : s.ex.st = .idle) (hr : s.ex.req = none) : exMove s = .next s := by
  have hfetch : s.fetchEx = none := by
    rw [fetchEx_cycle (by rw [hst]; decide) (by rw [hst]; decide), hr]
    rfl
  unfold exMove
  rw [hfetch]

theorem fetchSeq_none {s : State} (h : s.seq.st ≠ .issue) : s.fetchSeq = none := if_neg fun hc => h hc.1

theorem seqMove_idle {s : State} (h : s.seq.st = .idle) : seqMove s = .next s := by
  unfold seqMove
  rw [fetchSeq_none (by rw [h]; decide), h]

theorem seqMove_unanswered {s : State} (h : s.seq.st = .wait) (hr : s.ex.result = none) : seqMove s = .next s := by
  unfold seqMove
  rw [fetchSeq_none (by rw [h]; decide), h, hr]

/-- Settles O7: one lemma per agent about its disabled step. -/
theorem disabledStepsAreHeld : Obligations.DisabledStepsAreHeld :=
  fun s rest _ => ⟨fun hs h => (step_of_cons hs).trans (visibleMove_held (s := { s with sched := rest }) h),
    fun _ hs h => (step_of_cons hs).trans (completeMove_held (s := { s with sched := rest }) h),
    fun hs h => (step_of_cons hs).trans (expireMove_held (s := { s with sched := rest }) h),
    fun hs hst hr => (step_of_cons hs).trans (exMove_held (s := { s with sched := rest }) hst hr),
    fun hs h => (step_of_cons hs).trans (seqMove_idle (s := { s with sched := rest }) h),
    fun hs h hr => (step_of_cons hs).trans (seqMove_unanswered (s := { s with sched := rest }) h hr)⟩

/-! ## The fair steps (R211) -/

section Fair

variable {s : State}

theorem fairStep_visible {k : Nat} (h : firstBus Bus.lag s.buses = some k) : fairStep s = visibleMove k s := by
  unfold fairStep; rw [h]

theorem fairStep_expire {k : Nat} (hl : firstBus Bus.lag s.buses = none) (h : firstBus Bus.canExpire s.buses = some k) :
    fairStep s = expireMove k s := by
  unfold fairStep; rw [hl, h]

theorem fairStep_ex {p : Packet} (hl : firstBus Bus.lag s.buses = none) (he : firstBus Bus.canExpire s.buses = none)
    (hf : s.fetchEx = some p) : fairStep s = runPacket p s := by
  unfold fairStep; rw [hl, he, hf]

theorem fairStep_seq (hl : firstBus Bus.lag s.buses = none) (he : firstBus Bus.canExpire s.buses = none)
    (hf : s.fetchEx = none) : fairStep s = seqMove s := by
  unfold fairStep; rw [hl, he, hf]

end Fair

/-- Settles O8: the search finds a bus with the property exactly where there is one, since the list is in canonical
form. -/
theorem fairStepsGoOn : Obligations.FairStepsGoOn := by
  intro s hnil hsound
  rw [step_of_nil hnil]
  have noLag (h : ∀ k, (s.bus k).lag = false) : firstBus Bus.lag s.buses = none := firstBus_eq_none rfl hsound.buses_wf h
  have noExpiry (h : ∀ k, (s.bus k).canExpire = false) : firstBus Bus.canExpire s.buses = none :=
    firstBus_eq_none rfl hsound.buses_wf h
  refine ⟨fun k hk => ?_, fun hl k hk => ?_, fun h p hp => ?_, fun h hp => ?_⟩
  · obtain ⟨m, hfound, hm⟩ := firstBus_found rfl hsound.buses_wf hk
    exact ⟨m, hm, (fairStep_visible hfound).trans (if_pos hm)⟩
  · obtain ⟨m, hfound, hm⟩ := firstBus_found rfl hsound.buses_wf hk
    exact ⟨m, hm, (fairStep_expire (noLag hl) hfound).trans (expireMove_enabled hm)⟩
  · exact fairStep_ex (noLag fun k => (h k).1) (noExpiry fun k => (h k).2) hp
  · exact fairStep_seq (noLag fun k => (h k).1) (noExpiry fun k => (h k).2) hp

end Sys2Proof.Machine

/-! # Register reads and the command strobe (R64, R99 to R104, R110) -/

namespace Sys2Proof.Machine

/-! ## What a read shows -/

theorem exec_rdSa_reaches {s : State} {k : Nat} (h : s.HostReaches k) :
    exec .rdSa s = .next (s.readDefined 0xFF (addrWord (s.bus k).saAddr (s.bus k).saRs)) := by
  unfold exec execRdSa; exact hostAccess_reaches h _

theorem exec_rdStat_reaches {s : State} {k : Nat} (h : s.HostReaches k) :
    exec .rdStat s = .next ((s.statRead k).readDefined statMask (s.statSnap k).word) := by
  unfold exec execRdStat; exact hostAccess_reaches h _

theorem exec_rdDr_reaches {s : State} {k : Nat} (h : s.HostReaches k) :
    exec .rdDr s = .next (s.readDefined (if !(s.bus k).occupied && (s.bus k).rxValid then 0xFF else 0)
      (dataWord (s.bus k).drData)) := by
  unfold exec execRdDr; exact hostAccess_reaches h _

theorem exec_rdTpr_reaches {s : State} {k : Nat} (h : s.HostReaches k) :
    exec .rdTpr s = .next (s.readDefined 0x7F ((s.bus k).tpr.setWidth 32)) := by
  unfold exec execRdTpr; exact hostAccess_reaches h _

theorem exec_rdCr_reaches {s : State} {k : Nat} (h : s.HostReaches k) :
    exec .rdCr s = .next (s.readDefined 0x10 (if (s.bus k).mfe then 0x10 else 0)) := by
  unfold exec execRdCr; exact hostAccess_reaches h _

theorem exec_rdToc_reaches {s : State} {k : Nat} (h : s.HostReaches k) :
    exec .rdToc s = .next (s.readDefined 0xFF (dataWord (s.bus k).tocCnt)) := by
  unfold exec execRdToc; exact hostAccess_reaches h _

theorem tpr_field (t : BitVec 7) : (t.setWidth 32 : Word).extractLsb' 0 7 = t := by
  rw [← BitVec.setWidth_eq_extractLsb' (by decide), BitVec.setWidth_setWidth_of_le t (by decide), BitVec.setWidth_eq]

/-- Settles O9: the mask of each register defines the field claimed, and the field of the word shown is the register. -/
theorem registerReadsShowTheRegister : Obligations.RegisterReadsShowTheRegister := by
  intro s k h
  refine ⟨⟨_, exec_rdSa_reaches h, ?_, ?_⟩, ⟨_, exec_rdTpr_reaches h, ?_⟩, ⟨_, exec_rdCr_reaches h, ?_⟩,
    ⟨_, exec_rdToc_reaches h, ?_⟩⟩
  · exact (readDefined_field s 0xFF _ 1 7 (by decide)).trans (addrWord_addr _ _)
  · exact (readDefined_bit s 0xFF _ 0 (by decide)).trans (addrWord_dir _ _)
  · exact (readDefined_field s 0x7F _ 0 7 (by decide)).trans (tpr_field _)
  · refine (readDefined_bit s 0x10 _ 4 (by decide)).trans ?_
    cases (s.bus k).mfe <;> rfl
  · exact (readDefined_field s 0xFF _ 0 8 (by decide)).trans (dataWord_field _)

/-- An idle bus is read with the environment's next answer, which is used up (R38, R100). -/
theorem busBusy_listed {s : State} {k : Nat} {a : Bool} {l : List Bool} (hh : (s.bus k).holdsBus = false)
    (hd : s.busDraws = a :: l) : s.busBusy k = a ∧ s.busBusyRead k = { s with busDraws := l } := by
  unfold State.busBusy State.busBusyRead State.busAnswer State.busAnswered
  rw [hh, hd]
  exact ⟨rfl, rfl⟩

theorem statRead_busDraws (s : State) (k : Nat) : (s.statRead k).busDraws = (s.busBusyRead k).busDraws := by
  unfold State.statRead
  split <;> rfl

theorem holdsBus_eq_true {b : Bus} : b.holdsBus = true ↔ b.eng ≠ .idle ∨ b.busy = true := by simp [Bus.holdsBus]

theorem holdsBus_eq_false {b : Bus} : b.holdsBus = false ↔ b.eng = .idle ∧ b.busy = false := by simp [Bus.holdsBus]

/-- Settles O10: the mask defines all seven flags; six of them are the stored ones outside the lag, and `BUSBSY` follows
its own rule in the lag too. -/
theorem statusReadShowsFlags : Obligations.StatusReadShowsFlags := by
  intro s k h
  obtain ⟨busy, error, adrack, datack, arblst, busbsy, clkto⟩ := snap_word_bits (s.statSnap k)
  have shown (i : Nat) (hi : statMask.getLsbD i = true) := readDefined_bit (s.statRead k) statMask (s.statSnap k).word i hi
  have hbusbsy : ((s.statRead k).readDefined statMask (s.statSnap k).word).regRdata.getLsbD 6 = s.busBusy k :=
    (shown 6 rfl).trans (busbsy.trans (statSnap_busbsy s k))
  refine ⟨_, exec_rdStat_reaches h, fun hl => ?_, fun hholds => ?_, fun he hb a l hd => ?_⟩
  · rw [statSnap_of_visible hl] at *
    exact ⟨(shown 0 rfl).trans busy, (shown 1 rfl).trans error, (shown 2 rfl).trans adrack, (shown 3 rfl).trans datack,
      (shown 4 rfl).trans arblst, (shown 7 rfl).trans clkto⟩
  · rw [hbusbsy, State.busBusy, holdsBus_eq_true.2 hholds, Bool.true_or]
  · obtain ⟨hanswer, hread⟩ := busBusy_listed (holdsBus_eq_false.2 ⟨he, hb⟩) hd
    exact ⟨hbusbsy.trans hanswer, by rw [readDefined_busDraws, statRead_busDraws, hread]⟩

/-- Settles O11: the mask defines the byte exactly where it was received and no action runs. -/
theorem dataReadShowsReceivedByte : Obligations.DataReadShowsReceivedByte := by
  intro s k h
  refine ⟨_, exec_rdDr_reaches h, fun hb hl hv => ?_⟩
  have hmask : (!(s.bus k).occupied && (s.bus k).rxValid) = true := by rw [occupied_eq_false.2 ⟨hb, hl⟩, hv]; rfl
  rw [if_pos hmask]
  exact (readDefined_field s 0xFF _ 0 8 (by decide)).trans (dataWord_field _)

/-! ## The frame of a read -/

/-- A read leaves its word at the port and uses up free values. -/
theorem exec_read_frame {i : Instr} (hi : i ∈ [Instr.rdSa, .rdStat, .rdDr, .rdTpr, .rdCr, .rdToc]) {s t : State}
    (h : exec i s = .next t) : ∃ r l n, t = { s with regRdata := r, busDraws := l, freeCtr := n } := by
  simp only [List.mem_cons, List.not_mem_nil, or_false] at hi
  rcases hi with rfl | rfl | rfl | rfl | rfl | rfl
  case inr.inl =>
    have hx : hostAccess s (fun k => .next ((s.statRead k).readDefined statMask (s.statSnap k).word)) = .next t := h
    cases (hostAccess_next hx).2
    obtain ⟨l, n, hread⟩ := statRead_frame s s.sel
    rw [hread]
    exact ⟨_, l, n + 1, rfl⟩
  all_goals
    unfold exec at h
    cases (hostAccess_next h).2
    exact ⟨_, _, _, rfl⟩

/-- Settles O12: what a read may change is the read port and the free values. -/
theorem readsChangeNoState : Obligations.ReadsChangeNoState := by
  intro i hi s t h
  obtain ⟨r, l, n, rfl⟩ := exec_read_frame hi h
  exact ⟨rfl, rfl, rfl, rfl, rfl, rfl, rfl, rfl, rfl, rfl, fun _ => rfl⟩

/-! ## The frame of a command -/

/-- The registers, the receive buffer, the engine state and `BUSY` are as before. -/
def Bus.SameRegisters (b c : Bus) : Prop :=
  c.mfe = b.mfe ∧ c.saAddr = b.saAddr ∧ c.saRs = b.saRs ∧ c.drData = b.drData ∧ c.rxValid = b.rxValid ∧
    c.tpr = b.tpr ∧ c.tocCnt = b.tocCnt ∧ c.eng = b.eng ∧ c.busy = b.busy

theorem Bus.sameRegisters_refl (b : Bus) : b.SameRegisters b := ⟨rfl, rfl, rfl, rfl, rfl, rfl, rfl, rfl, rfl⟩

theorem accept_sameRegisters (b : Bus) (a : Action) : b.SameRegisters (b.accept a) :=
  ⟨rfl, rfl, rfl, rfl, rfl, rfl, rfl, rfl, rfl⟩

/-- Settles O24: past its checks the strobe does nothing, or accepts an action on the selected bus. -/
theorem commandsTouchOneEngine : Obligations.CommandsTouchOneEngine := by
  intro w s t h
  have hstrobe : hostAccess s (fun k => writeCmd k w s) = .next t := h
  obtain ⟨-, -, ⟨-, rfl⟩ | ⟨a, -, rfl⟩⟩ := writeCmd_next (hostAccess_next hstrobe).2
  · exact ⟨rfl, fun _ _ => rfl, (t.bus t.sel).sameRegisters_refl⟩
  · refine ⟨rfl, fun k hk => bus_setBus_ne s _ hk, ?_⟩
    rw [bus_setBus_self]
    exact accept_sameRegisters _ a

end Sys2Proof.Machine

/-! # The engine's free outcomes, the detector, and the requests (R119, R145, R146, R154, R176, R197) -/

namespace Sys2Proof.Machine

/-! ## Arbitration loss and expiry -/

theorem receive_eq (b : Bus) (a : Action) (d : Byte) (v : Bool) :
    b.receive a d v = { b with drData := if a.receives then d else b.drData
                               rxValid := if a.receives then v else b.rxValid } := by
  unfold Bus.receive
  split <;> rfl

theorem complete_arbLost {s : State} {k : Nat} {a : Action} (ha : (s.bus k).act = some a) :
    s.complete k .arbLost = (s.setBus k ((s.bus k).completed a .arbLost s.anyWord s.anyByte)).drawn := by
  unfold State.complete
  rw [ha]
  exact if_pos rfl

/-- Settles O27: every action admits arbitration loss; the free values are those of the draw. -/
theorem completionArbitrationLost : Obligations.CompletionArbitrationLost := by
  intro s k rest a hs hb hl ha
  have hcan : (s.bus k).canComplete .arbLost = true := canComplete_iff.2 ⟨hb, hl, a, ha, rfl⟩
  have hstep : step s = .next (({ s with sched := rest } : State).complete k .arbLost) :=
    (step_of_cons hs).trans (if_pos hcan)
  refine ⟨s.anyWord.getLsbD 1, s.anyWord.getLsbD 2, s.anyWord.getLsbD 3, s.anyByte, ?_⟩
  rw [hstep, complete_arbLost (s := { s with sched := rest }) ha, Bus.completed, receive_eq]
  rfl

theorem expired_acting {b : Bus} {a : Action} (ha : b.act = some a) (w : Word) (e : Byte) (g : Eng) :
    b.expired w e g = ((b.flagTimeout w).receive a e false).finish g := by
  unfold Bus.expired
  rw [ha]

theorem exec_timeoutExpire {s : State} (h : (s.bus s.sel).canExpire = true) :
    exec .timeoutExpire s = .next (s.expire s.sel) := if_pos h

/-- Settles O28: the free values are those of the draw. -/
theorem timeoutExpiry : Obligations.TimeoutExpiry := by
  intro s a harmed hbusy hlag ha
  refine ⟨s.anyWord.getLsbD 1, s.anyWord.getLsbD 2, s.anyWord.getLsbD 3, s.anyWord.getLsbD 4, s.anyByte, s.anyEng, ?_⟩
  rw [exec_timeoutExpire (canExpire_iff.2 ⟨harmed, hbusy, hlag⟩), State.expire, expired_acting ha, receive_eq]
  rfl

theorem canExpire_of_unarmed {b : Bus} (h : b.toArmed = false) : b.canExpire = false := by simp [Bus.canExpire, h]

theorem timeoutInit_ne_zero : Config.timeoutInit ≠ 0 := by
  intro h
  have hval : (Config.timeoutInitLess1.val + 1) % 2 ^ 8 = 0 := congrArg BitVec.toNat h
  have hlt := Config.timeoutInitLess1.isLt
  omega

/-- Settles O29: acceptance arms the detector exactly for a budget other than 0, and only the end of the action disarms
it. -/
theorem onlyZeroBudgetIsUnbounded : Obligations.OnlyZeroBudgetIsUnbounded := by
  refine ⟨fun b a hzero => ?_, timeoutInit_ne_zero, fun b a hbudget => ?_⟩
  · have hunarmed : (b.accept a).toArmed = false := by rw [accept_toArmed, decide_eq_false (not_not_intro hzero)]
    have hvisible : (b.accept a).becomeVisible.canExpire = false := canExpire_of_unarmed hunarmed
    exact ⟨canExpire_of_unarmed hunarmed, hvisible, fun s hs => if_neg (by rw [hs, hvisible]; decide)⟩
  · exact canExpire_iff.2 ⟨decide_eq_true hbudget, rfl, rfl⟩

/-! ## TRANSACTION, RELEASE and RESET -/

section Transaction

variable {s : State} {addr : BitVec 7} {ops : List Desc}

theorem execTransaction_refused (h : s.owned = false ∨ s.seq.st ≠ .idle) :
    execTransaction addr ops s = .refused .requestNotAdmitted := by
  refine if_neg fun ⟨hown, hidle⟩ => ?_
  rcases h with h | h
  · cases h.symm.trans hown
  · exact h hidle

variable (hown : s.owned = true) (hidle : s.seq.st = .idle)
include hown hidle

theorem execTransaction_empty : execTransaction addr [] s =
    .next { s with seq := { s.seq with addr := addr, ops := [] }, rspValid := true, rspCode := .ok } := by
  unfold execTransaction
  rw [if_pos ⟨hown, hidle⟩]
  simp only [List.isEmpty_nil, if_true, State.respond, ← hidle]

theorem execTransaction_zeroLength (hne : ops ≠ []) (hz : ∃ d ∈ ops, d.len = 0) : execTransaction addr ops s =
    .next { s with seq := { s.seq with addr := addr, ops := ops }, rspValid := true, rspCode := .invalidArgument } := by
  have hany : ops.any (fun d => d.len == 0) = true := by simpa using hz
  unfold execTransaction
  rw [if_pos ⟨hown, hidle⟩]
  simp only [List.isEmpty_iff, hne, if_false, hany, if_true, State.respond, ← hidle]

theorem execTransaction_accepted (hne : ops ≠ []) (hlen : ∀ d ∈ ops, d.len ≠ 0) : execTransaction addr ops s =
    .next { s with rspValid := false, seq := ⟨.issue, addr, ops, 0, 0, true⟩ } := by
  have hany : ¬(ops.any (fun d => d.len == 0) = true) := by simpa using hlen
  unfold execTransaction
  rw [if_pos ⟨hown, hidle⟩]
  simp only [List.isEmpty_iff, hne, if_false, if_neg hany]

end Transaction

/-- Settles O37: one lemma about TRANSACTION per answer. -/
theorem transactionAcceptance : Obligations.TransactionAcceptance :=
  fun _ _ _ => ⟨fun hown hidle => ⟨fun hempty => hempty ▸ execTransaction_empty hown hidle,
    execTransaction_zeroLength hown hidle, execTransaction_accepted hown hidle⟩, execTransaction_refused⟩

/-- Settles O46: RELEASE has one guard, and past it one answer. -/
theorem releaseFreesHandle : Obligations.ReleaseFreesHandle := by
  refine fun s => ⟨fun hown hidle => if_pos ⟨hown, hidle⟩, fun h => if_neg fun ⟨hown, hidle⟩ => ?_⟩
  rcases h with h | h
  · cases h.symm.trans hown
  · exact h hidle

/-- Settles O47: RESET keeps of the state before only buffer memory, the output ports and the inputs to come. -/
theorem resetClearsBlock : Obligations.ResetClearsBlock := by
  intro s
  refine ⟨_, rfl, fun k => ?_, rfl, rfl, rfl, rfl, fun _ => rfl, rfl⟩
  exact ⟨rfl, rfl, rfl, rfl, rfl, rfl, rfl, rfl, rfl, rfl, rfl, rfl, rfl, rfl, rfl, rfl, rfl, rfl⟩

/-- Settles O48: the table is the state's own literal. -/
theorem resetStateHoldsTable : Obligations.ResetStateHoldsTable :=
  ⟨fun _ => rfl, rfl, rfl, rfl, rfl, rfl, rfl, rfl, rfl, rfl, rfl, rfl, rfl, rfl, rfl, rfl, rfl, rfl, rfl, rfl, rfl, rfl,
    rfl, rfl⟩

/-- Settles O49: no handle is bound, so the order asks only that EX rests. -/
theorem resetIsSoundAndOrdered : Obligations.ResetIsSoundAndOrdered :=
  ⟨⟨reset_buses_wf, reset_memory_wf, fun _ => Bus.reset_sound⟩, State.Ordered.idle nofun rfl ⟨rfl, rfl, rfl⟩ nofun⟩

end Sys2Proof.Machine

/-! # The executor's steps as instructions (R137 to R141) -/

namespace Sys2Proof.Machine

theorem exec_execute (cmd : Word) (wc : WaitCond) (s : State) : exec (.execute cmd wc) s = execExecute cmd wc s := rfl

/-- Settles O30: the start step by the table's verdict, the settle step by the lag. -/
theorem executeStartsAndSettles : Obligations.ExecuteStartsAndSettles := by
  intro s cmd wc hr
  refine ⟨fun hst hc hm hb hl => ?_, fun hst => ?_⟩
  · rw [exec_execute, execExecute_idle hr hst]
    have hfree := occupied_eq_false.2 ⟨hb, hl⟩
    exact ⟨exStart_nop wc hc hm hfree, fun a => exStart_action wc hc hm hfree⟩
  · rw [exec_execute, execExecute_settle hr hst]
    exact ⟨exSettle_held, exSettle_done⟩

/-! ## A classified read of a bus without an action -/

/-- What EX does with a classified read: a NoAcknowledge is held while the STOP runs, another error is returned, and without
an error the state is `good` (R139, R140). -/
structure State.Classified (s good t : State) : Prop where
  nackAddress : (s.bus s.inst).outcome = .nackAddress → t.ex = { s.ex with st := .nstopSettle, err := .address }
  nackData : (s.bus s.inst).outcome = .nackData → t.ex = { s.ex with st := .nstopSettle, err := .data }
  stops : (s.bus s.inst).outcome = .nackAddress ∨ (s.bus s.inst).outcome = .nackData →
    t.bus s.inst = if (s.bus s.inst).eng = .idle then s.bus s.inst
      else (s.bus s.inst).accept ⟨.no, false, .no, true, .idle⟩
  returns : ∀ e, e = .timeout ∨ e = .arbitrationLoss → (s.bus s.inst).outcome = e →
    t.ex = { s.ex with st := .idle, req := none, result := some e } ∧ t.buses = s.buses
  goesOn : (s.bus s.inst).outcome = .ok → t = good

section Classified

variable {s : State} (hm : (s.bus s.inst).mfe = true) (ho : (s.bus s.inst).occupied = false)
include hm ho

/-- The recovery STOP after a read of `STAT`, which uses up draws only. -/
theorem startNackStop_statRead (e : NackKind) : ∃ t, startNackStop e (s.statRead s.inst) = .next t ∧
    t.ex = { s.ex with st := .nstopSettle, err := e } ∧
    t.bus s.inst = if (s.bus s.inst).eng = .idle then s.bus s.inst
      else (s.bus s.inst).accept ⟨.no, false, .no, true, .idle⟩ := by
  have hstart := startNackStop_ok (s := s.statRead s.inst) e (by simpa using hm) (by simpa using ho)
  simp only [statRead_inst, statRead_bus, statRead_ex] at hstart
  refine ⟨_, hstart, ?_, ?_⟩
  · split <;> rfl
  · split
    · exact statRead_bus s _ _
    · exact bus_setBus_self _ _ _

theorem exClassified_classified (good : State) :
    ∃ t, exClassified (s.bus s.inst).outcome good (s.statRead s.inst) = .next t ∧ s.Classified good t := by
  cases hout : (s.bus s.inst).outcome with
  | ok => exact ⟨good, rfl, by constructor <;> simp [hout]⟩
  | nackAddress =>
    obtain ⟨t, ht, htex, htbus⟩ := startNackStop_statRead hm ho .address
    exact ⟨t, ht, by constructor <;> simp [hout, htex, htbus]⟩
  | nackData =>
    obtain ⟨t, ht, htex, htbus⟩ := startNackStop_statRead hm ho .data
    exact ⟨t, ht, by constructor <;> simp [hout, htex, htbus]⟩
  | timeout | arbitrationLoss | invalidArgument => exact ⟨_, rfl, by constructor <;> simp [hout]⟩

end Classified

/-- Settles O31: outside the lag the poll sees the stored flags, and the wait condition chooses where a good cycle goes. -/
theorem executePolls : Obligations.ExecutePolls := by
  intro s cmd wc hst hr hl hm
  rw [exec_execute, execExecute_poll hr hst]
  refine ⟨exPoll_busy hl, fun hb => ?_⟩
  rw [exPoll_done hl hb]
  obtain ⟨t, ht, hcl⟩ := exClassified_classified hm (occupied_eq_false.2 ⟨hb, hl⟩)
    (match s.ex.wc with
      | .busbsyClear => (s.statRead s.inst).exGoto .waitc
      | .always      => (s.statRead s.inst).exReturn .ok)
  refine ⟨t, ht, hcl.nackAddress, hcl.nackData, hcl.stops, hcl.returns, fun hok hwc => ?_, fun hok hwc => ?_⟩
  · rw [hcl.goesOn hok, hwc]; simp
  · rw [hcl.goesOn hok, hwc]; simp

/-- A read of an idle bus outside the lag uses up the listed answer and nothing else. -/
theorem statRead_listed {s : State} {k : Nat} {a : Bool} {l : List Bool} (hl : (s.bus k).lag = false)
    (hh : (s.bus k).holdsBus = false) (hd : s.busDraws = a :: l) :
    s.busBusy k = a ∧ s.statRead k = { s with busDraws := l } := by
  obtain ⟨hanswer, hread⟩ := busBusy_listed hh hd
  unfold State.statRead
  rw [hl, hread]
  exact ⟨hanswer, rfl⟩

/-- Settles O32: the wait loop classifies as the poll does, and then `BUSBSY` decides. -/
theorem executeWaits : Obligations.ExecuteWaits := by
  intro s cmd wc hst hr hl hb hm
  rw [exec_execute, execExecute_waitc hr hst, exWait_visible hl]
  obtain ⟨t, ht, hcl⟩ := exClassified_classified hm (occupied_eq_false.2 ⟨hb, hl⟩)
    (if s.busBusy s.inst then s.statRead s.inst else (s.statRead s.inst).exReturn .ok)
  refine ⟨t, ht, hcl.nackAddress, hcl.nackData, hcl.stops, hcl.returns, fun hok he => ?_,
    fun hok he l => ⟨fun hd => ?_, fun hd => ?_⟩⟩
  · have hholds : (s.bus s.inst).holdsBus = true := holdsBus_eq_true.2 (.inl he)
    rw [hcl.goesOn hok, State.busBusy, hholds, Bool.true_or, if_pos rfl, statRead_eq_self hl hholds]
  · obtain ⟨hanswer, hread⟩ := statRead_listed hl (holdsBus_eq_false.2 ⟨he, hb⟩) hd
    rw [hcl.goesOn hok, hanswer, if_pos rfl, hread]
  · obtain ⟨hanswer, hread⟩ := statRead_listed hl (holdsBus_eq_false.2 ⟨he, hb⟩) hd
    rw [hcl.goesOn hok, hanswer, if_neg (by decide), hread]
    rfl

/-! ## The frame of the executor -/

/-- Settles O33: a step of EX changes EX and the draws, and at most accepts an action on the bound bus. -/
theorem executorTouchesOneEngine : Obligations.ExecutorTouchesOneEngine := by
  intro cmd wc s t h
  obtain ⟨ht, hbuses⟩ : exFrame s t := h.elim execExecute_frame execNackStop_frame
  rw [ht]
  refine ⟨fun _ => rfl, rfl, rfl, rfl, rfl, rfl, rfl, rfl, rfl, rfl, ?_⟩
  change (∀ k, k ≠ s.inst → t.bus k = s.bus k) ∧ (s.bus s.inst).SameRegisters (t.bus s.inst)
  rcases hbuses with hsame | ⟨-, -, a, hset⟩
  · exact ⟨fun k _ => bus_of_eq hsame k, by rw [bus_of_eq hsame]; exact (s.bus s.inst).sameRegisters_refl⟩
  · refine ⟨fun k hk => (bus_of_eq hset k).trans (bus_setBus_ne s _ hk), ?_⟩
    rw [bus_of_eq hset, bus_setBus_self]
    exact accept_sameRegisters _ a

/-! ## The recovery STOP -/

theorem exec_nackStop_start {s : State} (h : s.ex.st = .poll ∨ s.ex.st = .waitc) :
    exec .nackStop s = startNackStop s.ex.err s := by
  unfold exec execNackStop
  rcases h with h | h <;> rw [h]

theorem exec_nackStop_settle {s : State} (h : s.ex.st = .nstopSettle) : exec .nackStop s = nackStopSettle s := by
  unfold exec execNackStop
  rw [h]

theorem exec_nackStop_poll {s : State} (h : s.ex.st = .nstopPoll) : exec .nackStop s = nackStopPoll s := by
  unfold exec execNackStop
  rw [h]

/-- Settles O34: the three stages of the STOP, each by its own step; the outcome returned is the one EX holds. -/
theorem recoveryStop : Obligations.RecoveryStop := by
  intro s
  refine ⟨fun hst hm hb hl => ?_, fun hst => ?_, fun hst hl => ?_⟩
  · rw [exec_nackStop_start hst, startNackStop_ok s.ex.err hm (occupied_eq_false.2 ⟨hb, hl⟩)]
    exact ⟨fun he => by rw [if_pos he], fun he => by rw [if_neg he]⟩
  · rw [exec_nackStop_settle hst]
    exact ⟨fun hl => if_pos hl, fun hl => if_neg (by simp [hl])⟩
  · rw [exec_nackStop_poll hst]
    refine ⟨nackStopPoll_busy hl, fun hb => ⟨_, nackStopPoll_done hl hb, by simp, fun he => ?_, fun he => ?_⟩⟩
    · rw [he]; simp [NackKind.code]
    · rw [he]; simp [NackKind.code]

end Sys2Proof.Machine

/-! # The sequencer's bytes and the commands of a transaction (R157 to R164, R172) -/

namespace Sys2Proof.Machine

/-! ## The issue of a byte -/

/-- SEQ's load of `SA`, where no action runs: done only with a START pending. -/
theorem issueAddress_free {s : State} (d : Dir) (ho : (s.bus s.inst).occupied = false) :
    issueAddress d s = .next (if s.seq.pend then
      s.setBus s.inst { s.bus s.inst with saAddr := s.seq.addr, saRs := dirBit d } else s) := by
  by_cases hp : s.seq.pend = true
  · rw [if_pos hp, issueAddress_pend d hp ho]
  · rw [if_neg hp, issueAddress_none d (Bool.eq_false_iff.2 hp)]

theorem issueAddress_setBus {s : State} {b : Bus} (d : Dir) (ho : b.occupied = false) :
    issueAddress d (s.setBus s.inst b) =
      .next (s.setBus s.inst (if s.seq.pend then { b with saAddr := s.seq.addr, saRs := dirBit d } else b)) := by
  rw [issueAddress_free d (by rw [setBus_inst, bus_setBus_self]; exact ho)]
  simp only [setBus_seq, setBus_inst, bus_setBus_self, setBus_setBus]
  split <;> rfl

section Issue

variable {s : State} {len base : Nat} (ho : (s.bus s.inst).occupied = false)
include ho

theorem execOpRead_issues (hcan : s.canIssue ⟨.read, len, base⟩ = true) : execOpRead len base s =
    .next (State.requestCycle (if s.seq.pend then
      s.setBus s.inst { s.bus s.inst with saAddr := s.seq.addr, saRs := true } else s) ⟨.read, len, base⟩) := by
  unfold execOpRead
  rw [if_pos hcan, issueAddress_free .read ho]
  rfl

theorem execOpWrite_issues (hcan : s.canIssue ⟨.write, len, base⟩ = true) : execOpWrite len base s =
    .next ((s.setBus s.inst (if s.seq.pend then
        { s.bus s.inst with drData := s.memRead (base + s.seq.j), rxValid := false, saAddr := s.seq.addr, saRs := false }
      else { s.bus s.inst with drData := s.memRead (base + s.seq.j), rxValid := false })).requestCycle
        ⟨.write, len, base⟩) := by
  unfold execOpWrite
  rw [if_pos hcan, writeDr_dataWord _ ho, andThen_of_next]
  exact congrArg (fun o => andThen o fun u => .next (u.requestCycle ⟨.write, len, base⟩))
    (issueAddress_setBus (b := { s.bus s.inst with drData := s.memRead (base + s.seq.j), rxValid := false }) .write ho)

end Issue

/-- Settles O38: `DR` is loaded first, and with a START pending `SA` in the same bus. -/
theorem writeByteIssued : Obligations.WriteByteIssued := by
  intro s len base hissue hidle hd hj hb hl
  exact execOpWrite_issues (occupied_eq_false.2 ⟨hb, hl⟩) (canIssue_iff.2 ⟨hissue, hidle, hd, hj⟩)

/-- Settles O39: only a pending START writes a register, `SA`. -/
theorem readByteIssued : Obligations.ReadByteIssued := by
  intro s len base hissue hidle hd hj hb hl
  refine (execOpRead_issues (occupied_eq_false.2 ⟨hb, hl⟩) (canIssue_iff.2 ⟨hissue, hidle, hd, hj⟩)).trans ?_
  by_cases hp : s.seq.pend = true
  · simp only [if_pos hp]; rfl
  · simp only [if_neg hp]; rfl

/-! ## The completion of a byte -/

theorem seqComplete_error {r : Code} (h : r ≠ .ok) (s : State) : seqComplete r s = s.takeResult.respond r := by
  cases r with
  | ok => exact absurd rfl h
  | _ => rfl

theorem storeReceived_seq (s : State) (d : Desc) : (s.storeReceived d).seq = s.seq := by
  obtain ⟨n, h⟩ := storeReceived_frame s d
  rw [h]

theorem storeReceived_rspValid (s : State) (d : Desc) : (s.storeReceived d).rspValid = s.rspValid := by
  obtain ⟨n, h⟩ := storeReceived_frame s d
  rw [h]

/-- The completed byte leaves everything but the sequencer, buffer memory, the response and the count of free values. -/
theorem storeReceived_advance_frame (s : State) (d : Desc) : ∃ m q c v n, (s.storeReceived d).advance d =
    { s with buf := m, seq := q, rspCode := c, rspValid := v, freeCtr := n } := by
  obtain ⟨q, c, v, hadvance⟩ := advance_frame (s.storeReceived d) d
  obtain ⟨n, hstore⟩ := storeReceived_frame s d
  exact ⟨_, q, c, v, n, hadvance.trans (by rw [hstore])⟩

/-- Settles O41: an error takes the result and answers; an Ok stores a Read byte, and the position decides between the
next byte, the next operation and the end. -/
theorem byteCompleted : Obligations.ByteCompleted := by
  intro s rest r hs hwait hr
  rw [step_completes hs hwait hr]
  refine ⟨fun hne => by rw [seqComplete_error hne]; rfl, fun d hok hd hvalid => ?_⟩
  subst hok
  let u : State := State.takeResult { s with sched := rest }
  have hcomplete : seqComplete .ok { s with sched := rest } = (u.storeReceived d).advance d :=
    seqComplete_ok (s := { s with sched := rest }) hd
  have hseq : (u.storeReceived d).seq = s.seq := storeReceived_seq u d
  have hrsp : (u.storeReceived d).rspValid = s.rspValid := storeReceived_rspValid u d
  have hmem := memRead_of_buf (advance_buf (u.storeReceived d) d)
  obtain ⟨m, q, c, v, n, hframe⟩ := storeReceived_advance_frame u d
  rw [hcomplete]
  refine ⟨_, rfl, by rw [hframe]; rfl, by rw [hframe]; rfl, by rw [hframe]; rfl, by rw [hframe]; rfl, by rw [hframe]; rfl,
    fun hdir a => ?_, fun hdir a => ?_, fun hj => ?_, fun hj n hn => ?_, fun hj hn => ?_⟩
  · rw [hmem, storeReceived_write hdir]; rfl
  · obtain ⟨hb, hl, hv⟩ := hvalid hdir
    rw [hmem, storeReceived_read (s := u) hdir hb hl hv, memRead_memWrite]
    rfl
  · rw [advance_within (by rw [hseq]; exact hj) (by rw [hseq]; exact hd), hseq, hrsp]
    exact ⟨rfl, rfl⟩
  · rw [advance_next (by rw [hseq]; exact hj) (by rw [hseq]; exact hn), hseq, hrsp]
    exact ⟨rfl, rfl⟩
  · rw [advance_last (by rw [hseq]; exact hj) (by rw [hseq]; exact hn), hseq]
    exact ⟨rfl, rfl, rfl⟩

/-! ## A direction change (R164) -/

/-- The operation before a later one holds no globally final byte. -/
theorem lastGlobal_of_next {ops : List Desc} {i : Nat} {n : Desc} (h : ops[i + 1]? = some n) (j len : Nat) :
    lastGlobal ops i j len = false := by
  have hlt : i + 1 < ops.length := (List.getElem?_eq_some_iff.1 h).1
  simp [lastGlobal, Nat.ne_of_lt hlt]

theorem firstOfRun_after {ops : List Desc} {i : Nat} {prv : Desc} (h : ops[i]? = some prv) (j : Nat) (d : Dir) :
    firstOfRun ops (i + 1) j d = (decide (j = 0) && decide (prv.dir ≠ d)) := by
  simp [firstOfRun, runStartsAt, h]

/-- Settles O42: the bits of both commands are those of `cmdAt_bits`, and a START on an owned bus is a repeated one. -/
theorem directionChangeRepeatsStart : Obligations.DirectionChangeRepeatsStart := by
  intro p ops i prv nxt eng hprv hnxt hdir heng
  obtain ⟨hrun, hstart, hstop, -⟩ := cmdAt_bits p ops (i + 1) 0 nxt.len nxt.dir true
  refine ⟨?_, hstart, hstop, fun j pend => ?_, ?_⟩
  · rw [firstOfRun_after hprv, decide_eq_true rfl, decide_eq_true hdir]; rfl
  · obtain ⟨-, -, hbefore, -⟩ := cmdAt_bits p ops i j prv.len prv.dir pend
    rw [hbefore, lastGlobal_of_next hnxt]
  · rw [engDecode_start hrun hstart]
    have hexcl := cmdAt_ack_excludes_stop p ops (i + 1) 0 nxt.len nxt.dir true
    obtain ⟨a, ha, hframing⟩ := startVerdict_action eng (dirBit nxt.dir) _ _
      fun hack => Bool.eq_false_iff.2 fun hst => hexcl ⟨hack, hst⟩
    exact ⟨a, ha, hframing.trans (if_neg heng), startVerdict_rs ha⟩

/-! ## The commands of a transaction (R172) -/

theorem cmdAt_start (p : Config.AckPolicy) (ops : List Desc) (i j len : Nat) (d : Dir) (f : Bool) :
    (cmdAt p ops i j len d f).getLsbD 1 = f := by
  obtain ⟨-, hstart, -⟩ := cmdAt_bits p ops i j len d f
  exact hstart

theorem cmdAt_lt (p : Config.AckPolicy) (ops : List Desc) (i j len : Nat) (d : Dir) (f : Bool) :
    (cmdAt p ops i j len d f).toNat < 16 := by
  obtain ⟨-, -, -, -, hlt⟩ := cmdAt_bits p ops i j len d f
  exact hlt

/-- The first operation starts the first run, and each later one starts a run where the direction changes. -/
theorem plan_starts (p : Config.AckPolicy) (d : Desc) (ds : List Desc) (h : ∀ e ∈ d :: ds, 0 < e.len) :
    ((plan p (d :: ds)).filter (fun w => w.getLsbD 1)).length = runCount (d :: ds) := by
  have hfirst : (fun j => firstOfRun (d :: ds) 0 j d.dir) = fun j => decide (j = 0) := by
    funext j; simp [firstOfRun, runStartsAt]
  have hlater := planFrom_starts p (d :: ds) 0 d ds rfl (fun e he => h e (List.mem_cons_of_mem d he))
    fun k e he => by rw [show 0 + 1 + k = k + 1 by omega]; simpa using he
  rw [plan, planFrom, List.filter_append, List.length_append,
    filter_map_cmd p (d :: ds) 0 d 1 (fun j => firstOfRun (d :: ds) 0 j d.dir) (fun _ => cmdAt_start _ _ _ _ _ _ _),
    hfirst, range_filter_first (h d List.mem_cons_self)]
  exact hlater

/-- The issue step requests the cycle of its byte (R160). -/
theorem issue_requests {s t : State} {d : Desc} (h : exec (issueInstr d) s = .next t) : t.ex.req = some (s.cycleOf d) := by
  obtain ⟨dir, len, base⟩ := d
  cases dir
  case write =>
    obtain ⟨-, c, -, rfl⟩ := execOpWrite_next h
    rfl
  case read =>
    obtain ⟨-, rfl | ⟨c, -, rfl⟩⟩ := execOpRead_next h
    · rfl
    · rfl

/-- Settles O43: the counts by induction over the operations; the entry of a byte is the command its issue requests, whose
pending START is the byte's `first_of_run`. -/
theorem commandCounts : Obligations.CommandCounts := by
  intro p ops hne hlen
  refine ⟨planFrom_length p ops 0 ops, ?_, planFrom_stops p ops 0 ops (Nat.zero_add _) hlen hne,
    planFrom_last p ops 0 ops (Nat.zero_add _) hlen hne, planFrom_run p ops 0 ops, ?_⟩
  · obtain ⟨d, ds, rfl⟩ := List.exists_cons_of_ne_nil hne
    exact plan_starts p d ds hlen
  · rintro s t d rfl hissue hidle rfl ⟨hd, hj, hpend⟩ hmove
    rw [seqMove_issue hissue hidle hd] at hmove
    refine ⟨_, _, issue_requests hmove, ?_⟩
    rw [hpend, plan, planFrom_getElem? _ _ 0 _ hd hj, Nat.zero_add]

end Sys2Proof.Machine

/-! # Runs of several steps (R145, R166, R211) -/

namespace Sys2Proof.Machine

/-- A step and the steps after it, on any machine of the interface. -/
theorem core_run_succ (M : Host.Core) {s t : M.State} (h : M.step s = .next t) (n : Nat) :
    M.run (n + 1) s = M.run n t := by
  rw [Host.Core.run, h]

theorem run_step {n : Nat} {s t : State} {o : Out} (h : step s = .next t)
    (hrun : Host.Core.run Sys2Proof.core n t = o) : Host.Core.run Sys2Proof.core (n + 1) s = o :=
  (core_run_succ Sys2Proof.core h n).trans hrun

/-! ## A scheduled cycle on the bound bus -/

/-- The machine during a cycle: the bound bus, EX, SEQ, the answers and the moves to come; the rest is as in `s`. -/
def State.during (s : State) (b : Bus) (e : Ex) (q : Seq) (draws : List Bool) (moves : List Move) : State :=
  { s with buses := sparseSet Bus.reset s.buses s.inst b, ex := e, seq := q, busDraws := draws, sched := moves }

section During

variable {s : State} {b : Bus} {e : Ex} {q : Seq} {draws : List Bool} {moves : List Move}

theorem during_bus : (s.during b e q draws moves).bus s.inst = b := bus_setBus_self s s.inst b

theorem during_setBus (c : Bus) : (s.during b e q draws moves).setBus s.inst c = s.during c e q draws moves := by
  simp [State.during, State.setBus]

theorem during_visible (hl : b.lag = true) :
    step (s.during b e q draws (.visible s.inst :: moves)) = .next (s.during b.becomeVisible e q draws moves) := by
  have hlag : ((s.during b e q draws moves).bus s.inst).lag = true := by rw [during_bus]; exact hl
  refine (step_visible (s := s.during b e q draws (.visible s.inst :: moves)) rfl hlag).trans ?_
  rw [during_bus]
  exact congrArg _ (during_setBus _)

/-- A transmitted byte and whatever STOP goes with it end well. -/
theorem during_complete {a : Action} (ha : b.act = some a) (hb : b.busy = true) (hl : b.lag = false)
    (hr : a.receives = false) (d : Byte) :
    step (s.during b e q draws (.complete s.inst (.ok d) :: moves)) =
      .next (s.during (b.finish a.next) e q draws moves) := by
  have hbus : (s.during b e q draws (.complete s.inst (.ok d) :: moves)).bus s.inst = b := during_bus
  refine (step_complete (o := .ok d) (a := a) rfl (by rw [hbus]; exact hb) (by rw [hbus]; exact hl)
    (by rw [hbus]; exact ha) rfl nofun).trans ?_
  rw [hbus, Bus.completed, receive_of_not_receives _ _ _ hr]
  exact congrArg _ (during_setBus _)

/-- The read of `STAT` of an idle bus uses up the first answer. -/
theorem during_statRead {x : Bool} (hl : b.lag = false) (hb : b.busy = false) (he : b.eng = .idle) :
    (s.during b e q (x :: draws) moves).busBusy s.inst = x ∧
      (s.during b e q (x :: draws) moves).statRead s.inst = s.during b e q draws moves :=
  statRead_listed (s := s.during b e q (x :: draws) moves) ((congrArg Bus.lag during_bus).trans hl)
    ((congrArg Bus.holdsBus during_bus).trans (holdsBus_eq_false.2 ⟨he, hb⟩)) rfl

variable {cmd : Word} {wc : WaitCond} (hreq : e.req = some (cmd, wc)) (hcmd : cmd.toNat < 16)
include hreq hcmd

theorem during_ex (h1 : e.st ≠ .nstopSettle) (h2 : e.st ≠ .nstopPoll) :
    step (s.during b e q draws (.ex :: moves)) = exec (.execute cmd wc) (s.during b e q draws moves) :=
  (step_of_cons (s := s.during b e q draws (.ex :: moves)) rfl).trans
    (exMove_cycle (s := s.during b e q draws moves) hreq hcmd h1 h2)

theorem during_start {a : Action} (hst : e.st = .idle) (hm : b.mfe = true) (ho : b.occupied = false)
    (hd : engDecode b.eng b.saRs (cmd.extractLsb' 0 4) = .action a) :
    step (s.during b e q draws (.ex :: moves)) =
      .next (s.during (b.accept a) { e with wc := wc, st := .settle } q draws moves) := by
  rw [during_ex hreq hcmd (by rw [hst]; decide) (by rw [hst]; decide), exec_execute, execExecute_idle hreq hst]
  have hbus : (s.during b e q draws moves).bus (s.during b e q draws moves).inst = b := during_bus
  rw [exStart_action wc hcmd (by rw [hbus]; exact hm) (by rw [hbus]; exact ho) (by rw [hbus]; exact hd), hbus]
  exact congrArg _ (during_setBus (e := { e with wc := wc, st := .settle }) _)

theorem during_settle (hst : e.st = .settle) (hl : b.lag = false) :
    step (s.during b e q draws (.ex :: moves)) = .next (s.during b { e with st := .poll } q draws moves) := by
  rw [during_ex hreq hcmd (by rw [hst]; decide) (by rw [hst]; decide), exec_execute, execExecute_settle hreq hst]
  exact exSettle_done (s := s.during b e q draws moves) ((congrArg Bus.lag during_bus).trans hl)

theorem during_poll_busy (hst : e.st = .poll) (hl : b.lag = false) (hb : b.busy = true) :
    step (s.during b e q draws (.ex :: moves)) = .next (s.during b e q draws moves) := by
  rw [during_ex hreq hcmd (by rw [hst]; decide) (by rw [hst]; decide), exec_execute, execExecute_poll hreq hst]
  exact exPoll_busy (s := s.during b e q draws moves) ((congrArg Bus.lag during_bus).trans hl)
    ((congrArg Bus.busy during_bus).trans hb)

/-- The poll after a cycle that went well, of a byte that waits for the idle bus (R139, R165). -/
theorem during_poll_done {x : Bool} (hst : e.st = .poll) (hwc : e.wc = .busbsyClear) (hl : b.lag = false)
    (hb : b.busy = false) (he : b.eng = .idle) (hok : b.outcome = .ok) :
    step (s.during b e q (x :: draws) (.ex :: moves)) = .next (s.during b { e with st := .waitc } q draws moves) := by
  rw [during_ex hreq hcmd (by rw [hst]; decide) (by rw [hst]; decide), exec_execute, execExecute_poll hreq hst]
  let u := s.during b e q (x :: draws) moves
  have hbus : u.bus u.inst = b := during_bus
  have hread : u.statRead u.inst = s.during b e q draws moves := (during_statRead hl hb he).2
  refine (exPoll_done (s := u) (by rw [hbus]; exact hl) (by rw [hbus]; exact hb)).trans ?_
  rw [hbus, hok, hread, show u.ex.wc = .busbsyClear from hwc]
  rfl

/-- The bus is not busy (R140). -/
theorem during_wait_done (hst : e.st = .waitc) (hl : b.lag = false) (hb : b.busy = false) (he : b.eng = .idle)
    (hok : b.outcome = .ok) :
    step (s.during b e q (false :: draws) (.ex :: moves)) =
      .next (s.during b { e with st := .idle, req := none, result := some .ok } q draws moves) := by
  rw [during_ex hreq hcmd (by rw [hst]; decide) (by rw [hst]; decide), exec_execute, execExecute_waitc hreq hst]
  let u := s.during b e q (false :: draws) moves
  have hbus : u.bus u.inst = b := during_bus
  obtain ⟨hanswer, hread⟩ : u.busBusy u.inst = false ∧ u.statRead u.inst = s.during b e q draws moves :=
    during_statRead hl hb he
  refine (exWait_visible (s := u) (by rw [hbus]; exact hl)).trans ?_
  rw [hbus, hok, hanswer, hread]
  rfl

end During

/-! ## The one-shot Write (R166) -/

/-- The bound bus with the byte and the address of a one-byte Write loaded. -/
def State.loadedBus (s : State) (addr : BitVec 7) (base : Nat) : Bus :=
  { s.bus s.inst with drData := s.memRead base, rxValid := false, saAddr := addr, saRs := false }

/-- START, one byte, STOP. -/
def oneShot : Action := ⟨.s, false, .tx, true, .idle⟩

/-- The one-byte Write waiting for its cycle. -/
def oneByteSeq (addr : BitVec 7) (base : Nat) : Seq := ⟨.wait, addr, [⟨.write, 1, base⟩], 0, 0, true⟩

/-- EX in state `st` on the one-shot cycle. -/
def oneShotEx (e : Ex) (st : Exs) (wc : WaitCond) : Ex :=
  { e with st := st, wc := wc, req := some (0x7, .busbsyClear), result := none }

section OneByteWrite

variable {s : State} {addr : BitVec 7} {base : Nat} {draws : List Bool} {moves : List Move}

theorem oneByte_issue (hseq : s.seq = ⟨.issue, addr, [⟨.write, 1, base⟩], 0, 0, true⟩) (hst : s.ex.st = .idle)
    (hfree : (s.bus s.inst).occupied = false) (hdraws : s.busDraws = draws) (hsched : s.sched = .seq :: moves) :
    step s = .next
      (s.during (s.loadedBus addr base) (oneShotEx s.ex .idle s.ex.wc) (oneByteSeq addr base) draws moves) := by
  obtain ⟨hb, hl⟩ := occupied_eq_false.1 hfree
  have hissue : s.seq.st = .issue := by rw [hseq]
  have hd : s.seq.ops[s.seq.i]? = some ⟨.write, 1, base⟩ := by rw [hseq]; rfl
  have hj : s.seq.j < 1 := by rw [hseq]; exact Nat.one_pos
  rw [step_of_cons hsched]
  refine (seqMove_issue (s := { s with sched := moves }) hissue hst hd).trans ?_
  refine (writeByteIssued { s with sched := moves } 1 base hissue hst hd hj hb hl).trans ?_
  simp only [hseq, ← hdraws]
  rw [← hst]
  rfl

theorem oneByte_complete {b : Bus} {e : Ex} (hr : e.result = some .ok) :
    step (s.during b e (oneByteSeq addr base) draws (.seq :: moves)) =
      .next { s.during b { e with result := none } ⟨.idle, addr, [⟨.write, 1, base⟩], 1, 0, true⟩ draws moves with
        rspCode := .ok, rspValid := true } := by
  refine (step_completes (s := s.during b e (oneByteSeq addr base) draws (.seq :: moves)) rfl rfl hr).trans ?_
  rfl

end OneByteWrite

/-- The bound bus when the one-byte Write is over. -/
def State.writtenBus (s : State) (addr : BitVec 7) (base : Nat) : Bus :=
  ((s.loadedBus addr base).accept oneShot).becomeVisible.finish .idle

/-- The machine when the request of the one-byte Write has ended. -/
def State.oneByteDone (s : State) (addr : BitVec 7) (base : Nat) (draws : List Bool) (moves : List Move) : State :=
  { s.during (s.writtenBus addr base) { oneShotEx s.ex .idle .busbsyClear with req := none }
      ⟨.idle, addr, [⟨.write, 1, base⟩], 1, 0, true⟩ draws moves with
    rspCode := .ok, rspValid := true }

theorem oneByteDone_bus (s : State) (addr : BitVec 7) (base : Nat) (draws : List Bool) (moves : List Move) :
    (s.oneByteDone addr base draws moves).bus s.inst = s.writtenBus addr base := bus_setBus_self s s.inst _

/-- Settles O59: each of the nine steps leads from one state of the cycle to the next, in the order of the schedule. -/
theorem oneByteWriteRun : Obligations.OneByteWriteRun := by
  intro s addr base d rest polled l hsound _ hseq hrests hact hmfe heng hdraws hsched
  have hfree : (s.bus s.inst).occupied = false := (hsound.bus_sound s.inst).free hact
  have hdecode : engDecode (s.loadedBus addr base).eng (s.loadedBus addr base).saRs ((0x7 : Word).extractLsb' 0 4) =
      .action oneShot := by rw [show (s.loadedBus addr base).eng = .idle from heng]; rfl
  refine ⟨s.oneByteDone addr base l rest, ?run, rfl, rfl, rfl, rfl, ?_⟩
  case run =>
    refine run_step (oneByte_issue hseq hrests.1 hfree hdraws hsched) ?_
    refine run_step (during_start rfl (by decide) rfl hmfe hfree hdecode) ?_
    refine run_step (during_visible rfl) ?_
    refine run_step (during_settle rfl (by decide) rfl rfl) ?_
    refine run_step (during_poll_busy rfl (by decide) rfl rfl rfl) ?_
    refine run_step (during_complete rfl rfl rfl rfl d) ?_
    refine run_step (during_poll_done rfl (by decide) rfl rfl rfl rfl rfl rfl) ?_
    refine run_step (during_wait_done rfl (by decide) rfl rfl rfl rfl rfl) ?_
    exact run_step (oneByte_complete rfl) rfl
  · rw [oneByteDone_bus]
    exact ⟨rfl, rfl, rfl, rfl, rfl, fun _ => rfl⟩

/-! ## A stuck action (R145, R211) -/

/-- With nothing scheduled and no action anywhere, the fair step is EX's. -/
theorem fair_ex {s : State} {cmd : Word} {wc : WaitCond} (hnil : s.sched = []) (hs : s.Sound)
    (hquiet : ∀ k, (s.bus k).occupied = false) (hreq : s.ex.req = some (cmd, wc)) (hcmd : cmd.toNat < 16)
    (h1 : s.ex.st ≠ .nstopSettle) (h2 : s.ex.st ≠ .nstopPoll) : step s = exec (.execute cmd wc) s := by
  have hstill (k : Nat) : (s.bus k).lag = false ∧ (s.bus k).canExpire = false := by
    obtain ⟨hb, hl⟩ := occupied_eq_false.1 (hquiet k)
    exact ⟨hl, by simp [Bus.canExpire, hb]⟩
  have hfetch : s.fetchEx = some ⟨.executor, [cmd.toNat, wc.code]⟩ := by rw [fetchEx_cycle h1 h2, hreq]; rfl
  obtain ⟨-, -, hfair, -⟩ := fairStepsGoOn s hnil hs
  rw [hfair hstill _ hfetch, runPacket_ok (decode_cycle hcmd wc)]

/-- With no other action, the fair step ends the busy lag. -/
theorem fair_visible {s : State} {i : Nat} (hnil : s.sched = []) (hs : s.Sound) (hl : (s.bus i).lag = true)
    (hothers : ∀ k, k ≠ i → (s.bus k).occupied = false) : step s = .next (s.setBus i (s.bus i).becomeVisible) := by
  obtain ⟨m, hm, hstep⟩ := (fairStepsGoOn s hnil hs).1 i hl
  have hmi : m = i := by_contra fun hne => by
    rw [(occupied_eq_false.1 (hothers m hne)).2] at hm
    cases hm
  exact hmi ▸ hstep

/-- With no other action, and this one visible, the fair step is its expiry. -/
theorem fair_expire {s : State} {i : Nat} (hnil : s.sched = []) (hs : s.Sound) (hcan : (s.bus i).canExpire = true)
    (hothers : ∀ k, k ≠ i → (s.bus k).occupied = false) : step s = .next ({ s with sel := i }.expire i) := by
  have hlag (k : Nat) : (s.bus k).lag = false := by
    by_cases hk : k = i
    · exact hk ▸ (canExpire_iff.1 hcan).2.2
    · exact (occupied_eq_false.1 (hothers k hk)).2
  obtain ⟨-, hfair, -⟩ := fairStepsGoOn s hnil hs
  obtain ⟨m, hm, hstep⟩ := hfair hlag i hcan
  have hmi : m = i := by_contra fun hne => by
    rw [canExpire_iff, (occupied_eq_false.1 (hothers m hne)).1] at hm
    exact absurd hm.2.1 (by decide)
  exact hmi ▸ hstep

/-- Once the action is over, EX settles, polls, and returns the classifier's Timeout. -/
theorem timedOut_run {s : State} {cmd : Word} {wc : WaitCond} (hnil : s.sched = []) (hs : s.Sound)
    (hquiet : ∀ k, (s.bus k).occupied = false) (hreq : s.ex.req = some (cmd, wc)) (hcmd : cmd.toNat < 16)
    (hst : s.ex.st = .settle) (hout : (s.bus s.inst).outcome = .timeout) :
    Host.Core.run Sys2Proof.core 2 s = .next (((s.exGoto .poll).statRead s.inst).exReturn .timeout) := by
  obtain ⟨hb, hl⟩ := occupied_eq_false.1 (hquiet s.inst)
  have settle : step s = .next (s.exGoto .poll) := by
    rw [fair_ex hnil hs hquiet hreq hcmd (by rw [hst]; decide) (by rw [hst]; decide), exec_execute,
      execExecute_settle hreq hst]
    exact exSettle_done hl
  have poll : step (s.exGoto .poll) = .next (((s.exGoto .poll).statRead s.inst).exReturn .timeout) := by
    rw [fair_ex (s := s.exGoto .poll) hnil (hs.of_eq rfl rfl) hquiet hreq hcmd nofun nofun,
      exec_execute, execExecute_poll (s := s.exGoto .poll) hreq rfl, exPoll_done (s := s.exGoto .poll) hl hb,
      exGoto_inst, exGoto_bus, hout]
    rfl
  exact run_step settle (run_step poll rfl)

/-- Settles O60: the lag ends, the detector expires, EX settles, and its poll returns the Timeout. -/
theorem stuckCycleTimesOut : Obligations.StuckCycleTimesOut := by
  intro s a hsound hord hnil hwait hsettle hlag hact harmed hothers
  obtain ⟨-, e, -, hfollows⟩ := hord.waiting hwait
  unfold State.exFollows at hfollows
  rw [hsettle] at hfollows
  obtain ⟨hreq, -⟩ := hfollows
  have visible := fair_visible hnil hsound hlag hothers
  let u := s.setBus s.inst (s.bus s.inst).becomeVisible
  have hu : u.Sound := stepKeepsSound s u hsound visible
  have hubus : u.bus s.inst = (s.bus s.inst).becomeVisible := bus_setBus_self _ _ _
  have huothers (k : Nat) (hk : k ≠ s.inst) : (u.bus k).occupied = false :=
    (congrArg Bus.occupied (bus_setBus_ne s _ hk)).trans (hothers k hk)
  have hcan : (u.bus s.inst).canExpire = true := by rw [hubus]; exact canExpire_iff.2 ⟨harmed, rfl, rfl⟩
  have expire := fair_expire (s := u) hnil hu hcan huothers
  let v := State.expire { u with sel := s.inst } s.inst
  have hv : v.Sound := stepKeepsSound u v hu expire
  have hvbus : v.bus s.inst = (u.bus s.inst).expired u.anyWord u.anyByte u.anyEng :=
    bus_setBus_self { u with sel := s.inst } s.inst _
  obtain ⟨hbusy, hover, -, hvlag, -, hclkto, -⟩ := expired_frame (u.bus s.inst) u.anyWord u.anyByte u.anyEng
  rw [← hvbus] at hbusy hover hvlag hclkto
  have hquiet (k : Nat) : (v.bus k).occupied = false := by
    by_cases hk : k = s.inst
    · rw [hk]
      exact hv.bus_sound s.inst |>.free hover
    · exact (congrArg Bus.occupied (bus_setBus_ne { u with sel := s.inst } _ hk)).trans (huothers k hk)
  have hout : (v.bus s.inst).outcome = .timeout := by rw [hvbus, expired_outcome]
  have hrun := timedOut_run (s := v) hnil hv hquiet hreq (cmdAt_lt _ _ _ _ _ _ _) hsettle hout
  refine ⟨_, run_step visible (run_step expire hrun), rfl, rfl, ?_⟩
  rw [exReturn_bus, statRead_bus, exGoto_bus]
  exact ⟨hclkto, hbusy, hover⟩

end Sys2Proof.Machine
